-- ==== Sys2Proof/Word.lean ====
section
/-! DEFINITION. The words of HUFFCORE: the command word, the byte, and the BitMessage. -/

namespace Sys2Proof

/-- A command word: 32 bits (30_encoding.md rule R80). -/
abbrev Word := BitVec 32

/-- A byte: a symbol of the 256-symbol alphabet, a byte operand, or a byte of a byte view (00_scope.md rule R7, SYM_W = 8). -/
abbrev Byte := BitVec 8

/-- A BitMessage (00_scope.md rule R9): a finite sequence of bits, bit 0 (the head) the first appended and the first
transmitted. -/
abbrev Bits := List Bool

end Sys2Proof
end

