-- ==== Sys2Proof/Syntax.lean ====
section
/-! DEFINITION. The command set of HUFFCORE: one constructor per row of the opcode table (30_encoding.md rule R85). -/

namespace Sys2Proof

/-- The buffer a format-B command names (30_encoding.md rule R83: selector 0 HDR, 1 PAY, 2 OUT). Selector 3 is reserved and
is no buffer: the decoder refuses it (rule R87 (c)). -/
inductive Buf where
  | hdr
  | pay
  | out
  deriving DecidableEq, Repr

/-- The 31 commands, in the order of rule R85's table. -/
inductive Instr where
  /-- INIT: soft reset (R201). -/
  | init
  /-- ABORT: abandon the operation in progress (R202). -/
  | abort
  /-- FINISH: complete an operation and release its transient state (R203). -/
  | finish
  /-- RETIRE: leave Done (R204). -/
  | retire
  /-- RDPHASE: read the phase (R205). -/
  | rdphase
  /-- RDERR: read the sticky fault register (R206). -/
  | rderr
  /-- BAPP buf, bit: append one bit (R101). -/
  | bapp (buf : Buf) (bit : Bool)
  /-- BAPPB buf, byte: append the eight bits of a byte (R102). -/
  | bappb (buf : Buf) (byte : Byte)
  /-- BTRIM buf: remove the last bit (R103). -/
  | btrim (buf : Buf)
  /-- BLEN buf: read the bit count (R104). -/
  | blen (buf : Buf)
  /-- BGET buf, pos: read one bit (R105). -/
  | bget (buf : Buf) (pos : BitVec 24)
  /-- BRDB buf, idx: read one packed byte (R106). -/
  | brdb (buf : Buf) (idx : BitVec 24)
  /-- RELENC: release the EncodedMessage (R107). -/
  | relenc
  /-- RELDEC: release the decoded message (R108). -/
  | reldec
  /-- COUNT b: count one occurrence of byte b (R120). -/
  | count (b : Byte)
  /-- RDFT b: read a counter (R121). -/
  | rdft (b : Byte)
  /-- MKALPHA: build the alphabet from the frequency table (R122). -/
  | mkalpha
  /-- NSYM: read the number of alphabet entries (R123). -/
  | nsym
  /-- RDSYM i: read an entry's symbol and code length (R124). -/
  | rdsym (i : Byte)
  /-- RDFREQ i: read an entry's frequency (R125). -/
  | rdfreq (i : Byte)
  /-- CGET i, pos: read one bit of an entry's code (R126). -/
  | cget (i : Byte) (pos : Byte)
  /-- MKTREE: build the Huffman tree over the alphabet (R143). -/
  | mktree
  /-- ASSIGN: give every leaf its code by traversal (R145). -/
  | assign
  /-- CANON: reorder the alphabet and number its codes canonically (R162). -/
  | canon
  /-- SERHDR: write the header and build the encoder's lookup array (R164). -/
  | serhdr
  /-- PARSE: check a loaded header's structure and latch its two sizes (R166). -/
  | parse
  /-- DESER: rebuild the alphabet and its canonical codes (R167). -/
  | deser
  /-- PACK b: append the code of byte b to the payload (R181). -/
  | pack (b : Byte)
  /-- PACKEND: close the payload (R182). -/
  | packend
  /-- MKLOOK: build the decoder's lookup structure (R190). -/
  | mklook
  /-- DECODE: decode the whole payload into OUT (R191). -/
  | decode
  deriving DecidableEq, Repr

end Sys2Proof
end

