-- ==== Sys2Proof/WellFormed.lean ====
section
/-! DEFINITION. Which terms of the command syntax stand for a command word. The only check the syntax itself does not make
is the selector check of 30_encoding.md rule R87 (c). -/

namespace Sys2Proof

/-- The buffers the host may write: HDR and PAY (40_bitbuffer.md rule R111; 92_eei_decisions.md D32). -/
def Buf.hostWritable : Buf → Bool
  | .hdr => true
  | .pay => true
  | .out => false

/-- The selector check of rule R87 (c): BAPP, BAPPB and BTRIM do not name OUT, "because OUT is not writable by the host".
Every other operand value decodes. -/
def Instr.wf : Instr → Bool
  | .init => true
  | .abort => true
  | .finish => true
  | .retire => true
  | .rdphase => true
  | .rderr => true
  | .bapp buf _ => buf.hostWritable
  | .bappb buf _ => buf.hostWritable
  | .btrim buf => buf.hostWritable
  | .blen _ => true
  | .bget _ _ => true
  | .brdb _ _ => true
  | .relenc => true
  | .reldec => true
  | .count _ => true
  | .rdft _ => true
  | .mkalpha => true
  | .nsym => true
  | .rdsym _ => true
  | .rdfreq _ => true
  | .cget _ _ => true
  | .mktree => true
  | .assign => true
  | .canon => true
  | .serhdr => true
  | .parse => true
  | .deser => true
  | .pack _ => true
  | .packend => true
  | .mklook => true
  | .decode => true

end Sys2Proof
end

