-- ==== Sys2Proof/Decode.lean ====
section
/-! DEFINITION. The command decoder (30_encoding.md rules R80 to R87), total on every 32-bit word and refusing by name, and
after it the encoder, written from the same format tables. The opcode table of rule R85 (match and mask) stands at the end,
as a second reading of the same encodings that the laws compare with the decoder. -/

namespace Sys2Proof

/-- Why a word is no command: the three classes of rule R87. -/
inductive IllegalWord where
  /-- (a) the opcode byte is not in rule R85. -/
  | unknownOpcode
  /-- (b) a bit that the format says must be 0 is 1. -/
  | mustBeZero
  /-- (c) the selector check: buffer selector 3, or selector 2 with a writing command. -/
  | selector
  deriving DecidableEq, Repr

/-! ### Fields of a command word -/

/-- `w[hi:lo]` of rule R8, with `n = hi - lo + 1`. -/
def field (w : Word) (lo n : Nat) : BitVec n := w.extractLsb' lo n

/-- The opcode byte `op = w[31:24]` (R80). -/
def opByte (w : Word) : Byte := field w 24 8

/-- `op6 = w[31:26]`, which selects a buffer command (R83). -/
def op6 (w : Word) : BitVec 6 := field w 26 6

/-- The buffer a selector names: 0 HDR, 1 PAY, 2 OUT, 3 reserved (R83). -/
def bufOfSelector (sel : BitVec 2) : Option Buf :=
  match sel.toNat with
  | 0 => some .hdr
  | 1 => some .pay
  | 2 => some .out
  | _ => none

/-! ### The formats -/

/-- Format Z (R81): `w[23:0]` must be 0. -/
def decodeZ (w : Word) (i : Instr) : Except IllegalWord Instr :=
  if field w 0 24 = 0 then .ok i else .error .mustBeZero

/-- Format I8 (R82): `w[23:8]` must be 0, `imm8 = w[7:0]`. -/
def decodeI8 (w : Word) (mk : Byte → Instr) : Except IllegalWord Instr :=
  if field w 8 16 = 0 then .ok (mk (field w 0 8)) else .error .mustBeZero

/-- Format IP (R84): `w[23:16]` must be 0, `idx = w[15:8]`, `pos = w[7:0]`. -/
def decodeIP (w : Word) (mk : Byte → Byte → Instr) : Except IllegalWord Instr :=
  if field w 16 8 = 0 then .ok (mk (field w 8 8) (field w 0 8)) else .error .mustBeZero

/-- The buffer operand `buf = w[25:24]` and the selector check of R87 (c), after the fields are taken (R86). -/
def withBuffer (w : Word) (mk : Buf → Instr) : Except IllegalWord Instr :=
  match bufOfSelector (field w 24 2) with
  | none => .error .selector
  | some buf => if (mk buf).wf then .ok (mk buf) else .error .selector

/-- Sub-format B0 (R83): `w[23:0]` must be 0. -/
def decodeB0 (w : Word) (mk : Buf → Instr) : Except IllegalWord Instr :=
  if field w 0 24 = 0 then withBuffer w mk else .error .mustBeZero

/-- Sub-format B1 (R83): `w[23:1]` must be 0, `bit = w[0]`. -/
def decodeB1 (w : Word) (mk : Buf → Bool → Instr) : Except IllegalWord Instr :=
  if field w 1 23 = 0 then withBuffer w (fun buf => mk buf (w.getLsbD 0)) else .error .mustBeZero

/-- Sub-format B8 (R83): `w[23:8]` must be 0, `byte = w[7:0]`. -/
def decodeB8 (w : Word) (mk : Buf → Byte → Instr) : Except IllegalWord Instr :=
  if field w 8 16 = 0 then withBuffer w (fun buf => mk buf (field w 0 8)) else .error .mustBeZero

/-- Sub-format BP (R83): `pos = w[23:0]`. -/
def decodeBP (w : Word) (mk : Buf → BitVec 24 → Instr) : Except IllegalWord Instr :=
  withBuffer w (fun buf => mk buf (field w 0 24))

/-! ### The opcode map -/

/-- The rows of rule R85 whose opcode byte is one number (formats Z, I8, IP). -/
def decodeByOpcode (w : Word) : Except IllegalWord Instr :=
  match (opByte w).toNat with
  | 0x01 => decodeZ w .init
  | 0x02 => decodeZ w .abort
  | 0x03 => decodeZ w .finish
  | 0x04 => decodeZ w .retire
  | 0x05 => decodeZ w .rdphase
  | 0x06 => decodeZ w .rderr
  | 0x28 => decodeZ w .relenc
  | 0x29 => decodeZ w .reldec
  | 0x30 => decodeI8 w .count
  | 0x31 => decodeI8 w .rdft
  | 0x32 => decodeZ w .mkalpha
  | 0x33 => decodeZ w .nsym
  | 0x34 => decodeI8 w .rdsym
  | 0x35 => decodeI8 w .rdfreq
  | 0x36 => decodeIP w .cget
  | 0x40 => decodeZ w .mktree
  | 0x41 => decodeZ w .assign
  | 0x50 => decodeZ w .canon
  | 0x51 => decodeZ w .serhdr
  | 0x52 => decodeZ w .parse
  | 0x53 => decodeZ w .deser
  | 0x60 => decodeI8 w .pack
  | 0x61 => decodeZ w .packend
  | 0x70 => decodeZ w .mklook
  | 0x71 => decodeZ w .decode
  | _ => .error .unknownOpcode

/-- The decoder (R86): total on every word; a word that is no command is refused with its class of rule R87. The buffer
commands are selected by `op6` (opcode bytes 0x10 to 0x27), the others by the opcode byte. -/
def decode (w : Word) : Except IllegalWord Instr :=
  match (op6 w).toNat with
  | 0x04 => decodeB1 w .bapp
  | 0x05 => decodeB8 w .bappb
  | 0x06 => decodeB0 w .btrim
  | 0x07 => decodeB0 w .blen
  | 0x08 => decodeBP w .bget
  | 0x09 => decodeBP w .brdb
  | _ => decodeByOpcode w

/-- The decoder's answer for a row of spec/opcode_table.json: a command is ONE word of 32 bits passed by value (R80, R71),
so the table's numbering of bits is the word's own. -/
def decodeTableWord (nbits w : Nat) : Option Instr :=
  match decode (BitVec.ofNat 32 (w % 2 ^ nbits)) with
  | .ok i => some i
  | .error _ => none

/-! ### The encoder (R90: "take the row's match, put buf at bits 25:24 and the value operand in the low bits") -/

/-- The selector of a buffer (R83, R90). -/
def Buf.selector : Buf → BitVec 2
  | .hdr => 0
  | .pay => 1
  | .out => 2

/-- Format Z (R81). -/
def encodeZ (op : Byte) : Word := op ++ (0 : BitVec 24)

/-- Format I8 (R82). -/
def encodeI8 (op imm : Byte) : Word := op ++ ((0 : BitVec 16) ++ imm)

/-- Format IP (R84). -/
def encodeIP (op idx pos : Byte) : Word := op ++ ((0 : BitVec 8) ++ (idx ++ pos))

/-- Format B (R83), with the low 24 bits of the sub-format. -/
def encodeB (op6 : BitVec 6) (buf : Buf) (low : BitVec 24) : Word := op6 ++ (buf.selector ++ low)

/-- The word of a command. On an ill-formed term (a writing command that names OUT) it is the illegal word of R87 (c). -/
def encode : Instr → Word
  | .init => encodeZ 0x01
  | .abort => encodeZ 0x02
  | .finish => encodeZ 0x03
  | .retire => encodeZ 0x04
  | .rdphase => encodeZ 0x05
  | .rderr => encodeZ 0x06
  | .bapp buf bit => encodeB 0x04 buf ((0 : BitVec 23) ++ BitVec.ofBool bit)
  | .bappb buf byte => encodeB 0x05 buf ((0 : BitVec 16) ++ byte)
  | .btrim buf => encodeB 0x06 buf 0
  | .blen buf => encodeB 0x07 buf 0
  | .bget buf pos => encodeB 0x08 buf pos
  | .brdb buf idx => encodeB 0x09 buf idx
  | .relenc => encodeZ 0x28
  | .reldec => encodeZ 0x29
  | .count b => encodeI8 0x30 b
  | .rdft b => encodeI8 0x31 b
  | .mkalpha => encodeZ 0x32
  | .nsym => encodeZ 0x33
  | .rdsym i => encodeI8 0x34 i
  | .rdfreq i => encodeI8 0x35 i
  | .cget i pos => encodeIP 0x36 i pos
  | .mktree => encodeZ 0x40
  | .assign => encodeZ 0x41
  | .canon => encodeZ 0x50
  | .serhdr => encodeZ 0x51
  | .parse => encodeZ 0x52
  | .deser => encodeZ 0x53
  | .pack b => encodeI8 0x60 b
  | .packend => encodeZ 0x61
  | .mklook => encodeZ 0x70
  | .decode => encodeZ 0x71

/-! ### The opcode table of rule R85, as match and mask -/

/-- One row of rule R85: "a word w is the command exactly when w & mask == match". -/
structure Row where
  mnemonic : String
  pattern : Word
  mask : Word
  deriving DecidableEq, Repr

/-- `w & mask == match` (R85, R86). -/
def Row.accepts (r : Row) (w : Word) : Bool := w &&& r.mask == r.pattern

/-- The row of rule R85 that stands for a command. -/
def Instr.row : Instr → Row
  | .init => ⟨"INIT", 0x01000000, 0xFFFFFFFF⟩
  | .abort => ⟨"ABORT", 0x02000000, 0xFFFFFFFF⟩
  | .finish => ⟨"FINISH", 0x03000000, 0xFFFFFFFF⟩
  | .retire => ⟨"RETIRE", 0x04000000, 0xFFFFFFFF⟩
  | .rdphase => ⟨"RDPHASE", 0x05000000, 0xFFFFFFFF⟩
  | .rderr => ⟨"RDERR", 0x06000000, 0xFFFFFFFF⟩
  | .bapp _ _ => ⟨"BAPP", 0x10000000, 0xFCFFFFFE⟩
  | .bappb _ _ => ⟨"BAPPB", 0x14000000, 0xFCFFFF00⟩
  | .btrim _ => ⟨"BTRIM", 0x18000000, 0xFCFFFFFF⟩
  | .blen _ => ⟨"BLEN", 0x1C000000, 0xFCFFFFFF⟩
  | .bget _ _ => ⟨"BGET", 0x20000000, 0xFC000000⟩
  | .brdb _ _ => ⟨"BRDB", 0x24000000, 0xFC000000⟩
  | .relenc => ⟨"RELENC", 0x28000000, 0xFFFFFFFF⟩
  | .reldec => ⟨"RELDEC", 0x29000000, 0xFFFFFFFF⟩
  | .count _ => ⟨"COUNT", 0x30000000, 0xFFFFFF00⟩
  | .rdft _ => ⟨"RDFT", 0x31000000, 0xFFFFFF00⟩
  | .mkalpha => ⟨"MKALPHA", 0x32000000, 0xFFFFFFFF⟩
  | .nsym => ⟨"NSYM", 0x33000000, 0xFFFFFFFF⟩
  | .rdsym _ => ⟨"RDSYM", 0x34000000, 0xFFFFFF00⟩
  | .rdfreq _ => ⟨"RDFREQ", 0x35000000, 0xFFFFFF00⟩
  | .cget _ _ => ⟨"CGET", 0x36000000, 0xFFFF0000⟩
  | .mktree => ⟨"MKTREE", 0x40000000, 0xFFFFFFFF⟩
  | .assign => ⟨"ASSIGN", 0x41000000, 0xFFFFFFFF⟩
  | .canon => ⟨"CANON", 0x50000000, 0xFFFFFFFF⟩
  | .serhdr => ⟨"SERHDR", 0x51000000, 0xFFFFFFFF⟩
  | .parse => ⟨"PARSE", 0x52000000, 0xFFFFFFFF⟩
  | .deser => ⟨"DESER", 0x53000000, 0xFFFFFFFF⟩
  | .pack _ => ⟨"PACK", 0x60000000, 0xFFFFFF00⟩
  | .packend => ⟨"PACKEND", 0x61000000, 0xFFFFFFFF⟩
  | .mklook => ⟨"MKLOOK", 0x70000000, 0xFFFFFFFF⟩
  | .decode => ⟨"DECODE", 0x71000000, 0xFFFFFFFF⟩

/-- One command of each row, with all operand bits 0. -/
def oneOfEachRow : List Instr :=
  [.init, .abort, .finish, .retire, .rdphase, .rderr, .bapp .hdr false, .bappb .hdr 0, .btrim .hdr, .blen .hdr]
    ++ [.bget .hdr 0, .brdb .hdr 0, .relenc, .reldec, .count 0, .rdft 0, .mkalpha, .nsym, .rdsym 0, .rdfreq 0]
    ++ [.cget 0 0, .mktree, .assign, .canon, .serhdr, .parse, .deser, .pack 0, .packend, .mklook, .decode]

/-- The table of rule R85. -/
def opcodeTable : List Row := oneOfEachRow.map Instr.row

end Sys2Proof
end

