-- ==== Sys2Proof/Config.lean ====
section
/-! DEFINITION. The implementation parameters of 00_scope.md rule R7: the four that the spec leaves OPEN, and the fixed
capacities. The block leaves no value free (93_implementation_defined.md section 2), so there is no opaque constant. -/

namespace Sys2Proof

/-- The parameters rule R7 marks OPEN: "A model takes the ones marked OPEN as arguments". -/
structure Config where
  /-- FREQ_W: bits of a frequency counter (92_eei_decisions.md D8). -/
  freqW : Nat
  /-- PAY_CAP_BITS: capacity of the payload buffer in bits (D10). -/
  payCapBits : Nat
  /-- OUT_CAP_BYTES: capacity of the decoded-output buffer in bytes (D10). -/
  outCapBytes : Nat
  /-- DEC_MAXBITS: largest maxBits the decoder's lookup structure can hold (D27). -/
  decMaxbits : Nat
  deriving DecidableEq, Repr

namespace Config

/-- The default values of rule R7's table. -/
def default : Config :=
  { freqW := 32, payCapBits := 524288, outCapBytes := 65536, decMaxbits := 255 }

/-- The ranges rule R7 gives the open parameters. -/
def wf (c : Config) : Bool :=
  decide (1 ≤ c.freqW)
    && decide (8 ≤ c.payCapBits) && decide (c.payCapBits ≤ 2 ^ 24 - 1)
    && decide (1 ≤ c.outCapBytes) && decide (c.outCapBytes ≤ 2 ^ 21 - 1)
    && decide (c.decMaxbits ≤ 255)

/-- NODE_W = FREQ_W + 8: bits of a tree node's frequency (rule R7, D9). -/
def nodeW (c : Config) : Nat := c.freqW + 8

/-- HDR_CAP_BITS, fixed (rule R7, D10). -/
def hdrCapBits : Nat := 4096

/-- MAXLEN: the longest code in bits, also the bound of the traversal buffer (rules R7, R29). -/
def maxLen : Nat := 255

/-- ALPHA_CAP: entries of the alphabet table (rule R7). -/
def alphaCap : Nat := 256

/-- HEAP_CAP: slots of the priority queue (rule R7). -/
def heapCap : Nat := 256

/-- NODE_CAP: tree nodes (rule R7). -/
def nodeCap : Nat := 511

/-- The "ISA string" of rule R1. No command reports it (91_not_in_source.md N1). -/
def isaString : String := "HUFFCORE-v7-cmd32"

end Config

end Sys2Proof
end

