-- ==== Sys2Proof/Machine/State.lean ====
section
/-! DEFINITION. The state of HUFFCORE as plain data: the block (10_state.md rule R20), the parameters it is built with
(00_scope.md rule R7), and the command port as the host sees it (rules R15, R16, R251); the reasons a step can stop; the
state after reset (70_reset_and_hazards.md rule R250). -/

namespace Sys2Proof.Machine

/-- The pipeline phases of rule R21. Codes 12 to 15 are never held, so the type has no more. -/
inductive Phase where
  | idle
  | alphabetBuilt
  | treeBuilt
  | codesAssigned
  | canonicalized
  | headerSerialized
  | payloadSerialized
  | done
  | headerParsed
  | alphabetReconstructed
  | lookupBuilt
  | payloadDecoded
  deriving DecidableEq, Repr

/-- The status codes of 60_exceptions.md rule R220: OK and the ten faults. Codes 11 to 255 are never produced. -/
inductive Status where
  | ok
  | allocationFailure
  | treeConstructionFailed
  | alphabetAlreadyPopulated
  | encodedMessageAlreadyPopulated
  | decodedMessageAlreadyPopulated
  | corruptHeader
  | protocolMisuse
  | outOfRange
  | unrepresentable
  | illegalCommand
  deriving DecidableEq, Repr

/-- An entry of the Alphabet (rule R24): the document's SymbolEntry. The frequency is a natural, below 2^FREQ_W in every
reachable state (rule R18 lets a model hold it so). -/
structure Entry where
  sym  : Byte
  freq : Nat
  code : Bits
  deriving DecidableEq, Repr

/-- A node of the tree arena (rule R26). A leaf holds an index into ALPHA, an internal node two node numbers. -/
inductive Node where
  | leaf (freq ent : Nat)
  | internal (freq left right : Nat)
  deriving DecidableEq, Repr

/-- The whole state of the block (rule R20). ALPHA_N, NODE_N and HEAP_N are the lengths of their tables: "A model should
represent each table as a list of exactly the count's length" (rule R40). -/
structure Block where
  /-- PHASE (R21). -/
  phase : Phase
  /-- ERR: the first fault since reset or INIT (R22). -/
  err : Status
  /-- FT: the 256 counters of the FrequencyTable (R23). -/
  ft : Vector Nat 256
  /-- ALPHA, and with its length ALPHA_N (R24). -/
  alpha : List Entry
  /-- NODE, and with its length NODE_N (R26). -/
  nodes : List Node
  /-- HEAP, and with its length HEAP_N (R27). -/
  heap : List Nat
  /-- ROOT: the root of the finished tree, or none (R28). -/
  root : Option Nat
  /-- TRAV: the traversal buffer of code assignment (R29). -/
  trav : Bits
  /-- LUT: the encoder's lookup array, each slot none or an index into ALPHA (R30). -/
  lut : Vector (Option Nat) 256
  /-- HDR: the header of the EncodedMessage (R31). -/
  hdr : Bits
  /-- PAY: the payload of the EncodedMessage (R32). -/
  pay : Bits
  /-- OUT: the decoded message (R33). -/
  out : Bits
  /-- HDR_MAXBITS: maxBits of the parsed header (R34). -/
  hdrMaxbits : Nat
  /-- HDR_N: symbol count of the parsed header (R34). -/
  hdrN : Nat
  /-- DT: the partial map from positions to symbols (R35), in one canonical form: positions strictly rising. -/
  dt : List (Nat × Byte)
  deriving DecidableEq, Repr

/-- The response to a command (30_encoding.md rule R89): 8-bit status and 32-bit data. -/
structure Response where
  status : Status
  data   : BitVec 32
  deriving DecidableEq, Repr

/-- What the host does at the port: give a command word (R13, R80), or assert and release `rst_n` (R251). A reset "during a
command abandons the command": `inFlight` is then the word the block had taken and not yet answered. -/
inductive HostAct where
  | command (w : Word)
  | reset (inFlight : Option Word)
  deriving DecidableEq, Repr

/-- The machine: the block, its parameters, what the host has yet to do at the port (oldest first) and the responses given
so far (oldest first). The block cannot read or write the last two. -/
structure State where
  cfg     : Config
  blk     : Block
  pending : List HostAct
  rsps    : List Response
  deriving DecidableEq, Repr

/-- The cases in which a rule's pseudocode has no value: a primitive of 00_scope.md rule R10 outside its domain, or a table
index at or beyond its count (10_state.md rule R40: "no algorithm rule indexes them"). No state that meets
`Sys2Proof.Safety.Inv` reaches one. All are safe: the model stops where the spec says nothing. -/
inductive Fault where
  /-- ASSIGN in phase TreeBuilt with ROOT none (raised by `execAssign`). Safe. -/
  | noRoot
  /-- The walk of ASSIGN meets a node number at or beyond NODE_N (raised by `execAssign`). Safe. -/
  | noSuchNode
  /-- The walk of ASSIGN is deeper than NODE_N, so the arena is no tree (raised by `execAssign`). Safe. -/
  | notATree
  /-- An ALPHA index at or beyond ALPHA_N, in a leaf (`execAssign`) or in LUT (`execPack`). Safe. -/
  | noSuchEntry
  /-- `BitsOf(v, L)` of a `v` that does not fit (raised by `execCanon` and `execSerhdr`). Safe. -/
  | bitsOfUndefined
  /-- `ByteView(HDR, j)` of a `j` at or beyond NBytes(HDR) (raised by `execDeser`). Safe. -/
  | noSuchByte
  deriving DecidableEq, Repr

/-- An instruction without a meaning. No arm of `exec` answers it: every command has its meaning. -/
inductive Refusal where
  /-- Would be raised by an arm of `exec` for a command not modelled yet. Safe. -/
  | notModelled (mnemonic : String)
  deriving DecidableEq, Repr

/-- The block after reset (70_reset_and_hazards.md rule R250). -/
def Block.reset : Block :=
  { phase := .idle
    err := .ok
    ft := Vector.replicate 256 0
    alpha := []
    nodes := []
    heap := []
    root := none
    trav := []
    lut := Vector.replicate 256 none
    hdr := []
    pay := []
    out := []
    hdrMaxbits := 0
    hdrN := 0
    dt := [] }

/-- The machine right after reset: the block as rule R250 says, the default parameters, nothing asked yet and nothing
answered ("the block executes nothing until the host issues a command"). -/
def State.reset : State :=
  { cfg := Config.default, blk := Block.reset, pending := [], rsps := [] }

end Sys2Proof.Machine
end

