-- ==== Sys2Proof/Machine/Flags.lean ====
section
/-! DEFINITION. The status codes and the block's only flag, the sticky register ERR (10_state.md rule R22: "It is the block's
only flag"). -/

namespace Sys2Proof.Machine

/-- The 8-bit number of a status (60_exceptions.md rule R220). -/
def Status.code : Status → Byte
  | .ok => 0
  | .allocationFailure => 1
  | .treeConstructionFailed => 2
  | .alphabetAlreadyPopulated => 3
  | .encodedMessageAlreadyPopulated => 4
  | .decodedMessageAlreadyPopulated => 5
  | .corruptHeader => 6
  | .protocolMisuse => 7
  | .outOfRange => 8
  | .unrepresentable => 9
  | .illegalCommand => 10

/-- The 4-bit code of a phase (10_state.md rule R21). -/
def Phase.code : Phase → BitVec 4
  | .idle => 0
  | .alphabetBuilt => 1
  | .treeBuilt => 2
  | .codesAssigned => 3
  | .canonicalized => 4
  | .headerSerialized => 5
  | .payloadSerialized => 6
  | .done => 7
  | .headerParsed => 8
  | .alphabetReconstructed => 9
  | .lookupBuilt => 10
  | .payloadDecoded => 11

/-- The ERR latch (rule R225): `if ERR == 0: ERR <- F`. -/
def Block.latch (b : Block) (f : Status) : Block :=
  { b with err := if b.err = .ok then f else b.err }

end Sys2Proof.Machine
end

