-- ==== Sys2Proof/Machine/Operands.lean ====
section
/-! DEFINITION. What the operand fields of a command reach (30_encoding.md rules R83, R92; 20_memory.md rule R65): a buffer by
its selector, a counter or lookup slot by a byte value, an alphabet entry by an index. -/

namespace Sys2Proof.Machine

/-- The buffer a selector names (R83). -/
def Block.buffer (b : Block) : Buf → Bits
  | .hdr => b.hdr
  | .pay => b.pay
  | .out => b.out

/-- The block with the named buffer replaced. -/
def Block.setBuffer (b : Block) (buf : Buf) (m : Bits) : Block :=
  match buf with
  | .hdr => { b with hdr := m }
  | .pay => { b with pay := m }
  | .out => { b with out := m }

/-- CAP of a buffer in bits (40_bitbuffer.md rule R110). -/
def capacity (c : Config) : Buf → Nat
  | .hdr => Config.hdrCapBits
  | .pay => c.payCapBits
  | .out => 8 * c.outCapBytes

/-- `FT[b]` (R92: "A byte value imm8 addresses FT and LUT directly"). -/
def Block.counter (b : Block) (v : Byte) : Nat := b.ft[v.toNat]'v.isLt

/-- `FT[b] <- n`. -/
def Block.setCounter (b : Block) (v : Byte) (n : Nat) : Block :=
  { b with ft := b.ft.set v.toNat n v.isLt }

/-- `LUT[b]`. -/
def Block.lookup (b : Block) (v : Byte) : Option Nat := b.lut[v.toNat]'v.isLt

/-- `ALPHA[i]`, which exists exactly for `i < ALPHA_N`; the index is compared as a natural (R92). -/
def Block.entry (b : Block) (i : Nat) : Option Entry := b.alpha[i]?

end Sys2Proof.Machine
end

