-- ==== Sys2Proof/Machine/Ops.lean ====
section
/-! DEFINITION. The operations the command rules share: the BitMessage primitives of 00_scope.md rule R10, how a command ends
(a response, a fault, or no value), the fault mechanism of 60_exceptions.md, ClearTransient, and taking the next word at the
port. -/

namespace Sys2Proof.Machine

/-! ### BitMessage primitives (rule R10)

`BitAppend(m, b)` is `m ++ [b]`, `BitGet(m, i)` is `m[i]?`, `BitRemoveLast(m)` is `m.dropLast`, `BitCopy(m)` is `m` itself
(40_bitbuffer.md rule R109). -/

/-- `BitsOf(v, L)`: `v` as an `L`-digit binary numeral, most significant digit first (92_eei_decisions.md D28). The rule
defines it for `v < 2^L`; see `checkedBitsOf`. -/
def bitsOf (v L : Nat) : Bits := (List.range L).map (fun j => v.testBit (L - 1 - j))

/-- `AppendByte(m, v)`: `m` followed by `BitsOf(v, 8)`. -/
def appendByte (m : Bits) (v : Byte) : Bits := m ++ bitsOf v.toNat 8

/-- The bits of a list of bytes, appended in order from the empty BitMessage. -/
def bitsOfBytes (vs : List Byte) : Bits := vs.foldl appendByte []

/-- `NBytes(m) = ceil(len(m) / 8)` (90_conflicts.md C2). -/
def nBytes (m : Bits) : Nat := (m.length + 7) / 8

/-- `ByteView(m, j)`: the byte whose bit `7 - t` is `m[8j + t]`, and 0 at or beyond the bit count (20_memory.md rules R60,
R61). -/
def byteView (m : Bits) (j : Nat) : Byte :=
  BitVec.ofNat 8 ((List.range 8).foldl (fun acc t => 2 * acc + (m.getD (8 * j + t) false).toNat) 0)

/-- `ToBinaryString(m)` (rules R9, R109). -/
def toBinaryString (m : Bits) : String := String.ofList (m.map (fun b => if b then '1' else '0'))

/-! ### How a command ends (rule R11) -/

/-- A command that does not end with status OK: `raise F`, or the pseudocode has no value. -/
inductive Stop where
  | raise (f : Status)
  | stuck (r : Fault)
  deriving DecidableEq, Repr

/-- What a command's rule computes: the response data and the new block, or why it stops. -/
abbrev Result := Except Stop (Nat × Block)

/-- The command ends with status OK: `return data`, or data 0 where the rule returns nothing (R11). -/
def finishOk (data : Nat) (b : Block) : Result := .ok (data, b)

/-- `raise F` (R11). -/
def raise {α : Type} (f : Status) : Except Stop α := .error (.raise f)

/-- The pseudocode has no value here. -/
def stuck {α : Type} (r : Fault) : Except Stop α := .error (.stuck r)

/-- `BitsOf(v, L)` where the rule defines it. -/
def checkedBitsOf (v L : Nat) : Except Stop Bits :=
  if v < 2 ^ L then .ok (bitsOf v L) else stuck .bitsOfUndefined

/-- `ByteView(m, j)` where the rule defines it. -/
def checkedByte (m : Bits) (j : Nat) : Except Stop Byte :=
  if j < nBytes m then .ok (byteView m j) else stuck .noSuchByte

/-- The response to a command, with the block it leaves (30_encoding.md rule R89: "data is what the command's rule returns,
zero extended"). Data is taken modulo 2^32 (41_frequency_alphabet.md rule R121). -/
def State.respond (s : State) (st : Status) (data : Nat) (b : Block) : State :=
  { s with blk := b, rsps := s.rsps ++ [⟨st, BitVec.ofNat 32 data⟩] }

/-- Taking a fault (60_exceptions.md rules R224, R225): the block is what it was before the command, but for the ERR latch,
and the response has the fault's code and data 0. There is no trap entry and nothing to return from (R229). -/
def State.takeFault (s : State) (f : Status) : State := s.respond f 0 (s.blk.latch f)

/-- The end of a command (R15): a response in either case; no outcome where the rule gives none. -/
def State.conclude (s : State) : Result → Host.Outcome State Fault Refusal
  | .ok r => .next (s.respond .ok r.1 r.2)
  | .error (.raise f) => .next (s.takeFault f)
  | .error (.stuck r) => .fault r

/-! ### Shared writes -/

/-- ClearTransient (46_system.md rule R207). It does not touch HDR, PAY, OUT, ERR or PHASE. -/
def Block.clearTransient (b : Block) : Block :=
  { b with
    ft := Vector.replicate 256 0
    alpha := []
    nodes := []
    heap := []
    root := none
    trav := []
    lut := Vector.replicate 256 none
    dt := []
    hdrMaxbits := 0
    hdrN := 0 }

/-! ### The port -/

/-- The host's next act and the machine with that act taken, if the host has asked for anything. -/
def State.takeAct (s : State) : Option (HostAct × State) :=
  match s.pending with
  | [] => none
  | a :: rest => some (a, { s with pending := rest })

/-- A command word that decodes to no command (30_encoding.md rule R86): the fault IllegalCommand. -/
def State.illegalWord (s : State) : State := s.takeFault .illegalCommand

/-- The reset input (70_reset_and_hazards.md rule R251): the block is in the state of rule R250; a command in flight gets no
response. The parameters are not state (00_scope.md rule R14). -/
def State.hardReset (s : State) : State := { s with blk := Block.reset }

/-- The machine with a word at the port, to be taken by the very next step. -/
def State.offer (s : State) (w : Word) : State := { s with pending := .command w :: s.pending }

end Sys2Proof.Machine
end

