-- ==== Sys2Proof/Machine/Buffer.lean ====
section
/-! DEFINITION. The bit buffer commands (40_bitbuffer.md): BAPP, BAPPB, BTRIM, BLEN, BGET, BRDB, RELENC, RELDEC. A writing
command that names OUT is no command word (30_encoding.md rule R87 (c)); given as a term it ends with that rule's fault,
IllegalCommand, before anything else (60_exceptions.md rule R227). -/

namespace Sys2Proof.Machine

/-- BAPP buf, bit (R101). -/
def execBapp (buf : Buf) (bit : Bool) (s : State) : Host.Outcome State Fault Refusal :=
  s.conclude <|
    if buf.hostWritable = false then raise .illegalCommand
    else if s.blk.phase ≠ .idle then raise .protocolMisuse
    else if (s.blk.buffer buf).length + 1 > capacity s.cfg buf then raise .allocationFailure
    else finishOk 0 (s.blk.setBuffer buf (s.blk.buffer buf ++ [bit]))

/-- BAPPB buf, byte (R102). -/
def execBappb (buf : Buf) (byte : Byte) (s : State) : Host.Outcome State Fault Refusal :=
  s.conclude <|
    if buf.hostWritable = false then raise .illegalCommand
    else if s.blk.phase ≠ .idle then raise .protocolMisuse
    else if (s.blk.buffer buf).length + 8 > capacity s.cfg buf then raise .allocationFailure
    else finishOk 0 (s.blk.setBuffer buf (appendByte (s.blk.buffer buf) byte))

/-- BTRIM buf (R103). -/
def execBtrim (buf : Buf) (s : State) : Host.Outcome State Fault Refusal :=
  s.conclude <|
    if buf.hostWritable = false then raise .illegalCommand
    else if s.blk.phase ≠ .idle then raise .protocolMisuse
    else if (s.blk.buffer buf).length = 0 then raise .outOfRange
    else finishOk 0 (s.blk.setBuffer buf (s.blk.buffer buf).dropLast)

/-- BLEN buf (R104). -/
def execBlen (buf : Buf) (s : State) : Host.Outcome State Fault Refusal :=
  s.conclude <| finishOk (s.blk.buffer buf).length s.blk

/-- BGET buf, pos (R105). -/
def execBget (buf : Buf) (pos : BitVec 24) (s : State) : Host.Outcome State Fault Refusal :=
  s.conclude <|
    match (s.blk.buffer buf)[pos.toNat]? with
    | none => raise .outOfRange
    | some bit => finishOk bit.toNat s.blk

/-- BRDB buf, idx (R106). -/
def execBrdb (buf : Buf) (idx : BitVec 24) (s : State) : Host.Outcome State Fault Refusal :=
  s.conclude <|
    if idx.toNat ≥ nBytes (s.blk.buffer buf) then raise .outOfRange
    else finishOk (byteView (s.blk.buffer buf) idx.toNat).toNat s.blk

/-- RELENC (R107). -/
def execRelenc (s : State) : Host.Outcome State Fault Refusal :=
  s.conclude <|
    if s.blk.phase ≠ .idle ∧ s.blk.phase ≠ .done then raise .protocolMisuse
    else finishOk 0 { s.blk with hdr := [], pay := [] }

/-- RELDEC (R108). -/
def execReldec (s : State) : Host.Outcome State Fault Refusal :=
  s.conclude <|
    if s.blk.phase ≠ .idle ∧ s.blk.phase ≠ .done then raise .protocolMisuse
    else finishOk 0 { s.blk with out := [] }

end Sys2Proof.Machine
end

