-- ==== Sys2Proof/Machine/Canonical.lean ====
section
/-! DEFINITION. The canonical transformer and the header (43_canonical.md): CANON, SERHDR, PARSE, DESER. -/

namespace Sys2Proof.Machine

/-! ### Reordering and canonical numbering -/

/-- Order (b) (10_state.md rule R25): ascending by the pair (len(code), sym). -/
abbrev orderB (x y : Entry) : Prop :=
  x.code.length < y.code.length ∨ (x.code.length = y.code.length ∧ x.sym.toNat ≤ y.sym.toNat)

/-- CanonAssign (R161) from counter `c` and running length `len`: shift by the length step, emit, increment. -/
def canonAssign : Nat → Nat → List Entry → Except Stop (List Entry)
  | _, _, [] => .ok []
  | c, len, e :: es =>
    let c' := if e.code.length > len then c <<< (e.code.length - len) else c
    let len' := if e.code.length > len then e.code.length else len
    match checkedBitsOf c' len' with
    | .error x => .error x
    | .ok code =>
      match canonAssign (c' + 1) len' es with
      | .error x => .error x
      | .ok rest => .ok ({ e with code := code } :: rest)

/-- CanonAssign of a list in order (b) (R161): `c` starts at 0 and the length at the shortest code's. -/
def canonical (es : List Entry) : Except Stop (List Entry) :=
  canonAssign 0 ((es.headD ⟨0, 0, []⟩).code.length) es

/-- CANON (R162). -/
def execCanon (s : State) : Host.Outcome State Fault Refusal :=
  s.conclude <|
    if s.blk.phase ≠ .codesAssigned then raise .protocolMisuse
    else
      match canonical (s.blk.alpha.insertionSort orderB) with
      | .error e => .error e
      | .ok es => finishOk 0 { s.blk with alpha := es, phase := .canonicalized }

/-! ### Header serialisation -/

/-- `cnt[k]`: the number of entries whose code has length `k` (R164). -/
def countLen (es : List Entry) (k : Nat) : Nat := es.countP (fun e => e.code.length == k)

/-- `maxBits`: the code length of the last entry (R164). -/
def maxBitsOf (es : List Entry) : Nat :=
  match es.getLast? with
  | none => 0
  | some e => e.code.length

/-- The header bytes (R164, 20_memory.md rule R62): maxBits, the count bytes, the symbols in ALPHA's order. -/
def headerBytes (es : List Entry) : List Byte :=
  BitVec.ofNat 8 (maxBitsOf es)
    :: ((List.range (maxBitsOf es)).map (fun k => BitVec.ofNat 8 (countLen es (k + 1))) ++ es.map Entry.sym)

/-- LUT as SERHDR writes it (R164): all none, then `LUT[ALPHA[i].sym] <- i` for each `i` in turn. -/
def lutOf (es : List Entry) : Vector (Option Nat) 256 :=
  es.zipIdx.foldl (fun lut p => lut.set p.1.sym.toNat (some p.2) p.1.sym.isLt) (Vector.replicate 256 none)

/-- SERHDR (R164). The container guard is tested before the phase (60_exceptions.md rule R227). `AppendByte` takes
`BitsOf(maxBits, 8)`, which has a value only for a maxBits that fits its byte. -/
def execSerhdr (s : State) : Host.Outcome State Fault Refusal :=
  s.conclude <|
    if s.blk.hdr.length ≠ 0 ∨ s.blk.pay.length ≠ 0 then raise .encodedMessageAlreadyPopulated
    else if s.blk.phase ≠ .canonicalized then raise .protocolMisuse
    else if s.blk.alpha.length = 0 then raise .protocolMisuse
    else if ∃ k ∈ List.range (maxBitsOf s.blk.alpha), countLen s.blk.alpha (k + 1) > 255 then raise .unrepresentable
    else if maxBitsOf s.blk.alpha > 255 then stuck .bitsOfUndefined
    else finishOk 0
      { s.blk with
        hdr := bitsOfBytes (headerBytes s.blk.alpha)
        lut := lutOf s.blk.alpha
        phase := .headerSerialized }

/-! ### Header parsing -/

/-- `hb(1) + ... + hb(mb)`: the number of symbols the count bytes declare (R166). -/
def declaredSymbols (hdr : Bits) (mb : Nat) : Nat :=
  ((List.range mb).map (fun k => (byteView hdr (k + 1)).toNat)).sum

/-- The sizes PARSE takes from a header and its payload, or CorruptHeader (R166). -/
def parseSizes (hdr pay : Bits) : Except Stop (Nat × Nat) :=
  if hdr.length = 0 then
    if pay.length ≠ 0 then raise .corruptHeader else .ok (0, 0)
  else if hdr.length % 8 ≠ 0 then raise .corruptHeader
  else
    let lb := hdr.length / 8
    let mb := (byteView hdr 0).toNat
    if lb < 1 + mb then raise .corruptHeader
    else if lb ≠ 1 + mb + declaredSymbols hdr mb then raise .corruptHeader
    else .ok (mb, declaredSymbols hdr mb)

/-- PARSE (R166). -/
def execParse (s : State) : Host.Outcome State Fault Refusal :=
  s.conclude <|
    if s.blk.phase ≠ .idle then raise .protocolMisuse
    else
      match parseSizes s.blk.hdr s.blk.pay with
      | .error e => .error e
      | .ok sizes => finishOk 0
          { s.blk with hdrMaxbits := sizes.1, hdrN := sizes.2, phase := .headerParsed }

/-! ### Alphabet reconstruction -/

/-- The inner loop of DESER (R167) in bucket `k`, for the symbols still to come: `c >= 2^k` is CorruptHeader, otherwise the
next symbol gets `BitsOf(c, k)`; `c` and `p` go up by one. -/
def deserBucket (hdr : Bits) (k : Nat) : Nat → Nat → Nat → Except Stop (List Entry)
  | 0, _, _ => .ok []
  | j + 1, c, p =>
    if c ≥ 2 ^ k then raise .corruptHeader
    else
      match checkedByte hdr p with
      | .error e => .error e
      | .ok sym =>
        match deserBucket hdr k j (c + 1) (p + 1) with
        | .error e => .error e
        | .ok es => .ok ({ sym := sym, freq := 0, code := bitsOf c k } :: es)

/-- The outer loop of DESER (R167), for the buckets still to come, from bucket `k`: after each bucket `c` is shifted by one
bit. -/
def deserBuckets (hdr : Bits) : Nat → Nat → Nat → Nat → Except Stop (List Entry)
  | 0, _, _, _ => .ok []
  | m + 1, k, c, p =>
    match checkedByte hdr k with
    | .error e => .error e
    | .ok cnt =>
      match deserBucket hdr k cnt.toNat c p with
      | .error e => .error e
      | .ok es =>
        match deserBuckets hdr m (k + 1) ((c + cnt.toNat) <<< 1) (p + cnt.toNat) with
        | .error e => .error e
        | .ok rest => .ok (es ++ rest)

/-- DESER (R167). The container guard is tested before the phase. The entries keep file order (assumption log 17). -/
def execDeser (s : State) : Host.Outcome State Fault Refusal :=
  s.conclude <|
    if s.blk.alpha.length ≠ 0 then raise .alphabetAlreadyPopulated
    else if s.blk.phase ≠ .headerParsed then raise .protocolMisuse
    else if s.blk.hdrN > Config.alphaCap then raise .allocationFailure
    else
      match deserBuckets s.blk.hdr s.blk.hdrMaxbits 1 0 (1 + s.blk.hdrMaxbits) with
      | .error e => .error e
      | .ok es => finishOk 0 { s.blk with alpha := es, phase := .alphabetReconstructed }

end Sys2Proof.Machine
end

