-- ==== Sys2Proof/Machine/Decoder.lean ====
section
/-! DEFINITION. The payload decoder (45_decoder.md): the lookup map DT, MKLOOK, DECODE. -/

namespace Sys2Proof.Machine

/-! ### DT, a partial map in canonical form (10_state.md rule R35) -/

/-- The canonical form of a map: positions strictly rising, so that equal maps are equal lists. -/
abbrev Dt.wf (dt : List (Nat × Byte)) : Prop := dt.Pairwise (fun x y => x.1 < y.1)

/-- The symbol at a position, or none for an "empty slot". -/
def Dt.get : List (Nat × Byte) → Nat → Option Byte
  | [], _ => none
  | (p, v) :: rest, pos => if pos = p then some v else Dt.get rest pos

/-- `DT[pos] <- v`. -/
def Dt.put : List (Nat × Byte) → Nat → Byte → List (Nat × Byte)
  | [], pos, v => [(pos, v)]
  | (p, u) :: rest, pos, v =>
    if pos < p then (pos, v) :: (p, u) :: rest
    else if pos = p then (pos, v) :: rest
    else (p, u) :: Dt.put rest pos v

/-- One step of the descent, `pos = 2*pos + 1 + bit` (R190, R191). -/
def descend (pos : Nat) (bit : Bool) : Nat := 2 * pos + 1 + bit.toNat

/-- The position of a code (R190): the descent from the root, position 0, along its bits. -/
def codePosition (code : Bits) : Nat := code.foldl descend 0

/-- DT as MKLOOK writes it (R190): from the empty map, one entry after the other. -/
def dtOf (es : List Entry) : List (Nat × Byte) :=
  es.foldl (fun dt e => Dt.put dt (codePosition e.code) e.sym) []

/-- MKLOOK (R190). -/
def execMklook (s : State) : Host.Outcome State Fault Refusal :=
  s.conclude <|
    if s.blk.phase ≠ .alphabetReconstructed then raise .protocolMisuse
    else if s.blk.hdrMaxbits > s.cfg.decMaxbits then raise .allocationFailure
    else finishOk 0 { s.blk with dt := dtOf s.blk.alpha, phase := .lookupBuilt }

/-! ### DECODE -/

/-- The walk of DECODE (R191) over the payload bits still to come, from position `pos`, with the bytes decoded so far:
`size` is the array size S and `cap` is OUT_CAP_BYTES. -/
def decodeWalk (dt : List (Nat × Byte)) (size cap : Nat) : Bits → Nat → List Byte → Except Stop (List Byte)
  | [], pos, out => if pos ≠ 0 then raise .corruptHeader else .ok out
  | bit :: rest, pos, out =>
    let pos' := descend pos bit
    if pos' ≥ size then raise .corruptHeader
    else
      match Dt.get dt pos' with
      | none => decodeWalk dt size cap rest pos' out
      | some v =>
        if out.length = cap then raise .allocationFailure
        else decodeWalk dt size cap rest 0 (out ++ [v])

/-- DECODE (R191). The container guard is tested before the phase. -/
def execDecode (s : State) : Host.Outcome State Fault Refusal :=
  s.conclude <|
    if s.blk.out.length ≠ 0 then raise .decodedMessageAlreadyPopulated
    else if s.blk.phase ≠ .lookupBuilt then raise .protocolMisuse
    else
      match decodeWalk s.blk.dt (2 ^ (s.blk.hdrMaxbits + 1) - 1) s.cfg.outCapBytes s.blk.pay 0 [] with
      | .error e => .error e
      | .ok out => finishOk 0 { s.blk with out := bitsOfBytes out, phase := .payloadDecoded }

end Sys2Proof.Machine
end

