-- ==== Sys2Proof/Machine/Frequency.lean ====
section
/-! DEFINITION. The frequency table and alphabet commands (41_frequency_alphabet.md): COUNT, RDFT, MKALPHA, NSYM, RDSYM, RDFREQ,
CGET. -/

namespace Sys2Proof.Machine

/-- Order (a) (10_state.md rule R25): ascending by the pair (freq, sym). -/
abbrev orderA (x y : Entry) : Prop :=
  x.freq < y.freq ∨ (x.freq = y.freq ∧ x.sym.toNat ≤ y.sym.toNat)

/-- The entries MKALPHA makes, before the sort (R122): one for each byte value counted, in index order, its code empty. -/
def countedEntries (ft : Vector Nat 256) : List Entry :=
  (ft.toList.zipIdx.filter (fun p => p.1 > 0)).map (fun p => { sym := BitVec.ofNat 8 p.2, freq := p.1, code := [] })

/-- COUNT b (R120). -/
def execCount (b : Byte) (s : State) : Host.Outcome State Fault Refusal :=
  s.conclude <|
    if s.blk.phase ≠ .idle then raise .protocolMisuse
    else if s.blk.counter b = 2 ^ s.cfg.freqW - 1 then raise .allocationFailure
    else finishOk 0 (s.blk.setCounter b (s.blk.counter b + 1))

/-- RDFT b (R121). The response takes the value modulo 2^32. -/
def execRdft (b : Byte) (s : State) : Host.Outcome State Fault Refusal :=
  s.conclude <| finishOk (s.blk.counter b) s.blk

/-- MKALPHA (R122). The container guard is tested before the phase (60_exceptions.md rule R227). -/
def execMkalpha (s : State) : Host.Outcome State Fault Refusal :=
  s.conclude <|
    if s.blk.alpha.length ≠ 0 then raise .alphabetAlreadyPopulated
    else if s.blk.phase ≠ .idle then raise .protocolMisuse
    else finishOk 0
      { s.blk with
        alpha := (countedEntries s.blk.ft).insertionSort orderA
        phase := .alphabetBuilt }

/-- NSYM (R123). -/
def execNsym (s : State) : Host.Outcome State Fault Refusal :=
  s.conclude <| finishOk s.blk.alpha.length s.blk

/-- RDSYM i (R124): data[7:0] the symbol, data[15:8] the code length. -/
def execRdsym (i : Byte) (s : State) : Host.Outcome State Fault Refusal :=
  s.conclude <|
    match s.blk.entry i.toNat with
    | none => raise .outOfRange
    | some e => finishOk (e.code.length <<< 8 ||| e.sym.toNat) s.blk

/-- RDFREQ i (R125). The response takes the value modulo 2^32. -/
def execRdfreq (i : Byte) (s : State) : Host.Outcome State Fault Refusal :=
  s.conclude <|
    match s.blk.entry i.toNat with
    | none => raise .outOfRange
    | some e => finishOk e.freq s.blk

/-- CGET i, pos (R126). -/
def execCget (i pos : Byte) (s : State) : Host.Outcome State Fault Refusal :=
  s.conclude <|
    match s.blk.entry i.toNat with
    | none => raise .outOfRange
    | some e =>
      match e.code[pos.toNat]? with
      | none => raise .outOfRange
      | some bit => finishOk bit.toNat s.blk

end Sys2Proof.Machine
end

