-- ==== Sys2Proof/Machine/Packer.lean ====
section
/-! DEFINITION. The bitstream packer (44_packer.md): PACK, PACKEND. -/

namespace Sys2Proof.Machine

/-- PACK b (R181): a code that does not fit whole is not appended at all. -/
def execPack (b : Byte) (s : State) : Host.Outcome State Fault Refusal :=
  s.conclude <|
    if s.blk.phase ≠ .headerSerialized then raise .protocolMisuse
    else
      match s.blk.lookup b with
      | none => raise .protocolMisuse
      | some i =>
        match s.blk.entry i with
        | none => stuck .noSuchEntry
        | some e =>
          if s.blk.pay.length + e.code.length > s.cfg.payCapBits then raise .allocationFailure
          else finishOk 0 { s.blk with pay := s.blk.pay ++ e.code }

/-- PACKEND (R182). -/
def execPackend (s : State) : Host.Outcome State Fault Refusal :=
  s.conclude <|
    if s.blk.phase ≠ .headerSerialized then raise .protocolMisuse
    else finishOk 0 { s.blk with phase := .payloadSerialized }

end Sys2Proof.Machine
end

