-- ==== Sys2Proof/Machine/System.lean ====
section
/-! DEFINITION. The system commands (46_system.md): INIT, ABORT, FINISH, RETIRE, RDPHASE, RDERR. -/

namespace Sys2Proof.Machine

/-- INIT (R201): the only command that clears ERR. -/
def execInit (s : State) : Host.Outcome State Fault Refusal :=
  s.conclude <| finishOk 0
    { s.blk.clearTransient with hdr := [], pay := [], out := [], err := .ok, phase := .idle }

/-- ABORT (R202). -/
def execAbort (s : State) : Host.Outcome State Fault Refusal :=
  s.conclude <| finishOk 0 { s.blk.clearTransient with phase := .idle }

/-- FINISH (R203): after a serialised or decoded payload, and for the zero-length message from AlphabetBuilt. -/
def execFinish (s : State) : Host.Outcome State Fault Refusal :=
  s.conclude <|
    if ¬ (s.blk.phase = .payloadSerialized
        ∨ s.blk.phase = .payloadDecoded
        ∨ (s.blk.phase = .alphabetBuilt ∧ s.blk.alpha.length = 0)) then raise .protocolMisuse
    else finishOk 0 { s.blk.clearTransient with phase := .done }

/-- RETIRE (R204). -/
def execRetire (s : State) : Host.Outcome State Fault Refusal :=
  s.conclude <|
    if s.blk.phase ≠ .done then raise .protocolMisuse
    else finishOk 0 { s.blk with phase := .idle }

/-- RDPHASE (R205). -/
def execRdphase (s : State) : Host.Outcome State Fault Refusal :=
  s.conclude <| finishOk s.blk.phase.code.toNat s.blk

/-- RDERR (R206): it does not clear ERR. -/
def execRderr (s : State) : Host.Outcome State Fault Refusal :=
  s.conclude <| finishOk s.blk.err.code.toNat s.blk

end Sys2Proof.Machine
end

