-- ==== Sys2Proof/Machine/Tree.lean ====
section
/-! DEFINITION. The tree builder (42_tree_builder.md): the priority queue, MKTREE, ASSIGN. -/

namespace Sys2Proof.Machine

/-! ### The priority queue -/

/-- The frequency of a node (rule R26). -/
def Node.freq : Node → Nat
  | .leaf f _ => f
  | .internal f _ _ => f

/-- The symbol of a leaf, `ALPHA[NODE[n].ent].sym` (R26); none for an internal node. -/
def Node.symbol (alpha : List Entry) : Node → Option Byte
  | .leaf _ ent => (alpha[ent]?).map Entry.sym
  | .internal _ _ _ => none

/-- The comparator on nodes (R140): by frequency; of two leaves of equal frequency by symbol; otherwise tied. -/
def nodeLess (alpha : List Entry) (p q : Node) : Bool :=
  decide (p.freq < q.freq)
    || (decide (p.freq = q.freq)
        && match p.symbol alpha, q.symbol alpha with
           | some x, some y => decide (x.toNat < y.toNat)
           | _, _ => false)

/-- `Less(p, q)` on node numbers (R140). A number at or beyond NODE_N is less than nothing: HEAP holds none. -/
def Block.less (b : Block) (p q : Nat) : Bool :=
  match b.nodes[p]?, b.nodes[q]? with
  | some x, some y => nodeLess b.alpha x y
  | _, _ => false

/-- `Less(HEAP[i], HEAP[j])` for slots `i`, `j` of a heap; false for a slot not in use. -/
def slotLess (b : Block) (h : List Nat) (i j : Nat) : Bool :=
  match h[i]?, h[j]? with
  | some p, some q => b.less p q
  | _, _ => false

/-- `swap HEAP[i] and HEAP[j]`. -/
def swapSlots (h : List Nat) (i j : Nat) : List Nat :=
  match h[i]?, h[j]? with
  | some p, some q => (h.set i q).set j p
  | _, _ => h

/-- The loop of HeapInsert (R141): slot `i` moves up while it is strictly less than its parent. The first argument bounds
the number of rounds; the slot number itself is bound enough, since it falls in each round. -/
def siftUp (b : Block) : Nat → Nat → List Nat → List Nat
  | 0, _, h => h
  | k + 1, i, h =>
    if 0 < i ∧ slotLess b h i ((i - 1) / 2) = true then
      siftUp b k ((i - 1) / 2) (swapSlots h i ((i - 1) / 2))
    else h

/-- The slot of the smallest of slot `i` and its children (R142): the right child is compared with the smaller of the first
two, and of two tied children the left is preferred. -/
def smallestChild (b : Block) (h : List Nat) (i : Nat) : Nat :=
  let m := if slotLess b h (2 * i + 1) i = true then 2 * i + 1 else i
  if slotLess b h (2 * i + 2) m = true then 2 * i + 2 else m

/-- The loop of HeapExtractMin (R142): slot `i` moves down while a child is strictly less. The first argument bounds the
number of rounds; the number of slots is bound enough, since the slot number rises in each round. -/
def siftDown (b : Block) : Nat → Nat → List Nat → List Nat
  | 0, _, h => h
  | k + 1, i, h =>
    if smallestChild b h i = i then h
    else siftDown b k (smallestChild b h i) (swapSlots h i (smallestChild b h i))

/-- HeapInsert(n) (R141). -/
def Block.heapInsert (b : Block) (n : Nat) : Block :=
  { b with heap := siftUp b b.heap.length b.heap.length (b.heap ++ [n]) }

/-- HeapExtractMin() (R142): the slot that was last moves to the root and sifts down. "Defined only when HEAP_N > 0". -/
def Block.heapExtractMin (b : Block) : Option (Nat × Block) :=
  match b.heap with
  | [] => none
  | r :: rest =>
    let h := (r :: rest).dropLast.set 0 ((r :: rest).getLastD r)
    some (r, { b with heap := siftDown b h.length 0 h })

/-! ### Tree construction -/

/-- `NODE[NODE_N] <- n; NODE_N <- NODE_N + 1; HeapInsert` of the new node (R143). -/
def Block.addNode (b : Block) (n : Node) : Block :=
  { b with nodes := b.nodes ++ [n] }.heapInsert b.nodes.length

/-- Leaf insertion (R143): one leaf per entry, in the alphabet's order; leaf `i` stands for `ALPHA[i]`. The frequency is
zero-extended to NODE_W bits, so it is the same natural. -/
def Block.insertLeaves (b : Block) : Block :=
  b.alpha.zipIdx.foldl (fun acc p => acc.addNode (.leaf p.1.freq p.2)) b

/-- The frequency of node `n`; 0 for a number at or beyond NODE_N, which the queue never holds. -/
def Block.freqOf (b : Block) (n : Nat) : Nat :=
  match b.nodes[n]? with
  | some x => x.freq
  | none => 0

/-- Merging (R143): while more than one node is queued, the two least become the left and right child of a new node. The
first argument bounds the number of rounds; the number of queued nodes is bound enough, since it falls in each round. -/
def Block.mergeAll : Nat → Block → Block
  | 0, b => b
  | k + 1, b =>
    match b.heapExtractMin with
    | none => b
    | some (x, b1) =>
      match b1.heapExtractMin with
      | none => b
      | some (y, b2) => Block.mergeAll k (b2.addNode (.internal (b2.freqOf x + b2.freqOf y) x y))

/-- MKTREE (R143). "TreeConstructionFailed if the queue empties without producing a root". -/
def execMktree (s : State) : Host.Outcome State Fault Refusal :=
  s.conclude <|
    if s.blk.phase ≠ .alphabetBuilt then raise .protocolMisuse
    else if s.blk.alpha.length = 0 then raise .treeConstructionFailed
    else
      let b := { s.blk with nodes := [], heap := [] }.insertLeaves
      match (b.mergeAll b.heap.length).heapExtractMin with
      | none => raise .treeConstructionFailed
      | some (r, b') => finishOk 0 { b' with root := some r, phase := .treeBuilt }

/-! ### Code assignment -/

/-- `ALPHA[ent].code <- c` (R145). -/
def Block.setCode (b : Block) (ent : Nat) (c : Bits) : Except Stop Block :=
  match b.alpha[ent]? with
  | none => stuck .noSuchEntry
  | some e => .ok { b with alpha := b.alpha.set ent { e with code := c } }

/-- `TRAV <- BitAppend(TRAV, bit)` (R145). -/
def Block.pushTrav (b : Block) (bit : Bool) : Block := { b with trav := b.trav ++ [bit] }

/-- `TRAV <- BitRemoveLast(TRAV)` (R145). -/
def Block.popTrav (b : Block) : Block := { b with trav := b.trav.dropLast }

/-- Walk(n) (R145): a leaf's code is a copy of TRAV; at an internal node 0 is appended before the left child and 1 before
the right, and removed after. The first argument bounds the depth. -/
def walk : Nat → Nat → Block → Except Stop Block
  | 0, _, _ => stuck .notATree
  | k + 1, n, b =>
    match b.nodes[n]? with
    | none => stuck .noSuchNode
    | some (.leaf _ ent) => b.setCode ent b.trav
    | some (.internal _ l r) =>
      match walk k l (b.pushTrav false) with
      | .error e => .error e
      | .ok b1 =>
        match walk k r (b1.popTrav.pushTrav true) with
        | .error e => .error e
        | .ok b2 => .ok b2.popTrav

/-- The codes of ASSIGN (R145): a root that is a leaf gets the one-bit code "0" (R146), otherwise the tree is walked. -/
def assignCodes (root : Nat) (b : Block) : Except Stop Block :=
  match b.nodes[root]? with
  | none => stuck .noSuchNode
  | some (.leaf _ ent) => b.setCode ent [false]
  | some (.internal _ _ _) => walk b.nodes.length root b

/-- ASSIGN (R145). -/
def execAssign (s : State) : Host.Outcome State Fault Refusal :=
  s.conclude <|
    if s.blk.phase ≠ .treeBuilt then raise .protocolMisuse
    else
      match s.blk.root with
      | none => stuck .noRoot
      | some root =>
        match assignCodes root { s.blk with trav := [] } with
        | .error e => .error e
        | .ok b => finishOk 0 { b with nodes := [], heap := [], root := none, phase := .codesAssigned }

end Sys2Proof.Machine
end

