-- ==== Sys2Proof/Machine/Dispatch.lean ====
section
/-! DEFINITION. The dispatch: one arm per command, each one direct call of its meaning. -/

namespace Sys2Proof.Machine

def exec (i : Instr) (s : State) : Host.Outcome State Fault Refusal :=
  match i with
  | .init => Sys2Proof.Machine.execInit s
  | .abort => Sys2Proof.Machine.execAbort s
  | .finish => Sys2Proof.Machine.execFinish s
  | .retire => Sys2Proof.Machine.execRetire s
  | .rdphase => Sys2Proof.Machine.execRdphase s
  | .rderr => Sys2Proof.Machine.execRderr s
  | .bapp buf bit => Sys2Proof.Machine.execBapp buf bit s
  | .bappb buf byte => Sys2Proof.Machine.execBappb buf byte s
  | .btrim buf => Sys2Proof.Machine.execBtrim buf s
  | .blen buf => Sys2Proof.Machine.execBlen buf s
  | .bget buf pos => Sys2Proof.Machine.execBget buf pos s
  | .brdb buf idx => Sys2Proof.Machine.execBrdb buf idx s
  | .relenc => Sys2Proof.Machine.execRelenc s
  | .reldec => Sys2Proof.Machine.execReldec s
  | .count b => Sys2Proof.Machine.execCount b s
  | .rdft b => Sys2Proof.Machine.execRdft b s
  | .mkalpha => Sys2Proof.Machine.execMkalpha s
  | .nsym => Sys2Proof.Machine.execNsym s
  | .rdsym idx => Sys2Proof.Machine.execRdsym idx s
  | .rdfreq idx => Sys2Proof.Machine.execRdfreq idx s
  | .cget idx pos => Sys2Proof.Machine.execCget idx pos s
  | .mktree => Sys2Proof.Machine.execMktree s
  | .assign => Sys2Proof.Machine.execAssign s
  | .canon => Sys2Proof.Machine.execCanon s
  | .serhdr => Sys2Proof.Machine.execSerhdr s
  | .parse => Sys2Proof.Machine.execParse s
  | .deser => Sys2Proof.Machine.execDeser s
  | .pack b => Sys2Proof.Machine.execPack b s
  | .packend => Sys2Proof.Machine.execPackend s
  | .mklook => Sys2Proof.Machine.execMklook s
  | .decode => Sys2Proof.Machine.execDecode s

end Sys2Proof.Machine
end

