-- ==== Sys2Proof/Machine/Step.lean ====
section
/-! DEFINITION. One step of the machine (00_scope.md rule R15): take the host's next act; a command word is decoded and
executed, an illegal word ends with IllegalCommand. With nothing asked, the block executes nothing (rule R250). -/

namespace Sys2Proof.Machine

/-- One step: a total function of the state. -/
def step (s : State) : Host.Outcome State Fault Refusal :=
  match s.takeAct with
  | none => .next s
  | some (.reset _, s') => .next s'.hardReset
  | some (.command w, s') =>
    match decode w with
    | .ok i => exec i s'
    | .error _ => .next s'.illegalWord

/-- The machine with a table word at the port, before everything else the host has asked for, so that the very next step
takes it. The block fetches nothing from memory (20_memory.md rule R71): a command arrives by value. -/
def State.withFetchWord (s : State) (nbits w : Nat) : State := s.offer (BitVec.ofNat 32 (w % 2 ^ nbits))

end Sys2Proof.Machine
end

