-- ==== Sys2Proof/Machine/Assembler.lean ====
section
/-! DEFINITION. The textual form of commands (30_encoding.md rule R90), read and written, and the pseudo-instructions of rule
R91 with the pipelines of 46_system.md rule R208. None of this is known to the block. -/

namespace Sys2Proof.Machine

/-! ### Writing a command (R90) -/

/-- A buffer operand's name (R90). -/
def bufName : Buf → String
  | .hdr => "HDR"
  | .pay => "PAY"
  | .out => "OUT"

/-- The operands of a command in R90's order, numbers in decimal. -/
def operandTexts : Instr → List String
  | .init => []
  | .abort => []
  | .finish => []
  | .retire => []
  | .rdphase => []
  | .rderr => []
  | .bapp buf bit => [bufName buf, toString bit.toNat]
  | .bappb buf byte => [bufName buf, toString byte.toNat]
  | .btrim buf => [bufName buf]
  | .blen buf => [bufName buf]
  | .bget buf pos => [bufName buf, toString pos.toNat]
  | .brdb buf idx => [bufName buf, toString idx.toNat]
  | .relenc => []
  | .reldec => []
  | .count b => [toString b.toNat]
  | .rdft b => [toString b.toNat]
  | .mkalpha => []
  | .nsym => []
  | .rdsym i => [toString i.toNat]
  | .rdfreq i => [toString i.toNat]
  | .cget i pos => [toString i.toNat, toString pos.toNat]
  | .mktree => []
  | .assign => []
  | .canon => []
  | .serhdr => []
  | .parse => []
  | .deser => []
  | .pack b => [toString b.toNat]
  | .packend => []
  | .mklook => []
  | .decode => []

/-- The line of a command (R90): the mnemonic, then its operands separated by commas. -/
def listing (i : Instr) : String :=
  match operandTexts i with
  | [] => i.row.mnemonic
  | ops => i.row.mnemonic ++ " " ++ ", ".intercalate ops

/-! ### Reading a command (R90) -/

/-- An operand as read: a buffer name or a number. -/
inductive Operand where
  | buf (b : Buf)
  | num (n : Nat)
  deriving DecidableEq, Repr

/-- The digits of a number (R90), each at its value; a number in decimal uses the first ten. -/
def digits : List Char := "0123456789abcdef".toList

/-- The value of a digit: its place among the digits, in either case of letter. -/
def digitValue (c : Char) : Option Nat := digits.findIdx? (· == c.toLower)

/-- The numeral of digits below `base` at the front of a text, with the value read so far. -/
def readDigits (base : Nat) : List Char → Nat → Nat × List Char
  | [], acc => (acc, [])
  | c :: cs, acc =>
    match digitValue c with
    | none => (acc, c :: cs)
    | some d => if d < base then readDigits base cs (base * acc + d) else (acc, c :: cs)

/-- The text without the blanks at its front. -/
def skipBlanks : List Char → List Char
  | [] => []
  | c :: cs => if c = ' ' then skipBlanks cs else c :: cs

/-- One operand (R90): a buffer name, a character in single quotes, a number in hexadecimal with `0x` or in decimal. -/
def readOperand : List Char → Option (Operand × List Char)
  | 'H' :: 'D' :: 'R' :: cs => some (.buf .hdr, cs)
  | 'P' :: 'A' :: 'Y' :: cs => some (.buf .pay, cs)
  | 'O' :: 'U' :: 'T' :: cs => some (.buf .out, cs)
  | '\'' :: c :: '\'' :: cs =>
    if 32 ≤ c.toNat ∧ c.toNat < 127 then some (.num c.toNat, cs) else none
  | '0' :: 'x' :: c :: cs =>
    match digitValue c with
    | none => none
    | some d => some (.num (readDigits 16 cs d).1, (readDigits 16 cs d).2)
  | c :: cs =>
    match digitValue c with
    | none => none
    | some d => if d < 10 then some (.num (readDigits 10 cs d).1, (readDigits 10 cs d).2) else none
  | [] => none

/-- The operands of a line, separated by commas, up to its end or its comment. The first argument bounds their number. -/
def readOperands : Nat → List Char → Option (List Operand)
  | 0, _ => none
  | k + 1, cs =>
    match readOperand cs with
    | none => none
    | some (o, rest) =>
      match skipBlanks rest with
      | [] => some [o]
      | ';' :: _ => some [o]
      | ',' :: more => (readOperands k (skipBlanks more)).map (o :: ·)
      | _ => none

/-- The letters at the front of a line. -/
def readMnemonic : List Char → List Char × List Char
  | [] => ([], [])
  | c :: cs =>
    if 'A' ≤ c ∧ c ≤ 'Z' then (c :: (readMnemonic cs).1, (readMnemonic cs).2) else ([], c :: cs)

/-- A byte operand. -/
def byteOperand (n : Nat) (mk : Byte → Instr) : Option Instr :=
  if n < 256 then some (mk (BitVec.ofNat 8 n)) else none

/-- A position operand of 24 bits. -/
def posOperand (n : Nat) (mk : BitVec 24 → Instr) : Option Instr :=
  if n < 2 ^ 24 then some (mk (BitVec.ofNat 24 n)) else none

/-- A command from its mnemonic and operands, its fields in range; the selector check of R87 is made after. -/
def commandOf (mnemonic : String) (ops : List Operand) : Option Instr :=
  match ops with
  | [] => oneOfEachRow.find? (fun i => i.row.mnemonic == mnemonic && (operandTexts i).isEmpty)
  | [.buf b] =>
    if mnemonic = "BTRIM" then some (.btrim b)
    else if mnemonic = "BLEN" then some (.blen b)
    else none
  | [.buf b, .num n] =>
    if mnemonic = "BAPP" then (if n < 2 then some (.bapp b (n == 1)) else none)
    else if mnemonic = "BAPPB" then byteOperand n (.bappb b)
    else if mnemonic = "BGET" then posOperand n (.bget b)
    else if mnemonic = "BRDB" then posOperand n (.brdb b)
    else none
  | [.num n] =>
    if mnemonic = "COUNT" then byteOperand n .count
    else if mnemonic = "RDFT" then byteOperand n .rdft
    else if mnemonic = "RDSYM" then byteOperand n .rdsym
    else if mnemonic = "RDFREQ" then byteOperand n .rdfreq
    else if mnemonic = "PACK" then byteOperand n .pack
    else none
  | [.num i, .num n] =>
    if mnemonic = "CGET" ∧ i < 256 then byteOperand n (.cget (BitVec.ofNat 8 i)) else none
  | _ => none

/-- The command a line stands for (R90), if it is one. -/
def assemble (line : String) : Option Instr :=
  let (m, rest) := readMnemonic (skipBlanks line.toList)
  let ops := match skipBlanks rest with
    | [] => some []
    | ';' :: _ => some []
    | cs => readOperands cs.length cs
  match ops with
  | none => none
  | some os => (commandOf (String.ofList m) os).filter Instr.wf

/-! ### Pseudo-instructions (R91) -/

/-- The seven pseudo-instructions of rule R91; a text is the list of its ASCII bytes. -/
inductive Pseudo where
  | counts (text : List Byte)
  | packs (text : List Byte)
  | bapps (buf : Buf) (bits : Bits)
  | loadb (buf : Buf) (bytes : List Byte)
  | trimn (buf : Buf) (n : Nat)
  | encode (text : List Byte)
  | decodeall
  deriving DecidableEq, Repr

/-- The commands a pseudo-instruction expands to (R91; ENCODE and DECODEALL are the pipelines of R208). -/
def Pseudo.expand : Pseudo → List Instr
  | .counts text => text.map .count
  | .packs text => text.map .pack
  | .bapps buf bits => bits.map (.bapp buf)
  | .loadb buf bytes => bytes.map (.bappb buf)
  | .trimn buf n => List.replicate n (.btrim buf)
  | .encode text =>
    text.map .count ++ .mkalpha ::
      (if text = [] then [.finish]
       else [.mktree, .assign, .canon, .serhdr] ++ text.map .pack ++ [.packend, .finish])
  | .decodeall => [.parse, .deser, .mklook, .decode, .finish]

end Sys2Proof.Machine
end

