-- ==== Sys2Proof/Safety.lean ====
section
/-! DEFINITION. The terms in which claims are made: how a command's response leaves the machine, which command is legal in
which phase, the shape of trees and codes, and the invariant of the reachable states. A safe run never stops: from every state
that meets `Inv`, every step answers a next state. -/

namespace Sys2Proof.Safety

open Sys2Proof.Machine

/-! ### What a command leaves behind -/

/-- The command ended with status OK, data `d` and the block `b` (30_encoding.md rule R89). -/
def answered (s : State) (d : BitVec 32) (b : Block) : State :=
  { s with blk := b, rsps := s.rsps ++ [⟨.ok, d⟩] }

/-- The command ended with the fault `f` (60_exceptions.md rules R224, R225): nothing changed but ERR, and ERR only if it
was 0. -/
def faulted (s : State) (f : Status) : State :=
  { s with
    blk := { s.blk with err := if s.blk.err = .ok then f else s.blk.err }
    rsps := s.rsps ++ [⟨f, 0⟩] }

/-- The same machine with another value in ERR. -/
def withErr (s : State) (e : Status) : State := { s with blk := { s.blk with err := e } }

/-- The machine with commands at the port, one after the other (00_scope.md rule R16). -/
def loaded (s : State) (cmds : List Instr) : State := { s with pending := cmds.map (fun i => .command (encode i)) }

/-! ### Which command is legal when (46_system.md rule R200, 60_exceptions.md rule R227) -/

/-- Column "accepted in" of rule R200's table. -/
def accepts (b : Block) : Instr → Bool
  | .init => true
  | .abort => true
  | .finish =>
    b.phase == .payloadSerialized || b.phase == .payloadDecoded || (b.phase == .alphabetBuilt && b.alpha.isEmpty)
  | .retire => b.phase == .done
  | .rdphase => true
  | .rderr => true
  | .bapp _ _ => b.phase == .idle
  | .bappb _ _ => b.phase == .idle
  | .btrim _ => b.phase == .idle
  | .blen _ => true
  | .bget _ _ => true
  | .brdb _ _ => true
  | .relenc => b.phase == .idle || b.phase == .done
  | .reldec => b.phase == .idle || b.phase == .done
  | .count _ => b.phase == .idle
  | .rdft _ => true
  | .mkalpha => b.phase == .idle
  | .nsym => true
  | .rdsym _ => true
  | .rdfreq _ => true
  | .cget _ _ => true
  | .mktree => b.phase == .alphabetBuilt
  | .assign => b.phase == .treeBuilt
  | .canon => b.phase == .codesAssigned
  | .serhdr => b.phase == .canonicalized
  | .parse => b.phase == .idle
  | .deser => b.phase == .headerParsed
  | .pack _ => b.phase == .headerSerialized
  | .packend => b.phase == .headerSerialized
  | .mklook => b.phase == .alphabetReconstructed
  | .decode => b.phase == .lookupBuilt

/-- Column "phase after" of rule R200's table. -/
def phaseAfter (p : Phase) : Instr → Phase
  | .init => .idle
  | .abort => .idle
  | .finish => .done
  | .retire => .idle
  | .rdphase => p
  | .rderr => p
  | .bapp _ _ => p
  | .bappb _ _ => p
  | .btrim _ => p
  | .blen _ => p
  | .bget _ _ => p
  | .brdb _ _ => p
  | .relenc => p
  | .reldec => p
  | .count _ => p
  | .rdft _ => p
  | .mkalpha => .alphabetBuilt
  | .nsym => p
  | .rdsym _ => p
  | .rdfreq _ => p
  | .cget _ _ => p
  | .mktree => .treeBuilt
  | .assign => .codesAssigned
  | .canon => .canonicalized
  | .serhdr => .headerSerialized
  | .parse => .headerParsed
  | .deser => .alphabetReconstructed
  | .pack _ => p
  | .packend => .payloadSerialized
  | .mklook => .lookupBuilt
  | .decode => .payloadDecoded

/-- The named container guards, which rule R227 (2) puts before the phase guard. -/
def containerGuard (b : Block) : Instr → Option Status
  | .mkalpha => if b.alpha = [] then none else some .alphabetAlreadyPopulated
  | .deser => if b.alpha = [] then none else some .alphabetAlreadyPopulated
  | .serhdr => if b.hdr = [] ∧ b.pay = [] then none else some .encodedMessageAlreadyPopulated
  | .decode => if b.out = [] then none else some .decodedMessageAlreadyPopulated
  | _ => none

/-- The ten commands that read (20_memory.md rule R67). -/
def isRead : Instr → Bool
  | .blen _ => true
  | .bget _ _ => true
  | .brdb _ _ => true
  | .rdft _ => true
  | .nsym => true
  | .rdsym _ => true
  | .rdfreq _ => true
  | .cget _ _ => true
  | .rdphase => true
  | .rderr => true
  | _ => false

/-! ### Alphabets and codes -/

/-- Order (a), strict: both orders are total on entries with distinct symbols (10_state.md rule R25). -/
abbrev ltA (x y : Entry) : Prop := x.freq < y.freq ∨ (x.freq = y.freq ∧ x.sym.toNat < y.sym.toNat)

/-- Order (b), strict. -/
abbrev ltB (x y : Entry) : Prop :=
  x.code.length < y.code.length ∨ (x.code.length = y.code.length ∧ x.sym.toNat < y.sym.toNat)

/-- No code is a prefix of another (00_scope.md rule R12). -/
abbrev PrefixFree (es : List Entry) : Prop :=
  es.Pairwise (fun x y => ¬ x.code <+: y.code ∧ ¬ y.code <+: x.code)

/-- The sum over the entries of `2^-len(code)`, scaled by 2^255 (42_tree_builder.md rule R147 (iii)). -/
def kraft (es : List Entry) : Nat := (es.map (fun e => 2 ^ (255 - e.code.length))).sum

/-- What ASSIGN guarantees of the codes (rule R147 (i), (iii)): lengths 1 to 255; the code "0" for a single symbol; prefix
free; and complete for two symbols or more. -/
structure HuffmanCodes (es : List Entry) : Prop where
  lengths : ∀ e ∈ es, 1 ≤ e.code.length ∧ e.code.length ≤ 255
  single : es.length = 1 → ∀ e ∈ es, e.code = [false]
  prefixFree : PrefixFree es
  complete : 2 ≤ es.length → kraft es = 2 ^ 255

/-- The (symbol, frequency) pairs of an alphabet are those FT counts (41_frequency_alphabet.md rules R122, R127). -/
abbrev Counts (ft : Vector Nat 256) (es : List Entry) : Prop :=
  (es.map (fun e => (e.sym, e.freq))).Perm ((countedEntries ft).map (fun e => (e.sym, e.freq)))

/-- The canonical numeral of the entry at index `i` (43_canonical.md rule R163: "just before entry i is emitted, c equals
the sum over j < i of 2^(l_i - l_j)"). -/
def canonicalValue (es : List Entry) (i len : Nat) : Nat :=
  ((es.take i).map (fun x => 2 ^ (len - x.code.length))).sum

/-- Every code is the canonical numeral of its place and length (rules R161, R163, R167). -/
abbrev CanonicallyNumbered (es : List Entry) : Prop :=
  ∀ p ∈ es.zipIdx, p.1.code = bitsOf (canonicalValue es p.2 p.1.code.length) p.1.code.length

/-- A BitMessage read as a binary numeral, most significant digit first (00_scope.md rule R10, `BitsOf`). -/
def numeral (m : Bits) : Nat := m.foldl (fun acc b => 2 * acc + b.toNat) 0

/-- Every earlier code, read as a binary fraction, is smaller than every later one (43_canonical.md rule R163 (ii), (iii)),
for codes of at most 255 bits. -/
abbrev FractionsRise (es : List Entry) : Prop :=
  es.Pairwise (fun x y =>
    numeral x.code * 2 ^ (255 - x.code.length) < numeral y.code * 2 ^ (255 - y.code.length))

/-- The code space that the count bytes of a header claim: the sum over `k` from 1 to `mb` of `hb(k) * 2^(mb-k)`
(43_canonical.md rule R167: CorruptHeader when there are "more codes of length <= k than exist"). -/
def claimedSpace (hdr : Bits) (mb : Nat) : Nat :=
  ((List.range mb).map (fun k => (byteView hdr (k + 1)).toNat * 2 ^ (mb - (k + 1)))).sum

/-- The code lengths the count bytes of a header declare, in file order (rule R167). -/
def declaredLengths (hdr : Bits) (mb : Nat) : List Nat :=
  (List.range mb).flatMap (fun k => List.replicate (byteView hdr (k + 1)).toNat (k + 1))

/-- The symbols of each length stand in the header in the order `rel`. With `≤` this is the order of the wire format: "the symbol
list is ordered by ascending code length then ascending byte value (matching order (b))" (20_memory.md rule R62); with `<` its
symbols of one length are distinct too. -/
abbrev SymbolsOrdered (rel : Nat → Nat → Prop) (hdr : Bits) (mb : Nat) : Prop :=
  (declaredLengths hdr mb).zipIdx.Pairwise (fun x y =>
    x.1 = y.1 → rel (byteView hdr (1 + mb + x.2)).toNat (byteView hdr (1 + mb + y.2)).toNat)

/-- The sum over the entries of frequency times code length (42_tree_builder.md rule R144 (vi)). -/
def cost (es : List Entry) : Nat := (es.map (fun e => e.freq * e.code.length)).sum

/-! ### Trees -/

/-- The frequency of node `n`, 0 beyond the arena. -/
def freqAt (nodes : List Node) (n : Nat) : Nat := ((nodes[n]?).map Node.freq).getD 0

/-- The children named by the internal nodes of an arena, in order. -/
def childrenOf (nodes : List Node) : List Nat :=
  nodes.flatMap (fun x => match x with
    | .leaf _ _ => []
    | .internal _ l r => [l, r])

/-- Node `p.2` of the arena is what rule R144 (i), (iii) says of it, for an alphabet of `k` entries: leaf `i` for `i < k`,
otherwise an internal node with smaller children whose frequencies add up to its own. -/
def nodeOk (es : List Entry) (nodes : List Node) (p : Node × Nat) : Bool :=
  match p.1 with
  | .leaf f ent => decide (ent = p.2 ∧ (es[ent]?).map Entry.freq = some f)
  | .internal f l r =>
    decide (es.length ≤ p.2 ∧ l < p.2 ∧ r < p.2 ∧ f = freqAt nodes l + freqAt nodes r)

/-- The finished tree over an alphabet of at least one entry (rule R144 (i) to (iv)): 2N - 1 nodes, the root the last one,
and every node but the root the child of exactly one internal node. -/
structure TreeOver (es : List Entry) (nodes : List Node) (root : Nat) : Prop where
  size : nodes.length + 1 = 2 * es.length
  rootLast : root + 1 = nodes.length
  shape : ∀ p ∈ nodes.zipIdx, nodeOk es nodes p = true
  onceEach : (childrenOf nodes).Perm (List.range root)
  total : freqAt nodes root = (es.map Entry.freq).sum

/-- Node `m` is in the queue when node `k` is made: it is there already and no earlier node has it as a child (rule R143). -/
abbrev QueuedAt (nodes : List Node) (k m : Nat) : Prop := m < k ∧ m ∉ childrenOf (nodes.take k)

/-- "Pop two minimum nodes, create a parent node whose frequency is their sum" (rule R143), the first popped on the left:
the children of every internal node are two queued nodes, the left no heavier than the right, and no other queued node is
lighter than the right one. -/
abbrev GreedyMerges (nodes : List Node) : Prop :=
  ∀ k f l r, nodes[k]? = some (.internal f l r) →
    l ≠ r ∧ QueuedAt nodes k l ∧ QueuedAt nodes k r ∧ freqAt nodes l ≤ freqAt nodes r
      ∧ ∀ m, QueuedAt nodes k m → m ≠ l → m ≠ r → freqAt nodes r ≤ freqAt nodes m

/-- The node reached from node `n` along a path, 0 to the left child and 1 to the right (rule R145). -/
def follow (nodes : List Node) : Nat → Bits → Option Nat
  | n, [] => some n
  | n, bit :: rest =>
    match nodes[n]? with
    | some (.internal _ l r) => follow nodes (if bit then r else l) rest
    | _ => none

/-- The heap property (42_tree_builder.md rule R142): for every slot i > 0, not Less(HEAP[i], HEAP[(i-1)/2]). -/
abbrev HeapOrdered (b : Block) : Prop :=
  ∀ i < b.heap.length, 0 < i → slotLess b b.heap i ((i - 1) / 2) = false

/-! ### The invariant of the reachable states -/

/-- Phases with an alphabet made by MKALPHA. -/
def encodePhase : Phase → Bool
  | .alphabetBuilt => true
  | .treeBuilt => true
  | .codesAssigned => true
  | .canonicalized => true
  | .headerSerialized => true
  | .payloadSerialized => true
  | _ => false

/-- Phases in which the parsed header fields are set (PARSE to DECODE). -/
def decodePhase : Phase → Bool
  | .headerParsed => true
  | .alphabetReconstructed => true
  | .lookupBuilt => true
  | .payloadDecoded => true
  | _ => false

/-- Phases in which the entries have codes made by ASSIGN or CANON. -/
def codedPhase : Phase → Bool
  | .codesAssigned => true
  | .canonicalized => true
  | .headerSerialized => true
  | .payloadSerialized => true
  | _ => false

/-- Phases in which the alphabet is in order (b) with canonical codes (10_state.md rule R25). -/
def canonicalPhase : Phase → Bool
  | .canonicalized => true
  | .headerSerialized => true
  | .payloadSerialized => true
  | _ => false

/-- Phases in which SERHDR's header and LUT stand. -/
def serializedPhase : Phase → Bool
  | .headerSerialized => true
  | .payloadSerialized => true
  | _ => false

/-- Phases in which DESER's alphabet stands. -/
def rebuiltPhase : Phase → Bool
  | .alphabetReconstructed => true
  | .lookupBuilt => true
  | .payloadDecoded => true
  | _ => false

/-- Phases in which MKLOOK's map stands. -/
def lookupPhase : Phase → Bool
  | .lookupBuilt => true
  | .payloadDecoded => true
  | _ => false

/-- The invariant (10_state.md rule R39, with the capacities of 00_scope.md rule R7, the orders of rule R25 and what the
commands of each pipeline guarantee for the next). -/
structure Inv (s : State) : Prop where
  /-- The parameters are in their ranges (R7). -/
  cfgWf : s.cfg.wf = true
  /-- Counters fit FREQ_W bits (R23). -/
  counters : ∀ n ∈ s.blk.ft.toList, n < 2 ^ s.cfg.freqW
  /-- Buffers are within their capacities (40_bitbuffer.md rule R110). -/
  hdrFits : s.blk.hdr.length ≤ Config.hdrCapBits
  payFits : s.blk.pay.length ≤ s.cfg.payCapBits
  outFits : s.blk.out.length ≤ 8 * s.cfg.outCapBytes
  /-- (iv) `len(OUT) % 8 = 0`. -/
  outBytes : s.blk.out.length % 8 = 0
  /-- (ii) the queue and the traversal buffer are empty between commands. -/
  heapEmpty : s.blk.heap = []
  travEmpty : s.blk.trav = []
  /-- The widths of rules R24 and R34. -/
  alphaFits : s.blk.alpha.length ≤ Config.alphaCap
  freqFits : ∀ e ∈ s.blk.alpha, e.freq < 2 ^ s.cfg.freqW
  codeFits : ∀ e ∈ s.blk.alpha, e.code.length ≤ Config.maxLen
  maxbitsFits : s.blk.hdrMaxbits ≤ 255
  hdrNFits : s.blk.hdrN ≤ 509
  /-- (i) no alphabet in Idle and Done, nor before DESER. -/
  noAlpha : encodePhase s.blk.phase = false → rebuiltPhase s.blk.phase = false → s.blk.alpha = []
  /-- (i) in Done the frequency table is clear. -/
  doneClear : s.blk.phase = .done → s.blk.ft = Vector.replicate 256 0
  /-- (iii) there is a tree exactly in TreeBuilt. -/
  noTree : s.blk.phase ≠ .treeBuilt → s.blk.nodes = [] ∧ s.blk.root = none
  tree : s.blk.phase = .treeBuilt → ∃ r ∈ s.blk.root, TreeOver s.blk.alpha s.blk.nodes r
  nodeFits : ∀ n ∈ s.blk.nodes, n.freq < 2 ^ s.cfg.nodeW
  /-- (i) LUT is clear but after SERHDR; then LUT[b] = i exactly when ALPHA[i].sym = b (R30). -/
  noLut : serializedPhase s.blk.phase = false → s.blk.lut = Vector.replicate 256 none
  lutSet : serializedPhase s.blk.phase = true → ∀ p ∈ s.blk.alpha.zipIdx, s.blk.lookup p.1.sym = some p.2
  lutOnly : serializedPhase s.blk.phase = true →
    ∀ v : Byte, s.blk.lookup v = none ∨ ∃ e ∈ s.blk.alpha, e.sym = v
  /-- (i) DT is clear but after MKLOOK; then it is the map of the alphabet, and maxBits is within DEC_MAXBITS. -/
  noDt : lookupPhase s.blk.phase = false → s.blk.dt = []
  dtSet : lookupPhase s.blk.phase = true → s.blk.dt = dtOf s.blk.alpha ∧ s.blk.hdrMaxbits ≤ s.cfg.decMaxbits
  /-- (i), (vi) the parsed fields are clear but in the decode phases; there they are what PARSE takes from HDR and PAY. -/
  notParsed : decodePhase s.blk.phase = false → s.blk.hdrMaxbits = 0 ∧ s.blk.hdrN = 0
  parsed : decodePhase s.blk.phase = true →
    parseSizes s.blk.hdr s.blk.pay = .ok (s.blk.hdrMaxbits, s.blk.hdrN)
  /-- The alphabet of an encode is that of FT. -/
  counted : encodePhase s.blk.phase = true → Counts s.blk.ft s.blk.alpha
  /-- An encode past MKTREE has at least one symbol. -/
  someSymbol : encodePhase s.blk.phase = true → s.blk.phase ≠ .alphabetBuilt → s.blk.alpha ≠ []
  /-- Order (a) until CANON, order (b) after it (R25). -/
  sortedA : encodePhase s.blk.phase = true → canonicalPhase s.blk.phase = false → s.blk.alpha.Pairwise ltA
  sortedB : canonicalPhase s.blk.phase = true → s.blk.alpha.Pairwise ltB
  /-- No codes before ASSIGN (41_frequency_alphabet.md rule R124), Huffman codes after, canonical ones after CANON. -/
  noCodes : encodePhase s.blk.phase = true → codedPhase s.blk.phase = false → ∀ e ∈ s.blk.alpha, e.code = []
  huffman : codedPhase s.blk.phase = true → HuffmanCodes s.blk.alpha
  numbered : canonicalPhase s.blk.phase = true → CanonicallyNumbered s.blk.alpha
  /-- (v) the header is SERHDR's. -/
  header : serializedPhase s.blk.phase = true → s.blk.hdr = bitsOfBytes (headerBytes s.blk.alpha)
  countsFit : serializedPhase s.blk.phase = true →
    ∀ k ∈ List.range (maxBitsOf s.blk.alpha), countLen s.blk.alpha (k + 1) ≤ 255
  /-- The rebuilt alphabet is DESER's of HDR, with as many entries as the header declares. -/
  rebuilt : rebuiltPhase s.blk.phase = true →
    deserBuckets s.blk.hdr s.blk.hdrMaxbits 1 0 (1 + s.blk.hdrMaxbits) = .ok s.blk.alpha
  rebuiltSize : rebuiltPhase s.blk.phase = true → s.blk.alpha.length = s.blk.hdrN
  /-- Order (b) in the decode phases (R25), of every header whose symbol list is in the order of the wire format (20_memory.md
  rule R62); by code length of any other header that DESER accepts, since it keeps file order (43_canonical.md rule R167;
  assumption log 17). -/
  rebuiltLengths : rebuiltPhase s.blk.phase = true →
    s.blk.alpha.Pairwise (fun x y => x.code.length ≤ y.code.length)
  rebuiltOrderB : rebuiltPhase s.blk.phase = true → SymbolsOrdered (· ≤ ·) s.blk.hdr s.blk.hdrMaxbits →
    s.blk.alpha.Pairwise orderB
  rebuiltSortedB : rebuiltPhase s.blk.phase = true → SymbolsOrdered (· < ·) s.blk.hdr s.blk.hdrMaxbits →
    s.blk.alpha.Pairwise ltB

end Sys2Proof.Safety
end

