-- ==== Sys2Proof/Certificates/Slice0/Obligations.lean ====
section
/-! DEFINITION. What is claimed of the model. A claim `exec i s = .next (answered s d { s.blk with ... })` gives the whole next
state, so it is the frame as well: every field that the record update does not name, the parameters, the commands still at the
port and the earlier responses are as before. A claim about a fault, `.next (faulted s f)`, says that nothing but ERR and
the response changed. -/

open Sys2Proof Sys2Proof.Machine Sys2Proof.Safety

/-! ### Encoding -/

/-- Words of 30_encoding.md rule R90 and of rules R85 and R87, written out: each decodes to its command, or is refused with its
class of rule R87. -/
def Obligations.SpecWordsDecode : Prop :=
  decode 0x01000000 = .ok .init ∧ decode 0x30000061 = .ok (.count 97) ∧ decode 0x11000001 = .ok (.bapp .pay true)
    ∧ decode 0x14000061 = .ok (.bappb .hdr 0x61) ∧ decode 0x19000000 = .ok (.btrim .pay)
    ∧ decode 0x24000003 = .ok (.brdb .hdr 3) ∧ decode 0x22000009 = .ok (.bget .out 9)
    ∧ decode 0x36000201 = .ok (.cget 2 1) ∧ decode 0x40000000 = .ok .mktree
    ∧ decode 0x00000000 = .error .unknownOpcode ∧ decode 0xFFFFFFFF = .error .unknownOpcode
    ∧ decode 0x40000001 = .error .mustBeZero ∧ decode 0x12000001 = .error .selector
    ∧ decode 0x1F000000 = .error .selector

/-- Decode and encode agree: the word of every well-formed command, with every operand value, decodes to that command
(30_encoding.md rules R80 to R86). -/
def Obligations.DecodeInvertsEncode : Prop := ∀ i : Instr, i.wf = true → decode (encode i) = .ok i

/-- Every word that decodes is the word of the command it decodes to, and that command is well formed: no word has two
readings and no command two words (rules R80, R86). -/
def Obligations.EncodeInvertsDecode : Prop :=
  ∀ (w : Word) (i : Instr), decode w = .ok i → i.wf = true ∧ encode i = w

/-- Rule R85 as it stands: "a word w is the command exactly when w & mask == match". A word that a row accepts decodes to a
command of that row or fails the selector check; a word that no row accepts is illegal; and a command's word is accepted by
its own row. -/
def Obligations.DecodeFollowsOpcodeTable : Prop :=
  ∀ w : Word,
    (∀ r ∈ opcodeTable, r.accepts w = true → (∃ i, decode w = .ok i ∧ i.row = r) ∨ decode w = .error .selector)
      ∧ ((∀ r ∈ opcodeTable, r.accepts w = false) → ∃ e, decode w = .error e ∧ e ≠ .selector)
      ∧ ∀ i, decode w = .ok i → i.row ∈ opcodeTable ∧ i.row.accepts w = true

/-- "There are 31 commands. No two rows match the same word" (rule R85). -/
def Obligations.OpcodeRowsDisjoint : Prop :=
  opcodeTable.length = 31 ∧ opcodeTable.Pairwise (fun r q => ∀ w : Word, ¬ (r.accepts w = true ∧ q.accepts w = true))

/-- The illegal words, exhaustively (rule R87): (a) the opcode bytes that are in no row, (b) a bit that must be 0, (c) the
selector check; and every other word is a command. -/
def Obligations.IllegalWordsExactly : Prop :=
  ∀ w : Word,
    let op := (opByte w).toNat
    let known := (1 ≤ op ∧ op ≤ 0x06) ∨ (0x10 ≤ op ∧ op ≤ 0x29) ∨ (0x30 ≤ op ∧ op ≤ 0x36) ∨ (0x40 ≤ op ∧ op ≤ 0x41)
      ∨ (0x50 ≤ op ∧ op ≤ 0x53) ∨ (0x60 ≤ op ∧ op ≤ 0x61) ∨ (0x70 ≤ op ∧ op ≤ 0x71)
    let accepted := ∃ r ∈ opcodeTable, r.accepts w = true
    let badBuffer := 0x10 ≤ op ∧ op ≤ 0x27 ∧ (op % 4 = 3 ∨ (op % 4 = 2 ∧ op ≤ 0x1B))
    (decode w = .error .unknownOpcode ↔ ¬ known)
      ∧ (decode w = .error .mustBeZero ↔ known ∧ ¬ accepted)
      ∧ (decode w = .error .selector ↔ accepted ∧ badBuffer)
      ∧ ((∃ i, decode w = .ok i) ↔ accepted ∧ ¬ badBuffer)

/-! ### The step, the fault mechanism and the phase machine -/

/-- A step takes the oldest word at the port and runs the command it decodes to (00_scope.md rule R15, 30_encoding.md rule
R86). -/
def Obligations.StepRunsDecodedCommand : Prop :=
  ∀ (s : State) (w : Word) (rest : List HostAct) (i : Instr),
    s.pending = .command w :: rest → decode w = .ok i → step s = exec i { s with pending := rest }

/-- "An illegal word is a command like any other: it executes in one step, it ends with the fault IllegalCommand" and changes
nothing but ERR (rule R86). -/
def Obligations.IllegalWordFaults : Prop :=
  ∀ (s : State) (w : Word) (rest : List HostAct) (e : IllegalWord),
    s.pending = .command w :: rest → decode w = .error e →
      step s = .next (faulted { s with pending := rest } .illegalCommand)

/-- The reset input (70_reset_and_hazards.md rule R251): the block is in the reset state and a command in flight gets no
response; with nothing at the port the block executes nothing. That reset is one act of the host, and that a step with
nothing to do answers the same state, are the model's choices (assumption log 2 and 4). -/
def Obligations.ResetInputAndIdleStep : Prop :=
  (∀ (s : State) (flight : Option Word) (rest : List HostAct),
      s.pending = .reset flight :: rest → step s = .next { s with blk := Block.reset, pending := rest })
    ∧ ∀ s : State, s.pending = [] → step s = .next s

/-- The reset state (rule R250), row by row, and INIT, which produces the same state from every state (46_system.md rule
R201). That a step with nothing at the port answers the same state is the model's way to say that "the block executes nothing
until the host issues a command" (assumption log 2, DESIGN CHOICE). -/
def Obligations.ResetState : Prop :=
  State.reset.blk.phase = .idle ∧ State.reset.blk.err = .ok
    ∧ (∀ v : Byte, State.reset.blk.counter v = 0)
    ∧ State.reset.blk.alpha = [] ∧ State.reset.blk.nodes = [] ∧ State.reset.blk.heap = []
    ∧ State.reset.blk.root = none ∧ State.reset.blk.trav = []
    ∧ (∀ v : Byte, State.reset.blk.lookup v = none)
    ∧ State.reset.blk.hdr = [] ∧ State.reset.blk.pay = [] ∧ State.reset.blk.out = []
    ∧ State.reset.blk.hdrMaxbits = 0 ∧ State.reset.blk.hdrN = 0 ∧ State.reset.blk.dt = []
    ∧ step State.reset = .next State.reset
    ∧ encode .init = 0x01000000
    ∧ ∀ s : State, exec .init s = .next (answered s 0 State.reset.blk)

/-- "Every command produces exactly one response" (30_encoding.md rule R89): from every state that meets the invariant it ends
with status OK, its data and a new block, or with a fault that changes nothing but ERR (60_exceptions.md rules R224, R225);
from no state does it end in a next state of another kind, and no command is refused. -/
def Obligations.EveryCommandAnswersOnce : Prop :=
  ∀ (i : Instr) (s : State),
    (∀ r, exec i s ≠ .refused r)
      ∧ (∀ t, exec i s = .next t → (∃ d b, t = answered s d b) ∨ ∃ f, f ≠ .ok ∧ t = faulted s f)
      ∧ (Inv s → (∃ d b, exec i s = .next (answered s d b)) ∨ ∃ f, f ≠ .ok ∧ exec i s = .next (faulted s f))

/-- The ERR latch (rule R225): after a command, ERR is the status of the response if it was 0 before, otherwise what it was;
INIT, and no other command, sets it to 0. A word that is no command latches IllegalCommand in the same way; the reset input
sets ERR to 0; with nothing at the port it stays. The reset input as one act and the idle step are the model's choices
(assumption log 2 and 4, DESIGN CHOICE). -/
def Obligations.ErrHoldsFirstFault : Prop :=
  (∀ (i : Instr) (s t : State), exec i s = .next t →
      ∃ r : Response, t.rsps = s.rsps ++ [r]
        ∧ (i = .init → t.blk.err = .ok)
        ∧ (i ≠ .init → t.blk.err = if s.blk.err = .ok then r.status else s.blk.err))
    ∧ ∀ s t : State, step s = .next t →
        (∀ w rest e, s.pending = .command w :: rest → decode w = .error e →
            t.blk.err = if s.blk.err = .ok then .illegalCommand else s.blk.err)
          ∧ (∀ flight rest, s.pending = .reset flight :: rest → t.blk.err = .ok)
          ∧ (s.pending = [] → t.blk.err = s.blk.err)

/-- "A fault does not stop the block. The next command is decoded and executed as if the faulting one had not been issued,
except for ERR" (rule R226), because no command's behaviour depends on ERR but RDERR's (10_state.md rule R22). -/
def Obligations.NoCommandDependsOnErr : Prop :=
  ∀ (i : Instr) (s : State) (e : Status), i ≠ .rderr →
    (∀ d b, exec i s = .next (answered s d b) →
        exec i (withErr s e) = .next (answered (withErr s e) d (if i = .init then b else { b with err := e })))
      ∧ ∀ f, f ≠ .ok → exec i s = .next (faulted s f) → exec i (withErr s e) = .next (faulted (withErr s e) f)

/-- The phase table (46_system.md rule R200): a command that no container guard stops faults with ProtocolMisuse in every phase
in which it is not accepted, and PHASE keeps its value; when it succeeds it was accepted and leaves the phase of the table. -/
def Obligations.PhaseTable : Prop :=
  ∀ (i : Instr) (s : State), i.wf = true →
    (containerGuard s.blk i = none → accepts s.blk i = false → exec i s = .next (faulted s .protocolMisuse))
      ∧ ∀ d b, exec i s = .next (answered s d b) → accepts s.blk i = true ∧ b.phase = phaseAfter s.blk.phase i

/-- The named container guards are tested before the phase (60_exceptions.md rule R227): AlphabetAlreadyPopulated for MKALPHA and
DESER, EncodedMessageAlreadyPopulated for SERHDR, DecodedMessageAlreadyPopulated for DECODE, in every phase. -/
def Obligations.ContainerGuardFirst : Prop :=
  ∀ s : State,
    (s.blk.alpha ≠ [] → exec .mkalpha s = .next (faulted s .alphabetAlreadyPopulated)
        ∧ exec .deser s = .next (faulted s .alphabetAlreadyPopulated))
      ∧ (s.blk.hdr ≠ [] ∨ s.blk.pay ≠ [] → exec .serhdr s = .next (faulted s .encodedMessageAlreadyPopulated))
      ∧ (s.blk.out ≠ [] → exec .decode s = .next (faulted s .decodedMessageAlreadyPopulated))

/-- No read command changes any state when it succeeds, and reading twice gives the same value; a read that faults changes ERR
only (20_memory.md rule R67). Every read completes or faults in every state. -/
def Obligations.ReadsChangeNothing : Prop :=
  ∀ (i : Instr) (s : State), isRead i = true →
    (∃ d, exec i s = .next (answered s d s.blk)
        ∧ exec i (answered s d s.blk) = .next (answered (answered s d s.blk) d s.blk))
      ∨ exec i s = .next (faulted s .outOfRange)

/-- Which commands may write which state: the "Written by" sentences of 10_state.md rules R21 to R35, for each piece of state of
rule R20. PHASE is written by the commands with a "phase after" (46_system.md rule R200), ERR by INIT and by the first fault
(60_exceptions.md rule R225). The parameters and the host's words still to come are no state of the block (00_scope.md rule R14)
and no command writes them; that State holds them is the model's choice (assumption log 1 and 2, DESIGN CHOICE). -/
def Obligations.WhoWritesWhat : Prop :=
  ∀ (i : Instr) (s t : State), exec i s = .next t →
    let clears := i = .init ∨ i = .abort ∨ i = .finish
    t.cfg = s.cfg ∧ t.pending = s.pending
      ∧ (t.blk.phase ≠ s.blk.phase → clears ∨ i = .retire ∨ i = .mkalpha ∨ i = .mktree ∨ i = .assign ∨ i = .canon
          ∨ i = .serhdr ∨ i = .packend ∨ i = .parse ∨ i = .deser ∨ i = .mklook ∨ i = .decode)
      ∧ (t.blk.err ≠ s.blk.err → i = .init ∨ (s.blk.err = .ok ∧ ∃ f, t = faulted s f))
      ∧ (t.blk.ft ≠ s.blk.ft → clears ∨ ∃ v, i = .count v)
      ∧ (t.blk.alpha ≠ s.blk.alpha → clears ∨ i = .mkalpha ∨ i = .assign ∨ i = .canon ∨ i = .deser)
      ∧ (t.blk.nodes ≠ s.blk.nodes ∨ t.blk.heap ≠ s.blk.heap ∨ t.blk.root ≠ s.blk.root →
          clears ∨ i = .mktree ∨ i = .assign)
      ∧ (t.blk.trav ≠ s.blk.trav → clears ∨ i = .assign)
      ∧ (t.blk.lut ≠ s.blk.lut → clears ∨ i = .serhdr)
      ∧ (t.blk.hdr ≠ s.blk.hdr → i = .init ∨ i = .relenc ∨ i = .serhdr
          ∨ (∃ x, i = .bapp .hdr x) ∨ (∃ x, i = .bappb .hdr x) ∨ i = .btrim .hdr)
      ∧ (t.blk.pay ≠ s.blk.pay → i = .init ∨ i = .relenc ∨ (∃ v, i = .pack v)
          ∨ (∃ x, i = .bapp .pay x) ∨ (∃ x, i = .bappb .pay x) ∨ i = .btrim .pay)
      ∧ (t.blk.out ≠ s.blk.out → i = .init ∨ i = .reldec ∨ i = .decode)
      ∧ (t.blk.hdrMaxbits ≠ s.blk.hdrMaxbits ∨ t.blk.hdrN ≠ s.blk.hdrN → clears ∨ i = .parse)
      ∧ (t.blk.dt ≠ s.blk.dt → clears ∨ i = .mklook)

/-! ### Buffers -/

/-- Bit order and byte view (20_memory.md rules R60, R61): bit `i` of a BitMessage is bit `7 - i % 8` of byte `i / 8`; the low
positions of a last partial byte are 0; there are `ceil(len / 8)` bytes; and a bit removed leaves no trace. -/
def Obligations.ByteViewIsMsbFirst : Prop :=
  ∀ m : Bits,
    (∀ i (h : i < m.length), (byteView m (i / 8)).getLsbD (7 - i % 8) = m[i])
      ∧ (∀ j t, t < 8 → m.length ≤ 8 * j + t → (byteView m j).getLsbD (7 - t) = false)
      ∧ (8 * nBytes m < m.length + 8 ∧ m.length ≤ 8 * nBytes m)
      ∧ ∀ b j, byteView (m ++ [b]).dropLast j = byteView m j ∧ nBytes (m ++ [b]).dropLast = nBytes m

/-- BAPP (40_bitbuffer.md rule R101): in Idle one bit goes to the end of HDR or PAY; a full buffer is AllocationFailure, another
phase ProtocolMisuse; naming OUT is no command. -/
def Obligations.BappAppendsBit : Prop :=
  ∀ (s : State) (bit : Bool),
    (∀ buf, buf ≠ .out → s.blk.phase ≠ .idle → exec (.bapp buf bit) s = .next (faulted s .protocolMisuse))
      ∧ (s.blk.phase = .idle →
          (4096 < s.blk.hdr.length + 1 → exec (.bapp .hdr bit) s = .next (faulted s .allocationFailure))
            ∧ (s.blk.hdr.length + 1 ≤ 4096 →
                exec (.bapp .hdr bit) s = .next (answered s 0 { s.blk with hdr := s.blk.hdr ++ [bit] }))
            ∧ (s.cfg.payCapBits < s.blk.pay.length + 1 →
                exec (.bapp .pay bit) s = .next (faulted s .allocationFailure))
            ∧ (s.blk.pay.length + 1 ≤ s.cfg.payCapBits →
                exec (.bapp .pay bit) s = .next (answered s 0 { s.blk with pay := s.blk.pay ++ [bit] })))
      ∧ decode (encode (.bapp .out bit)) = .error .selector
      ∧ ∀ buf : Buf, (encode (.bapp buf bit)).toNat = 0x10000000 + buf.selector.toNat * 2 ^ 24 + bit.toNat

/-- BAPPB (rule R102): in Idle the eight bits of a byte go to the end of HDR or PAY, most significant first, or none at all. -/
def Obligations.BappbAppendsByte : Prop :=
  ∀ (s : State) (v : Byte),
    let bits := [v.getLsbD 7, v.getLsbD 6, v.getLsbD 5, v.getLsbD 4, v.getLsbD 3, v.getLsbD 2, v.getLsbD 1, v.getLsbD 0]
    (∀ buf, buf ≠ .out → s.blk.phase ≠ .idle → exec (.bappb buf v) s = .next (faulted s .protocolMisuse))
      ∧ (s.blk.phase = .idle →
          (4096 < s.blk.hdr.length + 8 → exec (.bappb .hdr v) s = .next (faulted s .allocationFailure))
            ∧ (s.blk.hdr.length + 8 ≤ 4096 →
                exec (.bappb .hdr v) s = .next (answered s 0 { s.blk with hdr := s.blk.hdr ++ bits }))
            ∧ (s.cfg.payCapBits < s.blk.pay.length + 8 →
                exec (.bappb .pay v) s = .next (faulted s .allocationFailure))
            ∧ (s.blk.pay.length + 8 ≤ s.cfg.payCapBits →
                exec (.bappb .pay v) s = .next (answered s 0 { s.blk with pay := s.blk.pay ++ bits })))
      ∧ decode (encode (.bappb .out v)) = .error .selector
      ∧ ∀ buf : Buf, (encode (.bappb buf v)).toNat = 0x14000000 + buf.selector.toNat * 2 ^ 24 + v.toNat

/-- BTRIM (rule R103): in Idle the last bit of HDR or PAY is removed; an empty buffer is OutOfRange. -/
def Obligations.BtrimRemovesLastBit : Prop :=
  ∀ s : State,
    (∀ buf, buf ≠ .out → s.blk.phase ≠ .idle → exec (.btrim buf) s = .next (faulted s .protocolMisuse))
      ∧ (s.blk.phase = .idle →
          (s.blk.hdr = [] → exec (.btrim .hdr) s = .next (faulted s .outOfRange))
            ∧ (∀ m b, s.blk.hdr = m ++ [b] → exec (.btrim .hdr) s = .next (answered s 0 { s.blk with hdr := m }))
            ∧ (s.blk.pay = [] → exec (.btrim .pay) s = .next (faulted s .outOfRange))
            ∧ (∀ m b, s.blk.pay = m ++ [b] → exec (.btrim .pay) s = .next (answered s 0 { s.blk with pay := m })))
      ∧ decode (encode (.btrim .out)) = .error .selector
      ∧ ∀ buf : Buf, (encode (.btrim buf)).toNat = 0x18000000 + buf.selector.toNat * 2 ^ 24

/-- BLEN (rule R104): the bit count of each of the three buffers, in every phase. -/
def Obligations.BlenReadsBitCount : Prop :=
  ∀ s : State,
    exec (.blen .hdr) s = .next (answered s (BitVec.ofNat 32 s.blk.hdr.length) s.blk)
      ∧ exec (.blen .pay) s = .next (answered s (BitVec.ofNat 32 s.blk.pay.length) s.blk)
      ∧ exec (.blen .out) s = .next (answered s (BitVec.ofNat 32 s.blk.out.length) s.blk)
      ∧ ∀ buf : Buf, (encode (.blen buf)).toNat = 0x1C000000 + buf.selector.toNat * 2 ^ 24

/-- BGET (rule R105): one bit of a buffer, in every phase; OutOfRange at or beyond the bit count. -/
def Obligations.BgetReadsBit : Prop :=
  ∀ (s : State) (buf : Buf) (pos : BitVec 24),
    let m := match buf with | .hdr => s.blk.hdr | .pay => s.blk.pay | .out => s.blk.out
    (m.length ≤ pos.toNat → exec (.bget buf pos) s = .next (faulted s .outOfRange))
      ∧ (∀ h : pos.toNat < m.length,
          exec (.bget buf pos) s = .next (answered s (if m[pos.toNat] then 1 else 0) s.blk))
      ∧ (encode (.bget buf pos)).toNat = 0x20000000 + buf.selector.toNat * 2 ^ 24 + pos.toNat

/-- BRDB (rule R106): one packed byte of a buffer, in every phase, bit by bit; OutOfRange at or beyond `ceil(len / 8)`. -/
def Obligations.BrdbReadsByte : Prop :=
  ∀ (s : State) (buf : Buf) (idx : BitVec 24),
    let m := match buf with | .hdr => s.blk.hdr | .pay => s.blk.pay | .out => s.blk.out
    (m.length ≤ 8 * idx.toNat → exec (.brdb buf idx) s = .next (faulted s .outOfRange))
      ∧ (8 * idx.toNat < m.length →
          ∃ d : BitVec 32, exec (.brdb buf idx) s = .next (answered s d s.blk)
            ∧ d.toNat < 256 ∧ ∀ t < 8, d.getLsbD (7 - t) = m.getD (8 * idx.toNat + t) false)
      ∧ (encode (.brdb buf idx)).toNat = 0x24000000 + buf.selector.toNat * 2 ^ 24 + idx.toNat

/-- RELENC and RELDEC (rules R107, R108): in Idle and Done they empty HDR and PAY, and OUT; elsewhere ProtocolMisuse. -/
def Obligations.ReleaseEmptiesBuffers : Prop :=
  encode .relenc = 0x28000000 ∧ encode .reldec = 0x29000000
    ∧ ∀ s : State,
      (s.blk.phase = .idle ∨ s.blk.phase = .done →
          exec .relenc s = .next (answered s 0 { s.blk with hdr := [], pay := [] })
            ∧ exec .reldec s = .next (answered s 0 { s.blk with out := [] }))
        ∧ (s.blk.phase ≠ .idle → s.blk.phase ≠ .done →
            exec .relenc s = .next (faulted s .protocolMisuse) ∧ exec .reldec s = .next (faulted s .protocolMisuse))

/-! ### Frequency table and alphabet -/

/-- COUNT (41_frequency_alphabet.md rule R120): in Idle one counter goes up by one and the others stay; a full counter is
AllocationFailure, another phase ProtocolMisuse. -/
def Obligations.CountIncrementsOneCounter : Prop :=
  ∀ (s : State) (b : Byte),
    (s.blk.phase ≠ .idle → exec (.count b) s = .next (faulted s .protocolMisuse))
      ∧ (s.blk.phase = .idle → s.blk.counter b = 2 ^ s.cfg.freqW - 1 →
          exec (.count b) s = .next (faulted s .allocationFailure))
      ∧ (s.blk.phase = .idle → s.blk.counter b ≠ 2 ^ s.cfg.freqW - 1 →
          ∃ ft : Vector Nat 256, exec (.count b) s = .next (answered s 0 { s.blk with ft := ft })
            ∧ ∀ v : Byte, ft[v.toNat]'v.isLt = if v = b then s.blk.counter b + 1 else s.blk.counter v)
      ∧ (encode (.count b)).toNat = 0x30000000 + b.toNat

/-- RDFT (rule R121): a counter, modulo 2^32, in every phase; NSYM (rule R123): the number of alphabet entries. -/
def Obligations.CounterAndSizeReads : Prop :=
  ∀ (s : State) (b : Byte),
    exec (.rdft b) s = .next (answered s (BitVec.ofNat 32 (s.blk.ft[b.toNat]'b.isLt)) s.blk)
      ∧ exec .nsym s = .next (answered s (BitVec.ofNat 32 s.blk.alpha.length) s.blk)
      ∧ (encode (.rdft b)).toNat = 0x31000000 + b.toNat ∧ encode .nsym = 0x33000000

/-- MKALPHA (rule R122): in Idle, with no alphabet, one entry for each byte value counted, with its count and an empty code,
in order (a); the frequency table stays. The guard on the alphabet comes before the phase. -/
def Obligations.MkalphaBuildsSortedAlphabet : Prop :=
  encode .mkalpha = 0x32000000
    ∧ ∀ s : State,
      (s.blk.alpha ≠ [] → exec .mkalpha s = .next (faulted s .alphabetAlreadyPopulated))
        ∧ (s.blk.alpha = [] → s.blk.phase ≠ .idle → exec .mkalpha s = .next (faulted s .protocolMisuse))
        ∧ (s.blk.alpha = [] → s.blk.phase = .idle →
            ∃ es : List Entry,
              exec .mkalpha s = .next (answered s 0 { s.blk with alpha := es, phase := .alphabetBuilt })
                ∧ es.Pairwise ltA
                ∧ ∀ e, e ∈ es ↔ e.code = [] ∧ 0 < s.blk.counter e.sym ∧ e.freq = s.blk.counter e.sym)

/-- RDSYM (rule R124): the symbol in data[7:0], the code length in data[15:8]; OutOfRange at or beyond ALPHA_N. -/
def Obligations.RdsymReadsSymbolAndLength : Prop :=
  ∀ (s : State) (i : Byte),
    (s.blk.alpha.length ≤ i.toNat → exec (.rdsym i) s = .next (faulted s .outOfRange))
      ∧ (∀ h : i.toNat < s.blk.alpha.length,
          exec (.rdsym i) s = .next (answered s
            (BitVec.ofNat 32 (256 * s.blk.alpha[i.toNat].code.length + s.blk.alpha[i.toNat].sym.toNat)) s.blk))
      ∧ (encode (.rdsym i)).toNat = 0x34000000 + i.toNat

/-- RDFREQ (rule R125): an entry's frequency, modulo 2^32; OutOfRange at or beyond ALPHA_N. -/
def Obligations.RdfreqReadsFrequency : Prop :=
  ∀ (s : State) (i : Byte),
    (s.blk.alpha.length ≤ i.toNat → exec (.rdfreq i) s = .next (faulted s .outOfRange))
      ∧ (∀ h : i.toNat < s.blk.alpha.length,
          exec (.rdfreq i) s = .next (answered s (BitVec.ofNat 32 s.blk.alpha[i.toNat].freq) s.blk))
      ∧ (encode (.rdfreq i)).toNat = 0x35000000 + i.toNat

/-- CGET (rule R126): one bit of an entry's code; OutOfRange past the alphabet or past the code. -/
def Obligations.CgetReadsCodeBit : Prop :=
  ∀ (s : State) (i pos : Byte),
    (s.blk.alpha.length ≤ i.toNat → exec (.cget i pos) s = .next (faulted s .outOfRange))
      ∧ (∀ h : i.toNat < s.blk.alpha.length,
          (s.blk.alpha[i.toNat].code.length ≤ pos.toNat → exec (.cget i pos) s = .next (faulted s .outOfRange))
            ∧ ∀ g : pos.toNat < s.blk.alpha[i.toNat].code.length,
                exec (.cget i pos) s
                  = .next (answered s (if s.blk.alpha[i.toNat].code[pos.toNat] then 1 else 0) s.blk))
      ∧ (encode (.cget i pos)).toNat = 0x36000000 + i.toNat * 2 ^ 8 + pos.toNat

/-! ### The tree builder -/

/-- HeapInsert (42_tree_builder.md rules R141, R142): the queue gains the node and keeps the heap property. Rule R142 derives
the property without a premise; it needs the one stated here, that no queued internal node is heavier than the node that goes
in, which holds in MKTREE. -/
def Obligations.HeapInsertKeepsHeap : Prop :=
  ∀ (b : Block) (n : Nat),
    (∀ m ∈ b.heap, ((b.nodes[m]?).bind (Node.symbol b.alpha)).isNone → freqAt b.nodes m ≤ freqAt b.nodes n) →
      HeapOrdered b →
        HeapOrdered (b.heapInsert n)
          ∧ (b.heapInsert n).heap.Perm (n :: b.heap)
          ∧ b.heapInsert n = { b with heap := (b.heapInsert n).heap }

/-- HeapExtractMin (rule R142): the queue loses one node, the lightest, which is slot 0's, and keeps the heap property; of a
queue that is empty it is not defined. In a queue of leaves only, no queued node is less than the one that leaves: of two leaves
of equal frequency the one with the smaller symbol goes first (rule R140). -/
def Obligations.HeapExtractMinTakesLeast : Prop :=
  ∀ b : Block,
    (b.heap = [] → b.heapExtractMin = none)
      ∧ (b.heap ≠ [] → (∀ m ∈ b.heap, m < b.nodes.length) → HeapOrdered b →
          ∃ r h, b.heapExtractMin = some (r, { b with heap := h })
            ∧ b.heap.head? = some r
            ∧ b.heap.Perm (r :: h)
            ∧ HeapOrdered { b with heap := h }
            ∧ (∀ m ∈ b.heap, freqAt b.nodes r ≤ freqAt b.nodes m)
            ∧ ((∀ m ∈ b.heap, ((b.nodes[m]?).bind (Node.symbol b.alpha)).isSome) → ∀ m ∈ b.heap, b.less m r = false))

/-- MKTREE (rules R143, R144 (i) to (v)): over an alphabet of N entries, a binary tree of 2N - 1 nodes, leaf `i` for entry `i`,
every later node made of the two lightest then queued, the last node the root, no leaf deeper than N - 1; nothing overflows
NODE_W. With the alphabet in order (a) the first merge takes leaf 0 and then leaf 1, whatever their frequencies: leaves of equal
frequency leave the queue by symbol (rule R140). An empty alphabet is TreeConstructionFailed. -/
def Obligations.MktreeBuildsHuffmanTree : Prop :=
  encode .mktree = 0x40000000
    ∧ ∀ s : State,
      (s.blk.phase ≠ .alphabetBuilt → exec .mktree s = .next (faulted s .protocolMisuse))
        ∧ (s.blk.phase = .alphabetBuilt → s.blk.alpha = [] →
            exec .mktree s = .next (faulted s .treeConstructionFailed))
        ∧ (s.blk.phase = .alphabetBuilt → s.blk.alpha ≠ [] →
            ∃ (nodes : List Node) (root : Nat),
              exec .mktree s = .next (answered s 0
                  { s.blk with nodes := nodes, heap := [], root := some root, phase := .treeBuilt })
                ∧ TreeOver s.blk.alpha nodes root
                ∧ GreedyMerges nodes
                ∧ (2 ≤ s.blk.alpha.length → s.blk.alpha.Pairwise ltA →
                    ∃ f, nodes[s.blk.alpha.length]? = some (.internal f 0 1))
                ∧ (∀ path n, follow nodes root path = some n → path.length + 1 ≤ s.blk.alpha.length)
                ∧ (s.blk.alpha.length ≤ 256 → (∀ e ∈ s.blk.alpha, e.freq < 2 ^ s.cfg.freqW) →
                    ∀ n ∈ nodes, n.freq < 2 ^ s.cfg.nodeW))

/-- ASSIGN (rules R145, R146, R147): every entry gets the path from the root to its leaf as its code, 0 left and 1 right, a
single entry the code "0"; the codes have length 1 to 255, are prefix free, and complete for two entries or more; the entries
keep their order, symbols and frequencies, and the tree is discarded. -/
def Obligations.AssignGivesLeafPaths : Prop :=
  encode .assign = 0x41000000
    ∧ ∀ s : State,
      (s.blk.phase ≠ .treeBuilt → exec .assign s = .next (faulted s .protocolMisuse))
        ∧ ∀ root, s.blk.phase = .treeBuilt → s.blk.root = some root → TreeOver s.blk.alpha s.blk.nodes root →
            s.blk.alpha.length ≤ 256 →
            ∃ es : List Entry,
              exec .assign s = .next (answered s 0
                  { s.blk with
                    alpha := es, nodes := [], heap := [], root := none, trav := [], phase := .codesAssigned })
                ∧ es.map (fun e => (e.sym, e.freq)) = s.blk.alpha.map (fun e => (e.sym, e.freq))
                ∧ HuffmanCodes es
                ∧ (2 ≤ es.length → ∀ p ∈ es.zipIdx, follow s.blk.nodes root p.1.code = some p.2)

/-- The tree is optimal (rule R144 (vi), which the spec takes from general knowledge): MKTREE and ASSIGN both answer OK, the
entries keep their order, symbols and frequencies, their code lengths are at least 1 and meet Kraft's inequality (and are those of
Huffman codes, for an alphabet within its capacity), and their frequency-weighted length is the least that any code lengths can
have which meet Kraft's inequality. -/
def Obligations.CodeLengthsAreOptimal : Prop :=
  ∀ s : State, s.blk.phase = .alphabetBuilt → s.blk.alpha ≠ [] →
    ∃ b c : Block,
      exec .mktree s = .next (answered s 0 b)
        ∧ exec .assign (answered s 0 b) = .next (answered (answered s 0 b) 0 c)
        ∧ c.alpha.map (fun e => (e.sym, e.freq)) = s.blk.alpha.map (fun e => (e.sym, e.freq))
        ∧ (s.blk.alpha.length ≤ 256 → HuffmanCodes c.alpha)
        ∧ (∀ e ∈ c.alpha, 1 ≤ e.code.length)
        ∧ (c.alpha.map (fun e => (1 / 2 : ℚ) ^ e.code.length)).sum ≤ 1
        ∧ ∀ ls : List Nat, ls.length = s.blk.alpha.length → (∀ l ∈ ls, 1 ≤ l) →
            (ls.map (fun l => (1 / 2 : ℚ) ^ l)).sum ≤ 1 →
            cost c.alpha ≤ (List.zipWith (fun e l => e.freq * l) s.blk.alpha ls).sum

/-! ### The canonical transformer and the header -/

/-- CANON (43_canonical.md rules R160 to R163): the entries go into order (b), each with its symbol, frequency and code length,
and get the canonical codes, which are prefix free, rise as binary fractions, and end with all ones for two entries or more. -/
def Obligations.CanonNumbersCodes : Prop :=
  encode .canon = 0x50000000
    ∧ ∀ s : State,
      (s.blk.phase ≠ .codesAssigned → exec .canon s = .next (faulted s .protocolMisuse))
        ∧ (s.blk.phase = .codesAssigned → s.blk.alpha ≠ [] → (s.blk.alpha.map Entry.sym).Nodup →
            HuffmanCodes s.blk.alpha →
            ∃ es : List Entry,
              exec .canon s = .next (answered s 0 { s.blk with alpha := es, phase := .canonicalized })
                ∧ (es.map (fun e => (e.sym, e.freq, e.code.length))).Perm
                    (s.blk.alpha.map (fun e => (e.sym, e.freq, e.code.length)))
                ∧ es.Pairwise ltB
                ∧ CanonicallyNumbered es
                ∧ PrefixFree es
                ∧ FractionsRise es
                ∧ (2 ≤ es.length → ∀ e ∈ es.getLast?, ∀ b ∈ e.code, b = true))

/-- SERHDR (rules R164, R165, 20_memory.md rule R62, 10_state.md rule R30): HDR gets maxBits, the count of the codes of each
length and the symbols, a byte each; LUT gets the index of each symbol; a count that does not fit its byte is
Unrepresentable. -/
def Obligations.SerhdrWritesHeader : Prop :=
  encode .serhdr = 0x51000000
    ∧ ∀ s : State, s.blk.hdr = [] → s.blk.pay = [] →
      (s.blk.phase ≠ .canonicalized → exec .serhdr s = .next (faulted s .protocolMisuse))
        ∧ (s.blk.phase = .canonicalized → s.blk.alpha = [] → exec .serhdr s = .next (faulted s .protocolMisuse))
        ∧ ∀ last, s.blk.phase = .canonicalized → s.blk.alpha.getLast? = some last → last.code.length ≤ 255 →
            let mb := last.code.length
            let cnt := fun k => (s.blk.alpha.filter (fun e => e.code.length == k)).length
            ((∃ k, 1 ≤ k ∧ k ≤ mb ∧ 255 < cnt k) → exec .serhdr s = .next (faulted s .unrepresentable))
              ∧ ((∀ k, 1 ≤ k → k ≤ mb → cnt k ≤ 255) →
                  ∃ (hdr : Bits) (lut : Vector (Option Nat) 256),
                    exec .serhdr s = .next (answered s 0
                        { s.blk with hdr := hdr, lut := lut, phase := .headerSerialized })
                      ∧ hdr.length = 8 * (1 + mb + s.blk.alpha.length)
                      ∧ (byteView hdr 0).toNat = mb
                      ∧ (∀ k, 1 ≤ k → k ≤ mb → (byteView hdr k).toNat = cnt k)
                      ∧ (∀ j (h : j < s.blk.alpha.length), byteView hdr (1 + mb + j) = s.blk.alpha[j].sym)
                      ∧ ((s.blk.alpha.map Entry.sym).Nodup → ∀ (v : Byte) (i : Nat),
                          lut[v.toNat]'v.isLt = some i ↔ (s.blk.alpha[i]?).map Entry.sym = some v))

/-- Unrepresentable "happens for exactly one length distribution, all 256 symbols with codes of 8 bits" (rule R164,
90_conflicts.md C1). -/
def Obligations.UnrepresentableOnlyFor256EqualCodes : Prop :=
  ∀ s : State, Inv s → s.blk.phase = .canonicalized → s.blk.hdr = [] → s.blk.pay = [] →
    (exec .serhdr s = .next (faulted s .unrepresentable)
      ↔ s.blk.alpha.length = 256 ∧ ∀ e ∈ s.blk.alpha, e.code.length = 8)

/-- PARSE (rule R166), exactly: in Idle, the empty header is accepted with the empty payload only; another header is accepted
exactly when its bit count is 8 times `1 + maxBits + N`, with N the sum of its count bytes; everything else is
CorruptHeader. -/
def Obligations.ParseChecksHeaderSize : Prop :=
  encode .parse = 0x52000000
    ∧ ∀ s : State,
      let hb := fun j => (byteView s.blk.hdr j).toNat
      let n := ((List.range (hb 0)).map (fun k => hb (k + 1))).sum
      (s.blk.phase ≠ .idle → exec .parse s = .next (faulted s .protocolMisuse))
        ∧ (s.blk.phase = .idle → s.blk.hdr = [] → s.blk.pay = [] →
            exec .parse s = .next (answered s 0
              { s.blk with hdrMaxbits := 0, hdrN := 0, phase := .headerParsed }))
        ∧ (s.blk.phase = .idle → s.blk.hdr = [] → s.blk.pay ≠ [] → exec .parse s = .next (faulted s .corruptHeader))
        ∧ (s.blk.phase = .idle → s.blk.hdr ≠ [] → s.blk.hdr.length = 8 * (1 + hb 0 + n) →
            exec .parse s = .next (answered s 0
              { s.blk with hdrMaxbits := hb 0, hdrN := n, phase := .headerParsed }))
        ∧ (s.blk.phase = .idle → s.blk.hdr ≠ [] → s.blk.hdr.length ≠ 8 * (1 + hb 0 + n) →
            exec .parse s = .next (faulted s .corruptHeader))

/-- DESER (rule R167): from a parsed header that claims no more than the code space, the symbols in file order with frequency 0
and the canonical codes of the declared lengths; more than 256 symbols is AllocationFailure; a header that claims more than
the code space is CorruptHeader. -/
def Obligations.DeserRebuildsCodes : Prop :=
  encode .deser = 0x53000000
    ∧ ∀ s : State,
      (s.blk.alpha ≠ [] → exec .deser s = .next (faulted s .alphabetAlreadyPopulated))
        ∧ (s.blk.alpha = [] → s.blk.phase ≠ .headerParsed → exec .deser s = .next (faulted s .protocolMisuse))
        ∧ (Inv s → s.blk.phase = .headerParsed → 256 < s.blk.hdrN →
            exec .deser s = .next (faulted s .allocationFailure))
        ∧ (Inv s → s.blk.phase = .headerParsed → s.blk.hdrN ≤ 256 →
            2 ^ s.blk.hdrMaxbits < claimedSpace s.blk.hdr s.blk.hdrMaxbits →
            exec .deser s = .next (faulted s .corruptHeader))
        ∧ (Inv s → s.blk.phase = .headerParsed → s.blk.hdrN ≤ 256 →
            claimedSpace s.blk.hdr s.blk.hdrMaxbits ≤ 2 ^ s.blk.hdrMaxbits →
            ∃ es : List Entry,
              exec .deser s = .next (answered s 0 { s.blk with alpha := es, phase := .alphabetReconstructed })
                ∧ es.length = s.blk.hdrN
                ∧ (∀ p ∈ es.zipIdx, p.1.freq = 0 ∧ p.1.sym = byteView s.blk.hdr (1 + s.blk.hdrMaxbits + p.2))
                ∧ es.map (fun e => e.code.length) = declaredLengths s.blk.hdr s.blk.hdrMaxbits
                ∧ CanonicallyNumbered es)

/-- "DESER assigns the codes CANON assigned" (rule R168): of a header that SERHDR wrote, PARSE and DESER give back the same
symbols and codes in the same order, with frequency 0. -/
def Obligations.DeserRestoresCanonicalAlphabet : Prop :=
  ∀ s h d : State, Inv s → s.blk.phase = .canonicalized → exec .serhdr s = .next h →
    h.blk.phase = .headerSerialized →
    d.blk.phase = .idle → d.blk.alpha = [] → d.blk.hdr = h.blk.hdr →
      ∃ u v, exec .parse d = .next u ∧ exec .deser u = .next v
        ∧ v.blk.phase = .alphabetReconstructed
        ∧ v.blk.alpha = s.blk.alpha.map (fun e => { e with freq := 0 })

/-! ### The packer and the decoder -/

/-- PACK (44_packer.md rule R181): the code of the byte's entry goes to the end of PAY, first bit first, whole or not at all; a
byte without an entry is ProtocolMisuse. -/
def Obligations.PackAppendsCode : Prop :=
  ∀ (s : State) (b : Byte),
    (s.blk.phase ≠ .headerSerialized → exec (.pack b) s = .next (faulted s .protocolMisuse))
      ∧ (s.blk.phase = .headerSerialized → s.blk.lookup b = none →
          exec (.pack b) s = .next (faulted s .protocolMisuse))
      ∧ (∀ i (h : i < s.blk.alpha.length), s.blk.phase = .headerSerialized → s.blk.lookup b = some i →
          (s.cfg.payCapBits < s.blk.pay.length + s.blk.alpha[i].code.length →
              exec (.pack b) s = .next (faulted s .allocationFailure))
            ∧ (s.blk.pay.length + s.blk.alpha[i].code.length ≤ s.cfg.payCapBits →
                exec (.pack b) s = .next (answered s 0 { s.blk with pay := s.blk.pay ++ s.blk.alpha[i].code })))
      ∧ (encode (.pack b)).toNat = 0x60000000 + b.toNat

/-- LUT stands for a linear scan of ALPHA (rule R180): PACK appends the code of the entry whose symbol is the byte, and faults
with ProtocolMisuse exactly for a byte that no entry has. -/
def Obligations.PackFindsEntryBySymbol : Prop :=
  ∀ (s : State) (b : Byte), Inv s → s.blk.phase = .headerSerialized →
    ((∀ e ∈ s.blk.alpha, e.sym ≠ b) → exec (.pack b) s = .next (faulted s .protocolMisuse))
      ∧ ∀ e ∈ s.blk.alpha, e.sym = b →
          exec (.pack b) s =
            if s.blk.pay.length + e.code.length ≤ s.cfg.payCapBits
            then .next (answered s 0 { s.blk with pay := s.blk.pay ++ e.code })
            else .next (faulted s .allocationFailure)

/-- PACKEND (rule R182): it writes nothing but PHASE. -/
def Obligations.PackendWritesOnlyPhase : Prop :=
  encode .packend = 0x61000000
    ∧ ∀ s : State,
      (s.blk.phase ≠ .headerSerialized → exec .packend s = .next (faulted s .protocolMisuse))
        ∧ (s.blk.phase = .headerSerialized →
            exec .packend s = .next (answered s 0 { s.blk with phase := .payloadSerialized }))

/-- MKLOOK (45_decoder.md rule R190): DT becomes the map from the position of each code to its symbol; a maxBits above
DEC_MAXBITS is AllocationFailure. That the map is held as a list in canonical form, positions strictly rising, is the model's
choice (assumption log 8, DESIGN CHOICE: how DT is stored does not show, 10_state.md rule R35). -/
def Obligations.MklookMapsCodePositions : Prop :=
  encode .mklook = 0x70000000
    ∧ ∀ s : State,
      (s.blk.phase ≠ .alphabetReconstructed → exec .mklook s = .next (faulted s .protocolMisuse))
        ∧ (s.blk.phase = .alphabetReconstructed → s.cfg.decMaxbits < s.blk.hdrMaxbits →
            exec .mklook s = .next (faulted s .allocationFailure))
        ∧ (s.blk.phase = .alphabetReconstructed → s.blk.hdrMaxbits ≤ s.cfg.decMaxbits →
            ∃ dt : List (Nat × Byte),
              exec .mklook s = .next (answered s 0 { s.blk with dt := dt, phase := .lookupBuilt })
                ∧ Dt.wf dt
                ∧ ∀ pos, Dt.get dt pos =
                    ((s.blk.alpha.filter (fun e => codePosition e.code == pos)).getLast?).map Entry.sym)

/-- Positions (rule R190): a code of length `d` lands between `2^d - 1` and `2^(d+1) - 2`; different codes land on different
positions; and the codes DESER made are prefix free, so no entry's position is on the path to another's. -/
def Obligations.CodePositionsDistinct : Prop :=
  (∀ c : Bits, 2 ^ c.length - 1 ≤ codePosition c ∧ codePosition c ≤ 2 ^ (c.length + 1) - 2)
    ∧ (∀ c d : Bits, codePosition c = codePosition d → c = d)
    ∧ ∀ s : State, Inv s → rebuiltPhase s.blk.phase = true →
        PrefixFree s.blk.alpha ∧ ∀ e ∈ s.blk.alpha, codePosition e.code < 2 ^ (s.blk.hdrMaxbits + 1) - 1

/-- DECODE (rule R191), exactly: a payload that is codes one after the other decodes to their symbols, unless there are more
than OUT_CAP_BYTES; more decoded bytes than that is AllocationFailure wherever the payload ends; every other payload is
CorruptHeader; OUT stays empty on a fault. -/
def Obligations.DecodeInvertsPacking : Prop :=
  encode .decode = 0x71000000
    ∧ ∀ s : State,
      (s.blk.out = [] → s.blk.phase ≠ .lookupBuilt → exec .decode s = .next (faulted s .protocolMisuse))
        ∧ (Inv s → s.blk.phase = .lookupBuilt → s.blk.out = [] →
            (∀ es : List Entry, (∀ e ∈ es, e ∈ s.blk.alpha) → s.blk.pay = es.flatMap Entry.code →
                es.length ≤ s.cfg.outCapBytes →
                exec .decode s = .next (answered s 0
                  { s.blk with
                    out := (es.map Entry.sym).flatMap (fun v => bitsOf v.toNat 8), phase := .payloadDecoded }))
              ∧ (∀ (es : List Entry) (rest : Bits), (∀ e ∈ es, e ∈ s.blk.alpha) →
                  s.blk.pay = es.flatMap Entry.code ++ rest → s.cfg.outCapBytes < es.length →
                  exec .decode s = .next (faulted s .allocationFailure))
              ∧ ((∀ es : List Entry, (∀ e ∈ es, e ∈ s.blk.alpha) → s.blk.pay ≠ es.flatMap Entry.code) →
                  (∀ (es : List Entry) (rest : Bits), (∀ e ∈ es, e ∈ s.blk.alpha) →
                    s.blk.pay = es.flatMap Entry.code ++ rest → es.length ≤ s.cfg.outCapBytes) →
                  exec .decode s = .next (faulted s .corruptHeader)))

/-- The round trip (rule R192), over words at the port: from Idle with clear counters, empty buffers and no fault latched, the
encode sequence of 46_system.md rule R208 on any message, RETIRE and the decode sequence run to their end; if no command
faulted (ERR is still 0) OUT holds the message's bytes; and the first fault, if there is one, is AllocationFailure or
Unrepresentable. -/
def Obligations.EncodeThenDecodeRoundTrip : Prop :=
  ∀ (s : State) (m : List Byte), Inv s → s.blk.phase = .idle → s.blk.err = .ok →
    s.blk.ft = Vector.replicate 256 0 → s.blk.hdr = [] → s.blk.pay = [] → s.blk.out = [] →
      let cmds := (Pseudo.encode m).expand ++ .retire :: Pseudo.decodeall.expand
      ∃ t : State, Host.Core.run Sys2Proof.core cmds.length (loaded s cmds) = .next t
        ∧ t.pending = []
        ∧ t.rsps.length = s.rsps.length + cmds.length
        ∧ (t.blk.err = .ok → t.blk.phase = .done ∧ t.blk.out = m.flatMap (fun v => bitsOf v.toNat 8))
        ∧ (t.blk.err = .ok ∨ t.blk.err = .allocationFailure ∨ t.blk.err = .unrepresentable)

/-! ### System commands -/

/-- ABORT (46_system.md rules R202, R207, 60_exceptions.md rule R230): from any state, Idle with the transient state clear; it
keeps HDR, PAY, OUT and ERR and cannot fault. -/
def Obligations.AbortClearsTransientState : Prop :=
  encode .abort = 0x02000000
    ∧ ∀ s : State, exec .abort s = .next (answered s 0
        { s.blk with
          ft := Vector.replicate 256 0, alpha := [], nodes := [], heap := [], root := none, trav := [],
          lut := Vector.replicate 256 none, dt := [], hdrMaxbits := 0, hdrN := 0, phase := .idle })

/-- FINISH (rules R203, R207): after a serialised or decoded payload, or for the zero-length message, the transient state is
cleared and the phase is Done; anywhere else ProtocolMisuse. -/
def Obligations.FinishReleasesTransientState : Prop :=
  encode .finish = 0x03000000
    ∧ ∀ s : State,
      let ready := s.blk.phase = .payloadSerialized ∨ s.blk.phase = .payloadDecoded
        ∨ (s.blk.phase = .alphabetBuilt ∧ s.blk.alpha = [])
      (¬ ready → exec .finish s = .next (faulted s .protocolMisuse))
        ∧ (ready → exec .finish s = .next (answered s 0
            { s.blk with
              ft := Vector.replicate 256 0, alpha := [], nodes := [], heap := [], root := none, trav := [],
              lut := Vector.replicate 256 none, dt := [], hdrMaxbits := 0, hdrN := 0, phase := .done }))

/-- RETIRE (rule R204): from Done to Idle, and nothing else changes; anywhere else ProtocolMisuse. -/
def Obligations.RetireLeavesDone : Prop :=
  encode .retire = 0x04000000
    ∧ ∀ s : State,
      (s.blk.phase ≠ .done → exec .retire s = .next (faulted s .protocolMisuse))
        ∧ (s.blk.phase = .done → exec .retire s = .next (answered s 0 { s.blk with phase := .idle }))

/-- RDPHASE and RDERR (rules R205, R206) give the 4-bit code of rule R21 and the status code of rule R220, in every phase, and
do not clear them. -/
def Obligations.StatusReadsGiveCodes : Prop :=
  encode .rdphase = 0x05000000 ∧ encode .rderr = 0x06000000
    ∧ ∀ s : State,
      (∃ n : Nat,
          [Phase.idle, .alphabetBuilt, .treeBuilt, .codesAssigned, .canonicalized, .headerSerialized, .payloadSerialized,
            .done, .headerParsed, .alphabetReconstructed, .lookupBuilt, .payloadDecoded][n]? = some s.blk.phase
          ∧ exec .rdphase s = .next (answered s (BitVec.ofNat 32 n) s.blk))
        ∧ ∃ n : Nat,
          [Status.ok, .allocationFailure, .treeConstructionFailed, .alphabetAlreadyPopulated,
            .encodedMessageAlreadyPopulated, .decodedMessageAlreadyPopulated, .corruptHeader, .protocolMisuse, .outOfRange,
            .unrepresentable, .illegalCommand][n]? = some s.blk.err
          ∧ exec .rderr s = .next (answered s (BitVec.ofNat 32 n) s.blk)

/-! ### The invariant -/

/-- The reset state, whose parameters are the model's choice (assumption log 1, DESIGN CHOICE: rule R7's defaults), meets the
invariant. -/
def Obligations.ResetMeetsInvariant : Prop := Inv State.reset

/-- Every step keeps the invariant (10_state.md rule R39, with the capacities, orders and guarantees the other rules give):
every command word, legal or not, the reset input, and the idle step (the last two as the model has them, assumption log 2 and 4,
DESIGN CHOICE), from every state that meets it. -/
def Obligations.StepKeepsInvariant : Prop := ∀ s t : State, Inv s → step s = .next t → Inv t

/-- "The step is a total, deterministic function" (00_scope.md rule R15): from every state that meets the invariant every step
answers a next state; no case in which the pseudocode would have no value is ever met. With nothing at the port the step is the
model's idle step (assumption log 2, DESIGN CHOICE). -/
def Obligations.StepNeverStops : Prop := ∀ s : State, Inv s → ∃ t, step s = .next t

/-! ### Ties in the priority queue -/

/-- The comparator (rule R140), by the kind of the two nodes: a smaller frequency is less; of two leaves of equal frequency the one
whose entry has the smaller symbol; an internal node of equal frequency is tied with everything. It is a strict partial order,
and it is not total. -/
def Obligations.LessComparesFrequencyThenLeafSymbol : Prop :=
  (∀ (b : Block) (p q f g : Nat),
      (∀ i j e d, b.nodes[p]? = some (.leaf f i) → b.nodes[q]? = some (.leaf g j) →
          b.alpha[i]? = some e → b.alpha[j]? = some d →
          (b.less p q = true ↔ f < g ∨ (f = g ∧ e.sym.toNat < d.sym.toNat)))
        ∧ (∀ i l r, b.nodes[p]? = some (.leaf f i) → b.nodes[q]? = some (.internal g l r) →
            (b.less p q = true ↔ f < g) ∧ (b.less q p = true ↔ g < f))
        ∧ (∀ l r l' r', b.nodes[p]? = some (.internal f l r) → b.nodes[q]? = some (.internal g l' r') →
            (b.less p q = true ↔ f < g)))
    ∧ (∀ (b : Block) (p : Nat), b.less p p = false)
    ∧ (∀ (b : Block) (p q r : Nat), b.less p q = true → b.less q r = true → b.less p r = true)
    ∧ ∃ (b : Block) (p q : Nat), p < b.nodes.length ∧ q < b.nodes.length ∧ p ≠ q
        ∧ b.less p q = false ∧ b.less q p = false

/-- Leaf insertion (rule R143): "leaves inserted in order (a) never sift up, since each is not less than every earlier one, so
after the insertion loop HEAP[i] = i". -/
def Obligations.LeavesInOrderNeverSiftUp : Prop :=
  ∀ b : Block, b.alpha.Pairwise ltA →
    { b with nodes := [], heap := [] }.insertLeaves =
      { b with
        nodes := b.alpha.zipIdx.map (fun p => .leaf p.1.freq p.2)
        heap := List.range b.alpha.length }

/-- Ties (rules R141, R142): a new node that is not less than its parent, tied with it or not, stays below it; and when a node
leaves, the root becomes the last node unless a child is strictly less, the right child only if it is less than the left one. -/
def Obligations.TiesStayBelowAndPreferLeft : Prop :=
  (∀ (b : Block) (n : Nat),
      (∀ p, b.heap[(b.heap.length - 1) / 2]? = some p → b.less n p = false) →
        b.heapInsert n = { b with heap := b.heap ++ [n] })
    ∧ ∀ (b : Block) (r x y l : Nat) (rest : List Nat), b.heap = r :: x :: y :: (rest ++ [l]) →
        ∃ h : List Nat, b.heapExtractMin = some (r, { b with heap := h })
          ∧ h.head? = some
              (if b.less x l = true then if b.less y x = true then y else x
                else if b.less y l = true then y else l)

/-! ### The orders of the alphabet -/

/-- ALPHA's orders (10_state.md rule R25), in every state that meets the invariant: order (a), with distinct symbols, from
AlphabetBuilt to CodesAssigned; order (b), with distinct symbols, from Canonicalized to PayloadSerialized; after DESER ascending
by code length, and in order (b) exactly when the header's symbol list is in the order of the wire format (20_memory.md rule
R62), strictly so for symbols distinct within a length; every header that SERHDR wrote is such a one (43_canonical.md rules R167,
R168). R25 says order (b) after DESER without naming the wire format's order; that it is said of headers that have it is the
model's reading (assumption log 17, DEDUCED). -/
def Obligations.AlphabetOrders : Prop :=
  ∀ s : State, Inv s →
    (s.blk.phase = .alphabetBuilt ∨ s.blk.phase = .treeBuilt ∨ s.blk.phase = .codesAssigned →
        s.blk.alpha.Pairwise ltA ∧ (s.blk.alpha.map Entry.sym).Nodup)
      ∧ (s.blk.phase = .canonicalized ∨ s.blk.phase = .headerSerialized ∨ s.blk.phase = .payloadSerialized →
          s.blk.alpha.Pairwise ltB ∧ (s.blk.alpha.map Entry.sym).Nodup)
      ∧ (s.blk.phase = .alphabetReconstructed ∨ s.blk.phase = .lookupBuilt ∨ s.blk.phase = .payloadDecoded →
          s.blk.alpha.Pairwise (fun x y => x.code.length ≤ y.code.length)
            ∧ (s.blk.alpha.Pairwise orderB ↔ SymbolsOrdered (· ≤ ·) s.blk.hdr s.blk.hdrMaxbits)
            ∧ (s.blk.alpha.Pairwise ltB ↔ SymbolsOrdered (· < ·) s.blk.hdr s.blk.hdrMaxbits)
            ∧ ∀ h : State, Inv h → h.blk.phase = .headerSerialized ∨ h.blk.phase = .payloadSerialized →
                s.blk.hdr = h.blk.hdr → s.blk.alpha.Pairwise ltB ∧ (s.blk.alpha.map Entry.sym).Nodup)
end

