-- ==== Sys2Proof/Laws/State.lean ====
section
/-! SUPPORT. One lemma per field per named update of the state, true by rfl, so that no later proof unfolds an update. -/

namespace Sys2Proof.Machine

open Sys2Proof.Safety

/-! ### `Block.latch` writes ERR -/

@[simp] theorem latch_phase (b : Block) (f : Status) : (b.latch f).phase = b.phase := rfl
@[simp] theorem latch_ft (b : Block) (f : Status) : (b.latch f).ft = b.ft := rfl
@[simp] theorem latch_alpha (b : Block) (f : Status) : (b.latch f).alpha = b.alpha := rfl
@[simp] theorem latch_nodes (b : Block) (f : Status) : (b.latch f).nodes = b.nodes := rfl
@[simp] theorem latch_heap (b : Block) (f : Status) : (b.latch f).heap = b.heap := rfl
@[simp] theorem latch_root (b : Block) (f : Status) : (b.latch f).root = b.root := rfl
@[simp] theorem latch_trav (b : Block) (f : Status) : (b.latch f).trav = b.trav := rfl
@[simp] theorem latch_lut (b : Block) (f : Status) : (b.latch f).lut = b.lut := rfl
@[simp] theorem latch_hdr (b : Block) (f : Status) : (b.latch f).hdr = b.hdr := rfl
@[simp] theorem latch_pay (b : Block) (f : Status) : (b.latch f).pay = b.pay := rfl
@[simp] theorem latch_out (b : Block) (f : Status) : (b.latch f).out = b.out := rfl
@[simp] theorem latch_hdrMaxbits (b : Block) (f : Status) : (b.latch f).hdrMaxbits = b.hdrMaxbits := rfl
@[simp] theorem latch_hdrN (b : Block) (f : Status) : (b.latch f).hdrN = b.hdrN := rfl
@[simp] theorem latch_dt (b : Block) (f : Status) : (b.latch f).dt = b.dt := rfl

theorem latch_err (b : Block) (f : Status) : (b.latch f).err = if b.err = .ok then f else b.err := rfl

/-! ### `Block.setCounter` writes FT -/

@[simp] theorem setCounter_phase (b : Block) (v : Byte) (n : Nat) : (b.setCounter v n).phase = b.phase := rfl
@[simp] theorem setCounter_err (b : Block) (v : Byte) (n : Nat) : (b.setCounter v n).err = b.err := rfl
@[simp] theorem setCounter_alpha (b : Block) (v : Byte) (n : Nat) : (b.setCounter v n).alpha = b.alpha := rfl
@[simp] theorem setCounter_nodes (b : Block) (v : Byte) (n : Nat) : (b.setCounter v n).nodes = b.nodes := rfl
@[simp] theorem setCounter_heap (b : Block) (v : Byte) (n : Nat) : (b.setCounter v n).heap = b.heap := rfl
@[simp] theorem setCounter_root (b : Block) (v : Byte) (n : Nat) : (b.setCounter v n).root = b.root := rfl
@[simp] theorem setCounter_trav (b : Block) (v : Byte) (n : Nat) : (b.setCounter v n).trav = b.trav := rfl
@[simp] theorem setCounter_lut (b : Block) (v : Byte) (n : Nat) : (b.setCounter v n).lut = b.lut := rfl
@[simp] theorem setCounter_hdr (b : Block) (v : Byte) (n : Nat) : (b.setCounter v n).hdr = b.hdr := rfl
@[simp] theorem setCounter_pay (b : Block) (v : Byte) (n : Nat) : (b.setCounter v n).pay = b.pay := rfl
@[simp] theorem setCounter_out (b : Block) (v : Byte) (n : Nat) : (b.setCounter v n).out = b.out := rfl
@[simp] theorem setCounter_hdrMaxbits (b : Block) (v : Byte) (n : Nat) : (b.setCounter v n).hdrMaxbits = b.hdrMaxbits := rfl
@[simp] theorem setCounter_hdrN (b : Block) (v : Byte) (n : Nat) : (b.setCounter v n).hdrN = b.hdrN := rfl
@[simp] theorem setCounter_dt (b : Block) (v : Byte) (n : Nat) : (b.setCounter v n).dt = b.dt := rfl

/-- A counter reads what was last written to it, and every other counter what it held. -/
theorem counter_setCounter (b : Block) (v u : Byte) (n : Nat) :
    (b.setCounter v n).counter u = if u = v then n else b.counter u := by
  simp only [Block.counter, Block.setCounter, Vector.getElem_set]
  by_cases h : u = v
  · simp [h]
  · simp [h, show v.toNat ≠ u.toNat from fun e => h (BitVec.eq_of_toNat_eq e.symm)]

/-! ### `Block.clearTransient` keeps PHASE, ERR and the buffers, and clears the rest -/

@[simp] theorem clearTransient_phase (b : Block) : b.clearTransient.phase = b.phase := rfl
@[simp] theorem clearTransient_err (b : Block) : b.clearTransient.err = b.err := rfl
@[simp] theorem clearTransient_ft (b : Block) : b.clearTransient.ft = Vector.replicate 256 0 := rfl
@[simp] theorem clearTransient_alpha (b : Block) : b.clearTransient.alpha = [] := rfl
@[simp] theorem clearTransient_nodes (b : Block) : b.clearTransient.nodes = [] := rfl
@[simp] theorem clearTransient_heap (b : Block) : b.clearTransient.heap = [] := rfl
@[simp] theorem clearTransient_root (b : Block) : b.clearTransient.root = none := rfl
@[simp] theorem clearTransient_trav (b : Block) : b.clearTransient.trav = [] := rfl
@[simp] theorem clearTransient_lut (b : Block) : b.clearTransient.lut = Vector.replicate 256 none := rfl
@[simp] theorem clearTransient_hdr (b : Block) : b.clearTransient.hdr = b.hdr := rfl
@[simp] theorem clearTransient_pay (b : Block) : b.clearTransient.pay = b.pay := rfl
@[simp] theorem clearTransient_out (b : Block) : b.clearTransient.out = b.out := rfl
@[simp] theorem clearTransient_hdrMaxbits (b : Block) : b.clearTransient.hdrMaxbits = 0 := rfl
@[simp] theorem clearTransient_hdrN (b : Block) : b.clearTransient.hdrN = 0 := rfl
@[simp] theorem clearTransient_dt (b : Block) : b.clearTransient.dt = [] := rfl

/-! ### `Block.setBuffer` writes the named buffer -/

@[simp] theorem setBuffer_phase (b : Block) (buf : Buf) (m : Bits) : (b.setBuffer buf m).phase = b.phase := by
  cases buf <;> rfl
@[simp] theorem setBuffer_err (b : Block) (buf : Buf) (m : Bits) : (b.setBuffer buf m).err = b.err := by
  cases buf <;> rfl
@[simp] theorem setBuffer_ft (b : Block) (buf : Buf) (m : Bits) : (b.setBuffer buf m).ft = b.ft := by
  cases buf <;> rfl
@[simp] theorem setBuffer_alpha (b : Block) (buf : Buf) (m : Bits) : (b.setBuffer buf m).alpha = b.alpha := by
  cases buf <;> rfl
@[simp] theorem setBuffer_nodes (b : Block) (buf : Buf) (m : Bits) : (b.setBuffer buf m).nodes = b.nodes := by
  cases buf <;> rfl
@[simp] theorem setBuffer_heap (b : Block) (buf : Buf) (m : Bits) : (b.setBuffer buf m).heap = b.heap := by
  cases buf <;> rfl
@[simp] theorem setBuffer_root (b : Block) (buf : Buf) (m : Bits) : (b.setBuffer buf m).root = b.root := by
  cases buf <;> rfl
@[simp] theorem setBuffer_trav (b : Block) (buf : Buf) (m : Bits) : (b.setBuffer buf m).trav = b.trav := by
  cases buf <;> rfl
@[simp] theorem setBuffer_lut (b : Block) (buf : Buf) (m : Bits) : (b.setBuffer buf m).lut = b.lut := by
  cases buf <;> rfl
@[simp] theorem setBuffer_hdrMaxbits (b : Block) (buf : Buf) (m : Bits) : (b.setBuffer buf m).hdrMaxbits = b.hdrMaxbits := by
  cases buf <;> rfl
@[simp] theorem setBuffer_hdrN (b : Block) (buf : Buf) (m : Bits) : (b.setBuffer buf m).hdrN = b.hdrN := by
  cases buf <;> rfl
@[simp] theorem setBuffer_dt (b : Block) (buf : Buf) (m : Bits) : (b.setBuffer buf m).dt = b.dt := by
  cases buf <;> rfl

/-- A buffer reads what was last written to it, and every other buffer what it held. -/
theorem buffer_setBuffer (b : Block) (x y : Buf) (m : Bits) :
    (b.setBuffer x m).buffer y = if y = x then m else b.buffer y := by
  cases x <;> cases y <;> rfl

/-! ### `Block.heapInsert` writes HEAP, `Block.addNode` NODE and HEAP, the traversal operations TRAV -/

@[simp] theorem heapInsert_phase (b : Block) (n : Nat) : (b.heapInsert n).phase = b.phase := rfl
@[simp] theorem heapInsert_err (b : Block) (n : Nat) : (b.heapInsert n).err = b.err := rfl
@[simp] theorem heapInsert_ft (b : Block) (n : Nat) : (b.heapInsert n).ft = b.ft := rfl
@[simp] theorem heapInsert_alpha (b : Block) (n : Nat) : (b.heapInsert n).alpha = b.alpha := rfl
@[simp] theorem heapInsert_nodes (b : Block) (n : Nat) : (b.heapInsert n).nodes = b.nodes := rfl
@[simp] theorem heapInsert_root (b : Block) (n : Nat) : (b.heapInsert n).root = b.root := rfl
@[simp] theorem heapInsert_trav (b : Block) (n : Nat) : (b.heapInsert n).trav = b.trav := rfl
@[simp] theorem heapInsert_lut (b : Block) (n : Nat) : (b.heapInsert n).lut = b.lut := rfl
@[simp] theorem heapInsert_hdr (b : Block) (n : Nat) : (b.heapInsert n).hdr = b.hdr := rfl
@[simp] theorem heapInsert_pay (b : Block) (n : Nat) : (b.heapInsert n).pay = b.pay := rfl
@[simp] theorem heapInsert_out (b : Block) (n : Nat) : (b.heapInsert n).out = b.out := rfl
@[simp] theorem heapInsert_hdrMaxbits (b : Block) (n : Nat) : (b.heapInsert n).hdrMaxbits = b.hdrMaxbits := rfl
@[simp] theorem heapInsert_hdrN (b : Block) (n : Nat) : (b.heapInsert n).hdrN = b.hdrN := rfl
@[simp] theorem heapInsert_dt (b : Block) (n : Nat) : (b.heapInsert n).dt = b.dt := rfl
@[simp] theorem addNode_phase (b : Block) (x : Node) : (b.addNode x).phase = b.phase := rfl
@[simp] theorem addNode_err (b : Block) (x : Node) : (b.addNode x).err = b.err := rfl
@[simp] theorem addNode_ft (b : Block) (x : Node) : (b.addNode x).ft = b.ft := rfl
@[simp] theorem addNode_alpha (b : Block) (x : Node) : (b.addNode x).alpha = b.alpha := rfl
@[simp] theorem addNode_root (b : Block) (x : Node) : (b.addNode x).root = b.root := rfl
@[simp] theorem addNode_trav (b : Block) (x : Node) : (b.addNode x).trav = b.trav := rfl
@[simp] theorem addNode_lut (b : Block) (x : Node) : (b.addNode x).lut = b.lut := rfl
@[simp] theorem addNode_hdr (b : Block) (x : Node) : (b.addNode x).hdr = b.hdr := rfl
@[simp] theorem addNode_pay (b : Block) (x : Node) : (b.addNode x).pay = b.pay := rfl
@[simp] theorem addNode_out (b : Block) (x : Node) : (b.addNode x).out = b.out := rfl
@[simp] theorem addNode_hdrMaxbits (b : Block) (x : Node) : (b.addNode x).hdrMaxbits = b.hdrMaxbits := rfl
@[simp] theorem addNode_hdrN (b : Block) (x : Node) : (b.addNode x).hdrN = b.hdrN := rfl
@[simp] theorem addNode_dt (b : Block) (x : Node) : (b.addNode x).dt = b.dt := rfl
@[simp] theorem addNode_nodes (b : Block) (x : Node) : (b.addNode x).nodes = b.nodes ++ [x] := rfl
@[simp] theorem pushTrav_phase (b : Block) (bit : Bool) : (b.pushTrav bit).phase = b.phase := rfl
@[simp] theorem pushTrav_err (b : Block) (bit : Bool) : (b.pushTrav bit).err = b.err := rfl
@[simp] theorem pushTrav_ft (b : Block) (bit : Bool) : (b.pushTrav bit).ft = b.ft := rfl
@[simp] theorem pushTrav_alpha (b : Block) (bit : Bool) : (b.pushTrav bit).alpha = b.alpha := rfl
@[simp] theorem pushTrav_nodes (b : Block) (bit : Bool) : (b.pushTrav bit).nodes = b.nodes := rfl
@[simp] theorem pushTrav_heap (b : Block) (bit : Bool) : (b.pushTrav bit).heap = b.heap := rfl
@[simp] theorem pushTrav_root (b : Block) (bit : Bool) : (b.pushTrav bit).root = b.root := rfl
@[simp] theorem pushTrav_lut (b : Block) (bit : Bool) : (b.pushTrav bit).lut = b.lut := rfl
@[simp] theorem pushTrav_hdr (b : Block) (bit : Bool) : (b.pushTrav bit).hdr = b.hdr := rfl
@[simp] theorem pushTrav_pay (b : Block) (bit : Bool) : (b.pushTrav bit).pay = b.pay := rfl
@[simp] theorem pushTrav_out (b : Block) (bit : Bool) : (b.pushTrav bit).out = b.out := rfl
@[simp] theorem pushTrav_hdrMaxbits (b : Block) (bit : Bool) : (b.pushTrav bit).hdrMaxbits = b.hdrMaxbits := rfl
@[simp] theorem pushTrav_hdrN (b : Block) (bit : Bool) : (b.pushTrav bit).hdrN = b.hdrN := rfl
@[simp] theorem pushTrav_dt (b : Block) (bit : Bool) : (b.pushTrav bit).dt = b.dt := rfl
@[simp] theorem popTrav_phase (b : Block) : b.popTrav.phase = b.phase := rfl
@[simp] theorem popTrav_err (b : Block) : b.popTrav.err = b.err := rfl
@[simp] theorem popTrav_ft (b : Block) : b.popTrav.ft = b.ft := rfl
@[simp] theorem popTrav_alpha (b : Block) : b.popTrav.alpha = b.alpha := rfl
@[simp] theorem popTrav_nodes (b : Block) : b.popTrav.nodes = b.nodes := rfl
@[simp] theorem popTrav_heap (b : Block) : b.popTrav.heap = b.heap := rfl
@[simp] theorem popTrav_root (b : Block) : b.popTrav.root = b.root := rfl
@[simp] theorem popTrav_lut (b : Block) : b.popTrav.lut = b.lut := rfl
@[simp] theorem popTrav_hdr (b : Block) : b.popTrav.hdr = b.hdr := rfl
@[simp] theorem popTrav_pay (b : Block) : b.popTrav.pay = b.pay := rfl
@[simp] theorem popTrav_out (b : Block) : b.popTrav.out = b.out := rfl
@[simp] theorem popTrav_hdrMaxbits (b : Block) : b.popTrav.hdrMaxbits = b.hdrMaxbits := rfl
@[simp] theorem popTrav_hdrN (b : Block) : b.popTrav.hdrN = b.hdrN := rfl
@[simp] theorem popTrav_dt (b : Block) : b.popTrav.dt = b.dt := rfl
@[simp] theorem pushTrav_trav (b : Block) (bit : Bool) : (b.pushTrav bit).trav = b.trav ++ [bit] := rfl
@[simp] theorem popTrav_trav (b : Block) : b.popTrav.trav = b.trav.dropLast := rfl

/-! ### The response, the fault and the port -/

@[simp] theorem respond_cfg (s : State) (st : Status) (d : Nat) (b : Block) : (s.respond st d b).cfg = s.cfg := rfl
@[simp] theorem respond_blk (s : State) (st : Status) (d : Nat) (b : Block) : (s.respond st d b).blk = b := rfl
@[simp] theorem respond_pending (s : State) (st : Status) (d : Nat) (b : Block) : (s.respond st d b).pending = s.pending := rfl
@[simp] theorem respond_rsps (s : State) (st : Status) (d : Nat) (b : Block) : (s.respond st d b).rsps = s.rsps ++ [⟨st, BitVec.ofNat 32 d⟩] := rfl
@[simp] theorem takeFault_cfg (s : State) (f : Status) : (s.takeFault f).cfg = s.cfg := rfl
@[simp] theorem takeFault_blk (s : State) (f : Status) : (s.takeFault f).blk = s.blk.latch f := rfl
@[simp] theorem takeFault_pending (s : State) (f : Status) : (s.takeFault f).pending = s.pending := rfl
@[simp] theorem takeFault_rsps (s : State) (f : Status) : (s.takeFault f).rsps = s.rsps ++ [⟨f, 0⟩] := rfl
@[simp] theorem hardReset_cfg (s : State) : s.hardReset.cfg = s.cfg := rfl
@[simp] theorem hardReset_blk (s : State) : s.hardReset.blk = Block.reset := rfl
@[simp] theorem hardReset_pending (s : State) : s.hardReset.pending = s.pending := rfl
@[simp] theorem hardReset_rsps (s : State) : s.hardReset.rsps = s.rsps := rfl
@[simp] theorem offer_cfg (s : State) (w : Word) : (s.offer w).cfg = s.cfg := rfl
@[simp] theorem offer_blk (s : State) (w : Word) : (s.offer w).blk = s.blk := rfl
@[simp] theorem offer_pending (s : State) (w : Word) : (s.offer w).pending = .command w :: s.pending := rfl
@[simp] theorem offer_rsps (s : State) (w : Word) : (s.offer w).rsps = s.rsps := rfl

/-- The response with status OK is the `answered` of claims. -/
theorem respond_ok (s : State) (d : Nat) (b : Block) : s.respond .ok d b = answered s (BitVec.ofNat 32 d) b := rfl

/-- Taking a fault is the `faulted` of claims. -/
theorem takeFault_eq (s : State) (f : Status) : s.takeFault f = faulted s f := rfl

end Sys2Proof.Machine
end

