-- ==== Sys2Proof/Laws/Ops.lean ====
section
/-! SUPPORT. The laws of the shared operations: how a command ends, the BitMessage primitives and the byte view. -/

namespace Sys2Proof.Machine

open Sys2Proof.Safety

/-! ### How a command ends -/

@[simp] theorem conclude_ok (s : State) (d : Nat) (b : Block) :
    s.conclude (finishOk d b) = .next (answered s (BitVec.ofNat 32 d) b) := rfl

@[simp] theorem conclude_raise (s : State) (f : Status) : s.conclude (raise f) = .next (faulted s f) := rfl

@[simp] theorem conclude_stuck (s : State) (r : Fault) : s.conclude (stuck r) = .fault r := rfl

/-- Everything a command can end with: a response with OK, a fault response, or no outcome. No command is refused. -/
theorem conclude_cases (s : State) (r : Result) :
    (∃ d b, r = finishOk d b ∧ s.conclude r = .next (answered s (BitVec.ofNat 32 d) b))
      ∨ (∃ f, r = raise f ∧ s.conclude r = .next (faulted s f))
      ∨ (∃ x, r = stuck x ∧ s.conclude r = .fault x) := by
  match r with
  | .ok (d, b) => exact .inl ⟨d, b, rfl, rfl⟩
  | .error (.raise f) => exact .inr (.inl ⟨f, rfl, rfl⟩)
  | .error (.stuck x) => exact .inr (.inr ⟨x, rfl, rfl⟩)

/-- The inversion of a next state. -/
theorem conclude_next {s t : State} {r : Result} (h : s.conclude r = .next t) :
    (∃ d b, r = finishOk d b ∧ t = answered s (BitVec.ofNat 32 d) b) ∨ (∃ f, r = raise f ∧ t = faulted s f) := by
  rcases conclude_cases s r with ⟨d, b, hr, e⟩ | ⟨f, hr, e⟩ | ⟨x, -, e⟩
  · exact .inl ⟨d, b, hr, by rw [e] at h; cases h; rfl⟩
  · exact .inr ⟨f, hr, by rw [e] at h; cases h; rfl⟩
  · rw [e] at h; cases h

@[simp] theorem finishOk_ne_raise (d : Nat) (b : Block) (f : Status) : (finishOk d b = raise f) = False := by
  simp [finishOk, raise]

@[simp] theorem raise_ne_finishOk (d : Nat) (b : Block) (f : Status) : (raise f = finishOk d b) = False := by
  simp [finishOk, raise]

@[simp] theorem stuck_ne_finishOk (x : Fault) (d : Nat) (b : Block) : (stuck x = finishOk d b) = False := by
  simp [finishOk, stuck]

@[simp] theorem raise_inj {α : Type} (f g : Status) : ((raise f : Except Stop α) = raise g) = (f = g) := by
  simp [raise]

@[simp] theorem finishOk_inj (d d' : Nat) (b b' : Block) : (finishOk d b = finishOk d' b') = (d = d' ∧ b = b') := by
  simp [finishOk]

/-! ### BitsOf and AppendByte (00_scope.md rule R10) -/

@[simp] theorem bitsOf_length (v len : Nat) : (bitsOf v len).length = len := by simp [bitsOf]

/-- Bit `j` of `BitsOf(v, L)` is `(v >> (L-1-j)) & 1`. -/
theorem bitsOf_getElem (v len j : Nat) (h : j < (bitsOf v len).length) :
    (bitsOf v len)[j] = v.testBit (len - 1 - j) := by simp [bitsOf]

theorem bitsOf_getElem? {v len j : Nat} (h : j < len) : (bitsOf v len)[j]? = some (v.testBit (len - 1 - j)) := by
  rw [List.getElem?_eq_getElem (by simpa using h), bitsOf_getElem]

@[simp] theorem bitsOf_zero_len (v : Nat) : bitsOf v 0 = [] := rfl

/-- `BitsOf` is one to one on the values it is defined for. -/
theorem bitsOf_inj {v u len : Nat} (hv : v < 2 ^ len) (hu : u < 2 ^ len) (h : bitsOf v len = bitsOf u len) : v = u := by
  apply Nat.eq_of_testBit_eq
  intro i
  by_cases hi : i < len
  · have e := congrArg (fun m : Bits => m[len - 1 - i]?) h
    simp only [bitsOf_getElem? (show len - 1 - i < len by omega)] at e
    simpa [show len - 1 - (len - 1 - i) = i by omega] using e
  · have hl : 2 ^ len ≤ 2 ^ i := Nat.pow_le_pow_right (by omega) (by omega)
    rw [Nat.testBit_lt_two_pow (by omega), Nat.testBit_lt_two_pow (by omega)]

theorem checkedBitsOf_ok {v len : Nat} (h : v < 2 ^ len) : checkedBitsOf v len = .ok (bitsOf v len) := by
  simp [checkedBitsOf, h]

theorem checkedBitsOf_eq_ok {v len : Nat} {m : Bits} (h : checkedBitsOf v len = .ok m) :
    v < 2 ^ len ∧ m = bitsOf v len := by
  unfold checkedBitsOf at h
  split at h
  · exact ⟨‹_›, by cases h; rfl⟩
  · cases h

@[simp] theorem appendByte_length (m : Bits) (v : Byte) : (appendByte m v).length = m.length + 8 := by
  simp [appendByte]

theorem bitsOfBytes_cons_append (vs : List Byte) (m : Bits) : vs.foldl appendByte m = m ++ bitsOfBytes vs := by
  induction vs generalizing m with
  | nil => simp [bitsOfBytes]
  | cons v vs ih =>
    simp only [bitsOfBytes, List.foldl_cons]
    rw [ih, ih (appendByte [] v)]
    simp [appendByte]

/-- The bits of a list of bytes are the bits of each, one after the other. -/
theorem bitsOfBytes_eq_flatMap (vs : List Byte) : bitsOfBytes vs = vs.flatMap (fun v => bitsOf v.toNat 8) := by
  induction vs with
  | nil => rfl
  | cons v vs ih =>
    rw [List.flatMap_cons, ← ih]
    show vs.foldl appendByte (appendByte [] v) = _
    rw [bitsOfBytes_cons_append]
    simp [appendByte]

@[simp] theorem bitsOfBytes_length (vs : List Byte) : (bitsOfBytes vs).length = 8 * vs.length := by
  induction vs with
  | nil => rfl
  | cons v vs ih =>
    rw [bitsOfBytes_eq_flatMap] at *
    simp only [List.flatMap_cons, List.length_append, bitsOf_length, ih, List.length_cons]
    omega

theorem bitsOfBytes_append (vs us : List Byte) : bitsOfBytes (vs ++ us) = bitsOfBytes vs ++ bitsOfBytes us := by
  simp [bitsOfBytes_eq_flatMap]

/-! ### The byte view (20_memory.md rules R60, R61) -/

@[simp] theorem nBytes_of_bytes (vs : List Byte) : nBytes (bitsOfBytes vs) = vs.length := by
  simp only [nBytes, bitsOfBytes_length]
  omega

/-- The byte view reads eight bits from bit `8j` on, 0 beyond the end. -/
theorem byteView_drop (m : Bits) (j : Nat) : byteView m j = byteView (m.drop (8 * j)) 0 := by
  simp only [byteView]
  congr 1
  simp [List.range, List.range.loop, List.getD, List.getElem?_drop]

/-- The byte view of a byte's own bits is the byte. -/
theorem byteView_bitsOf (v : Byte) (rest : Bits) : byteView (bitsOf v.toNat 8 ++ rest) 0 = v := by
  revert v
  have key : ∀ v : Byte, ∀ rest : Bits, byteView (bitsOf v.toNat 8 ++ rest) 0 = byteView (bitsOf v.toNat 8) 0 := by
    intro v rest
    simp only [byteView]
    congr 1
  have small : ∀ v : Byte, byteView (bitsOf v.toNat 8) 0 = v := by decide +kernel
  intro v
  rw [key, small]

/-- The byte view of a list of bytes' bits gives the bytes back. -/
theorem byteView_bitsOfBytes {vs : List Byte} {j : Nat} (h : j < vs.length) : byteView (bitsOfBytes vs) j = vs[j] := by
  rw [byteView_drop]
  have hd : (bitsOfBytes vs).drop (8 * j) = bitsOfBytes (vs.drop j) := by
    conv_lhs => rw [← List.take_append_drop j vs, bitsOfBytes_append]
    rw [List.drop_left' (by simp only [bitsOfBytes_length, List.length_take]; omega)]
  rw [hd, List.drop_eq_getElem_cons h, bitsOfBytes_eq_flatMap, List.flatMap_cons, byteView_bitsOf]

theorem checkedByte_ok {m : Bits} {j : Nat} (h : j < nBytes m) : checkedByte m j = .ok (byteView m j) := by
  simp [checkedByte, h]

theorem checkedByte_eq_ok {m : Bits} {j : Nat} {v : Byte} (h : checkedByte m j = .ok v) :
    j < nBytes m ∧ v = byteView m j := by
  unfold checkedByte at h
  split at h
  · exact ⟨‹_›, by cases h; rfl⟩
  · cases h

/-! ### The port -/

/-- The three things a step can find at the port. -/
theorem takeAct_cases (s : State) :
    (s.pending = [] ∧ s.takeAct = none)
      ∨ (∃ a rest, s.pending = a :: rest ∧ s.takeAct = some (a, { s with pending := rest })) := by
  unfold State.takeAct
  split
  · exact .inl ⟨‹_›, rfl⟩
  · rename_i a rest h
    exact .inr ⟨a, rest, h, rfl⟩

/-- A command word at the port is taken and, if it decodes, run. -/
theorem step_command {s : State} {w : Word} {rest : List HostAct} {i : Instr}
    (hp : s.pending = .command w :: rest) (hd : decode w = .ok i) : step s = exec i { s with pending := rest } := by
  simp [step, State.takeAct, hp, hd]

end Sys2Proof.Machine
end

