-- ==== Sys2Proof/Laws/Alphabet.lean ====
section
/-! SUPPORT. The laws of the alphabet operations: the entries MKALPHA makes, ASSIGN's walk, canonical numbering, the header bytes
and LUT, header sizes and DESER's loops (41_frequency_alphabet.md, 42_tree_builder.md section 3, 43_canonical.md). -/

namespace Sys2Proof.Machine

open Sys2Proof.Safety

/-! ### The counted entries (rule R122) -/

/-- The entries are those of the bytes counted, each with its counter and an empty code. -/
theorem mem_countedEntries (b : Block) (e : Entry) :
    e ∈ countedEntries b.ft ↔ e.code = [] ∧ 0 < b.counter e.sym ∧ e.freq = b.counter e.sym := by
  simp only [countedEntries, List.mem_map, List.mem_filter, decide_eq_true_eq, List.mem_zipIdx_iff_getElem?,
    Vector.getElem?_toList, Block.counter, gt_iff_lt, Prod.exists]
  constructor
  · rintro ⟨n, i, ⟨h, hn⟩, rfl⟩
    obtain ⟨hi, rfl⟩ := Vector.getElem?_eq_some_iff.1 h
    have e : (BitVec.ofNat 8 i).toNat = i := by simp [Nat.mod_eq_of_lt hi]
    simp only [e]
    exact ⟨trivial, hn, trivial⟩
  · rintro ⟨hc, h0, hf⟩
    refine ⟨_, e.sym.toNat, ⟨Vector.getElem?_eq_getElem e.sym.isLt, h0⟩, ?_⟩
    obtain ⟨sym, freq, code⟩ := e
    simp_all

/-! ### ASSIGN's writes -/

/-- Giving a code to an entry changes that entry's code and nothing else. -/
theorem setCode_eq_ok {b b' : Block} {ent : Nat} {c : Bits} (h : b.setCode ent c = .ok b') :
    ∃ e, b.alpha[ent]? = some e ∧ b' = { b with alpha := b.alpha.set ent { e with code := c } } := by
  unfold Block.setCode at h
  split at h
  · cases h
  · rename_i e he
    exact ⟨e, he, by cases h; rfl⟩

theorem setCode_ok {b : Block} {ent : Nat} {e : Entry} (h : b.alpha[ent]? = some e) (c : Bits) :
    b.setCode ent c = .ok { b with alpha := b.alpha.set ent { e with code := c } } := by
  simp [Block.setCode, h]

/-- Everything the walk can do when it succeeds: it writes codes of entries and nothing else; TRAV is restored, and the
entries keep their number, symbols and frequencies. -/
theorem walk_frame {k n : Nat} {b b' : Block} (h : walk k n b = .ok b') :
    b' = { b with alpha := b'.alpha }
      ∧ b'.alpha.map (fun e => (e.sym, e.freq)) = b.alpha.map (fun e => (e.sym, e.freq)) := by
  induction k generalizing n b b' with
  | zero => cases h
  | succ k ih =>
    unfold walk at h
    split at h
    · cases h
    · obtain ⟨e, he, rfl⟩ := setCode_eq_ok h
      refine ⟨rfl, ?_⟩
      obtain ⟨hlt, rfl⟩ := List.getElem?_eq_some_iff.1 he
      apply List.ext_getElem (by simp)
      intro i h1 h2
      simp only [List.getElem_map, List.getElem_set]
      split
      · subst_vars
        rfl
      · rfl
    · rename_i l r _
      split at h
      · cases h
      · rename_i b1 h1
        split at h
        · cases h
        · rename_i b2 h2
          obtain ⟨e1, m1⟩ := ih h1
          obtain ⟨e2, m2⟩ := ih h2
          cases h
          refine ⟨?_, ?_⟩
          · rw [e2, e1]
            simp [Block.popTrav, Block.pushTrav]
          · exact m2.trans m1

/-! ### Canonical numbering (rule R161) -/

/-- Numbering keeps every entry's symbol and frequency, and gives it a code; the lengths stay when they ascend. -/
theorem canonAssign_ok {c len : Nat} {es out : List Entry} (h : canonAssign c len es = .ok out) :
    out.map (fun e => (e.sym, e.freq)) = es.map (fun e => (e.sym, e.freq)) := by
  induction es generalizing c len out with
  | nil => cases h; rfl
  | cons e es ih =>
    simp only [canonAssign] at h
    split at h
    · cases h
    · split at h
      · cases h
      · rename_i rest hr
        cases h
        simp [ih hr]

theorem canonAssign_lengths {c len : Nat} {es out : List Entry} (h : canonAssign c len es = .ok out)
    (h0 : ∀ e ∈ es, len ≤ e.code.length) (hs : es.Pairwise (fun x y => x.code.length ≤ y.code.length)) :
    out.map (fun e => e.code.length) = es.map (fun e => e.code.length) := by
  induction es generalizing c len out with
  | nil => cases h; rfl
  | cons e es ih =>
    obtain ⟨h1, h2⟩ := List.pairwise_cons.1 hs
    have hlen : (if e.code.length > len then e.code.length else len) = e.code.length := by
      have := h0 e List.mem_cons_self
      split <;> omega
    simp only [canonAssign, hlen] at h
    split at h
    · cases h
    · rename_i code hc
      split at h
      · cases h
      · rename_i rest hr
        cases h
        obtain ⟨-, rfl⟩ := checkedBitsOf_eq_ok hc
        simp [ih hr h1 h2]

/-! ### The header and LUT (rule R164) -/

@[simp] theorem headerBytes_length (es : List Entry) : (headerBytes es).length = 1 + maxBitsOf es + es.length := by
  simp only [headerBytes, List.length_cons, List.length_append, List.length_map, List.length_range]
  omega

/-- The header has `8 * (1 + maxBits + N)` bits (rule R165). -/
theorem header_length (es : List Entry) : (bitsOfBytes (headerBytes es)).length = 8 * (1 + maxBitsOf es + es.length) := by
  simp

theorem lutOf_foldl (es : List (Entry × Nat)) (lut : Vector (Option Nat) 256) (v : Byte)
    (h : ∀ p ∈ es, p.1.sym ≠ v) :
    (es.foldl (fun lut p => lut.set p.1.sym.toNat (some p.2) p.1.sym.isLt) lut)[v.toNat]'v.isLt
      = lut[v.toNat]'v.isLt := by
  induction es generalizing lut with
  | nil => rfl
  | cons e es ih =>
    rw [List.foldl_cons, ih _ (fun p hp => h p (List.mem_cons_of_mem _ hp)), Vector.getElem_set]
    have : e.1.sym.toNat ≠ v.toNat := fun g => h e List.mem_cons_self (BitVec.eq_of_toNat_eq g)
    simp [this]

/-- A symbol that no entry has is not in LUT. -/
theorem lutOf_none {es : List Entry} {v : Byte} (h : ∀ e ∈ es, e.sym ≠ v) : (lutOf es)[v.toNat]'v.isLt = none := by
  rw [lutOf, lutOf_foldl _ _ _ (fun p hp => h _ (List.fst_mem_of_mem_zipIdx hp))]
  simp

/-! ### Header sizes (rule R166) -/

/-- Everything PARSE's size check can answer: two sizes that fit the header exactly, or CorruptHeader. -/
theorem parseSizes_cases (hdr pay : Bits) :
    (hdr = [] ∧ pay = [] ∧ parseSizes hdr pay = .ok (0, 0))
      ∨ (hdr ≠ [] ∧ hdr.length = 8 * (1 + (byteView hdr 0).toNat + declaredSymbols hdr (byteView hdr 0).toNat)
          ∧ parseSizes hdr pay = .ok ((byteView hdr 0).toNat, declaredSymbols hdr (byteView hdr 0).toNat))
      ∨ (parseSizes hdr pay = raise .corruptHeader
          ∧ ((hdr = [] ∧ pay ≠ [])
            ∨ (hdr ≠ [] ∧ hdr.length ≠ 8 * (1 + (byteView hdr 0).toNat + declaredSymbols hdr (byteView hdr 0).toNat)))) := by
  unfold parseSizes
  by_cases h0 : hdr = []
  · subst h0
    by_cases h1 : pay = []
    · exact .inl ⟨rfl, h1, by simp [h1]⟩
    · exact .inr (.inr ⟨by simp [h1], .inl ⟨rfl, h1⟩⟩)
  · have hl : hdr.length ≠ 0 := by simpa using h0
    simp only [hl, if_false]
    generalize hn : declaredSymbols hdr (byteView hdr 0).toNat = n
    by_cases h2 : hdr.length = 8 * (1 + (byteView hdr 0).toNat + n)
    · refine .inr (.inl ⟨h0, h2, ?_⟩)
      rw [if_neg (by omega), if_neg (by omega), if_neg (by omega)]
    · refine .inr (.inr ⟨?_, .inr ⟨h0, h2⟩⟩)
      split
      · rfl
      · split
        · rfl
        · rw [if_pos (by omega)]

/-! ### DESER's loops (rule R167) -/

/-- A bucket that succeeds: as many entries as it was asked for, of the bucket's length, with frequency 0, the symbols from
byte `p` on and the numerals from `c` on, all below `2^k`. -/
theorem deserBucket_ok {hdr : Bits} {k j c p : Nat} {es : List Entry} (h : deserBucket hdr k j c p = .ok es) :
    es = (List.range j).map (fun i => { sym := byteView hdr (p + i), freq := 0, code := bitsOf (c + i) k })
      ∧ (0 < j → c + j ≤ 2 ^ k) := by
  induction j generalizing c p es with
  | zero => cases h; simp
  | succ j ih =>
    simp only [deserBucket] at h
    split at h
    · cases h
    · rename_i hc
      split at h
      · cases h
      · rename_i sym hs
        split at h
        · cases h
        · rename_i rest hr
          cases h
          obtain ⟨e, hle⟩ := ih hr
          obtain ⟨-, rfl⟩ := checkedByte_eq_ok hs
          refine ⟨?_, fun _ => ?_⟩
          · rw [e, List.range_succ_eq_map]
            simp only [List.map_cons, List.map_map, Nat.add_zero, List.cons.injEq, true_and]
            apply List.map_congr_left
            intro i _
            simp only [Function.comp, Entry.mk.injEq]
            exact ⟨congrArg _ (by omega), trivial, congrArg (fun v => bitsOf v k) (by omega)⟩
          · rcases Nat.eq_zero_or_pos j with rfl | hj
            · omega
            · have := hle hj
              omega

/-- The buckets that succeed give as many entries as their count bytes declare. -/
theorem deserBuckets_length {hdr : Bits} {m k c p : Nat} {es : List Entry} (h : deserBuckets hdr m k c p = .ok es) :
    es.length = ((List.range m).map (fun i => (byteView hdr (k + i)).toNat)).sum := by
  induction m generalizing k c p es with
  | zero => cases h; rfl
  | succ m ih =>
    simp only [deserBuckets] at h
    split at h
    · cases h
    · rename_i cnt hcnt
      split at h
      · cases h
      · rename_i fst hf
        split at h
        · cases h
        · rename_i rest hr
          cases h
          obtain ⟨-, rfl⟩ := checkedByte_eq_ok hcnt
          rw [List.length_append, ih hr, (deserBucket_ok hf).1, List.range_succ_eq_map]
          simp only [List.length_map, List.length_range, List.map_cons, List.map_map, List.sum_cons, Nat.add_zero]
          congr 2
          apply List.map_congr_left
          intro i _
          simp only [Function.comp]
          exact congrArg (fun q => (byteView hdr q).toNat) (by omega)

/-- The buckets that succeed give the declared code lengths, and the symbols from byte `p` on in file order. -/
theorem deserBuckets_ok {hdr : Bits} {m k c p : Nat} {es : List Entry} (h : deserBuckets hdr m k c p = .ok es) :
    es.map (fun e => e.code.length)
        = (List.range m).flatMap (fun i => List.replicate (byteView hdr (k + i)).toNat (k + i))
      ∧ es.map Entry.sym = (List.range es.length).map (fun i => byteView hdr (p + i)) := by
  induction m generalizing k c p es with
  | zero => cases h; simp
  | succ m ih =>
    simp only [deserBuckets] at h
    split at h
    · cases h
    · rename_i cnt hcnt
      split at h
      · cases h
      · rename_i fst hf
        split at h
        · cases h
        · rename_i rest hr
          cases h
          obtain ⟨-, rfl⟩ := checkedByte_eq_ok hcnt
          obtain ⟨hl, hs⟩ := ih hr
          have hf' := (deserBucket_ok hf).1
          have hfl : fst.length = (byteView hdr k).toNat := by rw [hf']; simp
          constructor
          · rw [List.map_append, hl, hf', List.range_succ_eq_map, List.flatMap_cons, List.flatMap_map]
            congr 1
            · simp [Function.comp_def, List.map_const']
            · simp only [show ∀ i, k + 1 + i = k + Nat.succ i from fun i => by omega]
          · rw [List.map_append, hs, List.length_append, List.range_add, List.map_append, hfl]
            congr 1
            · rw [hf']; simp
            · simp [Nat.add_assoc]

/-- Declared lengths ascend. -/
theorem declaredLengths_sorted (hdr : Bits) (mb : Nat) : (declaredLengths hdr mb).Pairwise (· ≤ ·) := by
  unfold declaredLengths
  rw [List.flatMap_def, List.pairwise_flatten]
  refine ⟨?_, ?_⟩
  · intro l hl
    obtain ⟨k, -, rfl⟩ := List.mem_map.1 hl
    exact List.pairwise_replicate.2 (.inr (Nat.le_refl _))
  · refine List.pairwise_map.2 (List.Pairwise.imp ?_ List.pairwise_lt_range)
    intro a b hab x hx y hy
    rw [List.eq_of_mem_replicate hx, List.eq_of_mem_replicate hy]
    omega

/-- What DESER's list is made of (R167): the declared lengths and the symbol bytes, in file order. -/
theorem deser_entry {hdr : Bits} {mb : Nat} {es : List Entry} (h : deserBuckets hdr mb 1 0 (1 + mb) = .ok es) :
    es.map (fun e => e.code.length) = declaredLengths hdr mb
      ∧ ∀ i (hi : i < es.length), es[i].sym = byteView hdr (1 + mb + i) := by
  obtain ⟨hl, hs⟩ := deserBuckets_ok h
  refine ⟨by rw [hl]; simp only [declaredLengths, Nat.add_comm 1], fun i hi => ?_⟩
  have := congrArg (·[i]?) hs
  simpa [hi] using this

/-- After DESER the entries ascend by code length, for every header (R25, R167). -/
theorem deser_lengths_ascend {hdr : Bits} {mb : Nat} {es : List Entry} (h : deserBuckets hdr mb 1 0 (1 + mb) = .ok es) :
    es.Pairwise (fun x y => x.code.length ≤ y.code.length) := by
  have hs := declaredLengths_sorted hdr mb
  rw [← (deser_entry h).1] at hs
  exact List.pairwise_map.1 hs

/-- After DESER the entries are ordered by (code length, `rel` on symbols) exactly when the header lists its symbols so (R25,
R167). -/
theorem deser_order_iff (rel : Nat → Nat → Prop) {hdr : Bits} {mb : Nat} {es : List Entry}
    (h : deserBuckets hdr mb 1 0 (1 + mb) = .ok es) :
    es.Pairwise (fun x y => x.code.length < y.code.length
        ∨ (x.code.length = y.code.length ∧ rel x.sym.toNat y.sym.toNat))
      ↔ SymbolsOrdered rel hdr mb := by
  obtain ⟨hl, hs⟩ := deser_entry h
  have hle := List.pairwise_iff_getElem.1 (deser_lengths_ascend h)
  unfold SymbolsOrdered
  rw [← hl, List.pairwise_iff_getElem, List.pairwise_iff_getElem]
  simp only [List.length_zipIdx, List.length_map, List.getElem_zipIdx, List.getElem_map, Nat.zero_add]
  refine forall_congr' fun i => forall_congr' fun j => forall_congr' fun hi => forall_congr' fun hj =>
    forall_congr' fun hij => ?_
  have := hle i j hi hj hij
  rw [hs i hi, hs j hj]
  constructor
  · rintro (h1 | ⟨-, h2⟩) e
    · omega
    · exact h2
  · intro h1
    rcases Nat.lt_or_eq_of_le this with h2 | h2
    · exact .inl h2
    · exact .inr ⟨h2, h1 h2⟩

end Sys2Proof.Machine
end

