-- ==== Sys2Proof/Laws/Decoder.lean ====
section
/-! SUPPORT. The laws of the decoder's map (10_state.md rule R35), of code positions and of the decoding walk (45_decoder.md
rules R190, R191). -/

namespace Sys2Proof.Machine

open Sys2Proof.Safety

/-! ### DT: a write is read back, leaves every other position, and keeps the canonical form -/

@[simp] theorem Dt.get_nil (pos : Nat) : Dt.get [] pos = none := rfl

theorem Dt.get_put (dt : List (Nat × Byte)) (pos q : Nat) (v : Byte) :
    Dt.get (Dt.put dt pos v) q = if q = pos then some v else Dt.get dt q := by
  induction dt with
  | nil => simp [Dt.put, Dt.get]
  | cons x rest ih =>
    obtain ⟨p, u⟩ := x
    simp only [Dt.put]
    split
    · simp [Dt.get]
    · split
      · rename_i _ h
        subst h
        simp only [Dt.get]
        split <;> rfl
      · rename_i _ h
        simp only [Dt.get, ih]
        by_cases e : q = p
        · simp [e, Ne.symm h]
        · simp [e]

theorem Dt.mem_put {dt : List (Nat × Byte)} {pos : Nat} {v : Byte} {x : Nat × Byte} (h : x ∈ Dt.put dt pos v) :
    x = (pos, v) ∨ x ∈ dt := by
  induction dt with
  | nil => simpa [Dt.put] using h
  | cons y rest ih =>
    obtain ⟨p, u⟩ := y
    simp only [Dt.put] at h
    split at h
    · simpa using h
    · split at h
      · rcases List.mem_cons.1 h with h | h
        · exact .inl h
        · exact .inr (List.mem_cons_of_mem _ h)
      · rcases List.mem_cons.1 h with h | h
        · exact .inr (h ▸ List.mem_cons_self)
        · exact (ih h).imp id (List.mem_cons_of_mem _)

/-- A write keeps the canonical form. -/
theorem Dt.wf_put {dt : List (Nat × Byte)} (pos : Nat) (v : Byte) (h : Dt.wf dt) : Dt.wf (Dt.put dt pos v) := by
  induction dt with
  | nil => simp [Dt.wf, Dt.put]
  | cons x rest ih =>
    obtain ⟨p, u⟩ := x
    obtain ⟨h1, h2⟩ := List.pairwise_cons.1 h
    simp only [Dt.put]
    split
    · rename_i hlt
      refine List.pairwise_cons.2 ⟨fun y hy => ?_, h⟩
      rcases List.mem_cons.1 hy with rfl | hy
      · exact hlt
      · exact hlt.trans (h1 y hy)
    · split
      · rename_i _ e
        subst e
        exact List.pairwise_cons.2 ⟨h1, h2⟩
      · rename_i n1 n2
        refine List.pairwise_cons.2 ⟨fun y hy => ?_, ih h2⟩
        rcases Dt.mem_put hy with rfl | hy
        · simp only
          omega
        · exact h1 y hy

/-- In canonical form a map is determined by what it holds at each position. -/
theorem Dt.get_eq_some_iff {dt : List (Nat × Byte)} (h : Dt.wf dt) (pos : Nat) (v : Byte) :
    Dt.get dt pos = some v ↔ (pos, v) ∈ dt := by
  induction dt with
  | nil => simp
  | cons x rest ih =>
    obtain ⟨p, u⟩ := x
    obtain ⟨h1, h2⟩ := List.pairwise_cons.1 h
    simp only [Dt.get, List.mem_cons, Prod.mk.injEq]
    by_cases e : pos = p
    · subst e
      constructor
      · intro g
        simp only [if_true, Option.some.injEq] at g
        exact .inl ⟨rfl, g.symm⟩
      · rintro (⟨-, rfl⟩ | g)
        · simp
        · exact absurd (h1 _ g) (Nat.lt_irrefl _)
    · simp [e, ih h2]

theorem dtOf_foldl_wf (es : List Entry) {dt : List (Nat × Byte)} (h : Dt.wf dt) :
    Dt.wf (es.foldl (fun dt e => Dt.put dt (codePosition e.code) e.sym) dt) := by
  induction es generalizing dt with
  | nil => exact h
  | cons e es ih => exact ih (Dt.wf_put _ _ h)

/-- MKLOOK's map is in canonical form. -/
theorem dtOf_wf (es : List Entry) : Dt.wf (dtOf es) := dtOf_foldl_wf es List.Pairwise.nil

/-- One more entry: its own position holds its symbol, every other position what it held. -/
theorem dtOf_concat (es : List Entry) (e : Entry) : dtOf (es ++ [e]) = Dt.put (dtOf es) (codePosition e.code) e.sym := by
  simp [dtOf]

/-! ### Code positions -/

@[simp] theorem codePosition_nil : codePosition [] = 0 := rfl

theorem codePosition_concat (c : Bits) (b : Bool) : codePosition (c ++ [b]) = descend (codePosition c) b := by
  simp [codePosition]

theorem codePosition_append (c d : Bits) : codePosition (c ++ d) = d.foldl descend (codePosition c) := by
  simp [codePosition]

/-- A step of the descent goes down, and tells where it came from and by which bit. -/
theorem lt_descend (pos : Nat) (b : Bool) : pos < descend pos b := by
  unfold descend
  omega

theorem descend_inj {p q : Nat} {b d : Bool} (h : descend p b = descend q d) : p = q ∧ b = d := by
  unfold descend at h
  cases b <;> cases d <;> simp at h ⊢ <;> omega

/-! ### The walk -/

@[simp] theorem decodeWalk_nil_root (dt : List (Nat × Byte)) (size cap : Nat) (out : List Byte) :
    decodeWalk dt size cap [] 0 out = .ok out := rfl

/-- A payload that ends inside a code. -/
theorem decodeWalk_nil_inside (dt : List (Nat × Byte)) (size cap pos : Nat) (out : List Byte) (h : pos ≠ 0) :
    decodeWalk dt size cap [] pos out = raise .corruptHeader := by simp [decodeWalk, h]

/-- A bit that walks past the array bounds. -/
theorem decodeWalk_out (dt : List (Nat × Byte)) (size cap pos : Nat) (b : Bool) (rest : Bits) (out : List Byte)
    (h : size ≤ descend pos b) : decodeWalk dt size cap (b :: rest) pos out = raise .corruptHeader := by
  simp [decodeWalk, h]

/-- A bit that leads to an empty slot. -/
theorem decodeWalk_empty (dt : List (Nat × Byte)) (size cap pos : Nat) (b : Bool) (rest : Bits) (out : List Byte)
    (h : descend pos b < size) (g : Dt.get dt (descend pos b) = none) :
    decodeWalk dt size cap (b :: rest) pos out = decodeWalk dt size cap rest (descend pos b) out := by
  simp [decodeWalk, Nat.not_le.2 h, g]

/-- A bit that leads to a symbol, when there is room for it. -/
theorem decodeWalk_symbol (dt : List (Nat × Byte)) (size cap pos : Nat) (b : Bool) (rest : Bits) (out : List Byte)
    (v : Byte) (h : descend pos b < size) (g : Dt.get dt (descend pos b) = some v) (r : out.length ≠ cap) :
    decodeWalk dt size cap (b :: rest) pos out = decodeWalk dt size cap rest 0 (out ++ [v]) := by
  simp [decodeWalk, Nat.not_le.2 h, g, r]

/-- A bit that leads to a symbol, when OUT is full. -/
theorem decodeWalk_full (dt : List (Nat × Byte)) (size cap pos : Nat) (b : Bool) (rest : Bits) (out : List Byte)
    (v : Byte) (h : descend pos b < size) (g : Dt.get dt (descend pos b) = some v) (r : out.length = cap) :
    decodeWalk dt size cap (b :: rest) pos out = raise .allocationFailure := by
  simp [decodeWalk, Nat.not_le.2 h, g, r]

/-- Everything the walk can end with: the bytes decoded so far and more, within the capacity, or one of its two faults. -/
theorem decodeWalk_cases (dt : List (Nat × Byte)) (size cap : Nat) (m : Bits) (pos : Nat) (out : List Byte) :
    (∃ vs, decodeWalk dt size cap m pos out = .ok (out ++ vs) ∧ (out.length ≤ cap → out.length + vs.length ≤ cap))
      ∨ decodeWalk dt size cap m pos out = raise .corruptHeader
      ∨ decodeWalk dt size cap m pos out = raise .allocationFailure := by
  induction m generalizing pos out with
  | nil =>
    by_cases h : pos = 0
    · exact .inl ⟨[], by simp [h], by simp⟩
    · exact .inr (.inl (decodeWalk_nil_inside _ _ _ _ _ h))
  | cons b rest ih =>
    by_cases h : size ≤ descend pos b
    · exact .inr (.inl (decodeWalk_out _ _ _ _ _ _ _ h))
    · have h := Nat.not_le.1 h
      match g : Dt.get dt (descend pos b) with
      | none =>
        rw [decodeWalk_empty _ _ _ _ _ _ _ h g]
        exact ih _ _
      | some v =>
        by_cases r : out.length = cap
        · exact .inr (.inr (decodeWalk_full _ _ _ _ _ _ _ _ h g r))
        · rw [decodeWalk_symbol _ _ _ _ _ _ _ _ h g r]
          rcases ih 0 (out ++ [v]) with ⟨vs, e, hc⟩ | e | e
          · refine .inl ⟨v :: vs, by rw [e]; simp, fun hle => ?_⟩
            have := hc (by simp only [List.length_append, List.length_cons, List.length_nil]; omega)
            simp only [List.length_append, List.length_cons, List.length_nil] at this ⊢
            omega
          · exact .inr (.inl e)
          · exact .inr (.inr e)

end Sys2Proof.Machine
end

