-- ==== Sys2Proof/Laws/Encoding.lean ====
section
/-! SUPPORT. The fields of the words the encoder makes (30_encoding.md rules R80 to R84): the number of each word, and from it
one lemma per field per format, so that no later proof opens a word. -/

namespace Sys2Proof

theorem append_toNat {m n : Nat} (x : BitVec m) (y : BitVec n) : (x ++ y).toNat = x.toNat * 2 ^ n + y.toNat := by
  rw [BitVec.toNat_append, ← Nat.shiftLeft_add_eq_or_of_lt y.isLt, Nat.shiftLeft_eq]

theorem field_toNat (w : Word) (lo n : Nat) : (field w lo n).toNat = w.toNat / 2 ^ lo % 2 ^ n := by
  simp [field, Nat.shiftRight_eq_div_pow]

/-! ### The number of a word, by format -/

theorem encodeZ_toNat (op : Byte) : (encodeZ op).toNat = op.toNat * 2 ^ 24 := by
  rw [encodeZ]
  exact (append_toNat op (0 : BitVec 24)).trans (by simp)

theorem encodeI8_toNat (op imm : Byte) : (encodeI8 op imm).toNat = op.toNat * 2 ^ 24 + imm.toNat := by
  have h : ((0 : BitVec 16) ++ imm).toNat = imm.toNat := (append_toNat _ _).trans (by simp)
  rw [encodeI8]
  exact (append_toNat op ((0 : BitVec 16) ++ imm)).trans (by rw [h])

theorem encodeIP_toNat (op idx pos : Byte) :
    (encodeIP op idx pos).toNat = op.toNat * 2 ^ 24 + idx.toNat * 2 ^ 8 + pos.toNat := by
  have h1 : (idx ++ pos).toNat = idx.toNat * 2 ^ 8 + pos.toNat := append_toNat _ _
  have h2 : ((0 : BitVec 8) ++ (idx ++ pos)).toNat = (idx ++ pos).toNat := (append_toNat _ _).trans (by simp)
  rw [encodeIP]
  exact (append_toNat op ((0 : BitVec 8) ++ (idx ++ pos))).trans (by rw [h2, h1]; omega)

theorem encodeB_toNat (op : BitVec 6) (buf : Buf) (low : BitVec 24) :
    (encodeB op buf low).toNat = op.toNat * 2 ^ 26 + buf.selector.toNat * 2 ^ 24 + low.toNat := by
  have h1 : (buf.selector ++ low).toNat = buf.selector.toNat * 2 ^ 24 + low.toNat := append_toNat _ _
  rw [encodeB]
  exact (append_toNat op (buf.selector ++ low)).trans (by rw [h1]; omega)

/-! ### Masking, part by part (30_encoding.md rule R85) -/

theorem encodeI8_mask (op imm mo mi : Byte) (mz : BitVec 16) :
    encodeI8 op imm &&& (mo ++ (mz ++ mi)) = (op &&& mo) ++ ((0 &&& mz) ++ (imm &&& mi)) := by
  rw [encodeI8]
  exact BitVec.and_append.trans (by rw [BitVec.and_append])

theorem encodeIP_mask (op idx pos mo mz mi mp : Byte) :
    encodeIP op idx pos &&& (mo ++ (mz ++ (mi ++ mp))) =
      (op &&& mo) ++ ((0 &&& mz) ++ ((idx &&& mi) ++ (pos &&& mp))) := by
  rw [encodeIP]
  exact BitVec.and_append.trans (by rw [BitVec.and_append, BitVec.and_append])

theorem encodeB_mask (op mo : BitVec 6) (buf : Buf) (ms : BitVec 2) (low ml : BitVec 24) :
    encodeB op buf low &&& (mo ++ (ms ++ ml)) = (op &&& mo) ++ ((buf.selector &&& ms) ++ (low &&& ml)) := by
  rw [encodeB]
  exact BitVec.and_append.trans (by rw [BitVec.and_append])

/-! ### The fields -/

theorem encodeZ_op6 (op : Byte) : (op6 (encodeZ op)).toNat = op.toNat / 4 := by
  have := op.isLt
  rw [op6, field_toNat, encodeZ_toNat]
  omega

@[simp] theorem encodeZ_opByte (op : Byte) : opByte (encodeZ op) = op := by
  apply BitVec.eq_of_toNat_eq
  have := op.isLt
  rw [opByte, field_toNat, encodeZ_toNat]
  omega

@[simp] theorem encodeZ_low (op : Byte) : field (encodeZ op) 0 24 = 0 := by
  apply BitVec.eq_of_toNat_eq
  rw [field_toNat, encodeZ_toNat]
  show _ = 0
  omega

theorem encodeI8_op6 (op imm : Byte) : (op6 (encodeI8 op imm)).toNat = op.toNat / 4 := by
  have := op.isLt
  have := imm.isLt
  rw [op6, field_toNat, encodeI8_toNat]
  omega

@[simp] theorem encodeI8_opByte (op imm : Byte) : opByte (encodeI8 op imm) = op := by
  apply BitVec.eq_of_toNat_eq
  have := op.isLt
  have := imm.isLt
  rw [opByte, field_toNat, encodeI8_toNat]
  omega

@[simp] theorem encodeI8_zero (op imm : Byte) : field (encodeI8 op imm) 8 16 = 0 := by
  apply BitVec.eq_of_toNat_eq
  have := imm.isLt
  rw [field_toNat, encodeI8_toNat]
  show _ = 0
  omega

@[simp] theorem encodeI8_imm (op imm : Byte) : field (encodeI8 op imm) 0 8 = imm := by
  apply BitVec.eq_of_toNat_eq
  have := imm.isLt
  rw [field_toNat, encodeI8_toNat]
  omega

theorem encodeIP_op6 (op idx pos : Byte) : (op6 (encodeIP op idx pos)).toNat = op.toNat / 4 := by
  have := op.isLt
  have := idx.isLt
  have := pos.isLt
  rw [op6, field_toNat, encodeIP_toNat]
  omega

@[simp] theorem encodeIP_opByte (op idx pos : Byte) : opByte (encodeIP op idx pos) = op := by
  apply BitVec.eq_of_toNat_eq
  have := op.isLt
  have := idx.isLt
  have := pos.isLt
  rw [opByte, field_toNat, encodeIP_toNat]
  omega

@[simp] theorem encodeIP_zero (op idx pos : Byte) : field (encodeIP op idx pos) 16 8 = 0 := by
  apply BitVec.eq_of_toNat_eq
  have := idx.isLt
  have := pos.isLt
  rw [field_toNat, encodeIP_toNat]
  show _ = 0
  omega

@[simp] theorem encodeIP_idx (op idx pos : Byte) : field (encodeIP op idx pos) 8 8 = idx := by
  apply BitVec.eq_of_toNat_eq
  have := idx.isLt
  have := pos.isLt
  rw [field_toNat, encodeIP_toNat]
  omega

@[simp] theorem encodeIP_pos (op idx pos : Byte) : field (encodeIP op idx pos) 0 8 = pos := by
  apply BitVec.eq_of_toNat_eq
  have := pos.isLt
  rw [field_toNat, encodeIP_toNat]
  omega

@[simp] theorem encodeB_op6 (op : BitVec 6) (buf : Buf) (low : BitVec 24) : op6 (encodeB op buf low) = op := by
  apply BitVec.eq_of_toNat_eq
  have := op.isLt
  have := buf.selector.isLt
  have := low.isLt
  rw [op6, field_toNat, encodeB_toNat]
  omega

@[simp] theorem encodeB_selector (op : BitVec 6) (buf : Buf) (low : BitVec 24) :
    field (encodeB op buf low) 24 2 = buf.selector := by
  apply BitVec.eq_of_toNat_eq
  have := buf.selector.isLt
  have := low.isLt
  rw [field_toNat, encodeB_toNat]
  omega

@[simp] theorem encodeB_low (op : BitVec 6) (buf : Buf) (low : BitVec 24) : field (encodeB op buf low) 0 24 = low := by
  apply BitVec.eq_of_toNat_eq
  have := low.isLt
  rw [field_toNat, encodeB_toNat]
  omega

@[simp] theorem encodeB1_zero (op : BitVec 6) (buf : Buf) (bit : Bool) :
    field (encodeB op buf ((0 : BitVec 23) ++ BitVec.ofBool bit)) 1 23 = 0 := by
  apply BitVec.eq_of_toNat_eq
  have h1 := field_toNat (encodeB op buf ((0 : BitVec 23) ++ BitVec.ofBool bit)) 1 23
  have h2 := encodeB_toNat op buf ((0 : BitVec 23) ++ BitVec.ofBool bit)
  rw [h1, h2]
  cases bit <;> (show _ = 0; simp; omega)

@[simp] theorem encodeB1_bit (op : BitVec 6) (buf : Buf) (bit : Bool) :
    (encodeB op buf ((0 : BitVec 23) ++ BitVec.ofBool bit)).getLsbD 0 = bit := by
  rw [BitVec.getLsbD, encodeB_toNat]
  cases bit <;> simp [Nat.testBit_zero] <;> omega

@[simp] theorem encodeB8_zero (op : BitVec 6) (buf : Buf) (byte : Byte) :
    field (encodeB op buf ((0 : BitVec 16) ++ byte)) 8 16 = 0 := by
  apply BitVec.eq_of_toNat_eq
  have h : ((0 : BitVec 16) ++ byte).toNat = byte.toNat := (append_toNat _ _).trans (by simp)
  have := byte.isLt
  rw [field_toNat, encodeB_toNat]
  show _ = 0
  rw [h]
  omega

@[simp] theorem encodeB8_byte (op : BitVec 6) (buf : Buf) (byte : Byte) :
    field (encodeB op buf ((0 : BitVec 16) ++ byte)) 0 8 = byte := by
  apply BitVec.eq_of_toNat_eq
  have h : ((0 : BitVec 16) ++ byte).toNat = byte.toNat := (append_toNat _ _).trans (by simp)
  have := byte.isLt
  rw [field_toNat, encodeB_toNat, h]
  omega

/-- Every buffer is named by its selector. -/
@[simp] theorem bufOfSelector_selector (buf : Buf) : bufOfSelector buf.selector = some buf := by cases buf <;> rfl

end Sys2Proof
end

