-- ==== Sys2Proof/Laws/Heap.lean ====
section
/-! SUPPORT. The laws of the priority queue and of the node arena (42_tree_builder.md rules R140 to R143): what makes a node
less, what each operation does to HEAP and NODE, and that it leaves every other field. -/

namespace Sys2Proof.Machine

open Sys2Proof.Safety

/-! ### Swapping and sifting permute the queue -/

theorem swapSlots_perm (h : List Nat) (i j : Nat) : (swapSlots h i j).Perm h := by
  unfold swapSlots
  split
  · rename_i p q hp hq
    obtain ⟨hi, rfl⟩ := List.getElem?_eq_some_iff.1 hp
    obtain ⟨hj, rfl⟩ := List.getElem?_eq_some_iff.1 hq
    exact List.set_set_perm hi hj
  · exact .refl _

@[simp] theorem swapSlots_length (h : List Nat) (i j : Nat) : (swapSlots h i j).length = h.length :=
  (swapSlots_perm h i j).length_eq

/-- What slot `k` holds after a swap. -/
theorem swapSlots_getElem? {h : List Nat} {i j : Nat} (hi : i < h.length) (hj : j < h.length) (k : Nat) :
    (swapSlots h i j)[k]? = if k = j then some h[i] else if k = i then some h[j] else h[k]? := by
  have e : swapSlots h i j = (h.set i h[j]).set j h[i] := by
    simp [swapSlots, List.getElem?_eq_getElem hi, List.getElem?_eq_getElem hj]
  rw [e]
  simp only [List.getElem?_set, List.length_set]
  by_cases h1 : j = k
  · subst h1
    simp [hj]
  · by_cases h2 : i = k
    · subst h2
      simp [h1, Ne.symm h1, hi]
    · simp [h1, h2, Ne.symm h1, Ne.symm h2]

theorem siftUp_perm (b : Block) (k i : Nat) (h : List Nat) : (siftUp b k i h).Perm h := by
  induction k generalizing i h with
  | zero => exact .refl _
  | succ k ih =>
    unfold siftUp
    split
    · exact (ih _ _).trans (swapSlots_perm _ _ _)
    · exact .refl _

theorem siftDown_perm (b : Block) (k i : Nat) (h : List Nat) : (siftDown b k i h).Perm h := by
  induction k generalizing i h with
  | zero => exact .refl _
  | succ k ih =>
    unfold siftDown
    split
    · exact .refl _
    · exact (ih _ _).trans (swapSlots_perm _ _ _)

/-- A slot that is not in use is less than nothing. -/
theorem slotLess_in_range {b : Block} {h : List Nat} {i j : Nat} (e : slotLess b h i j = true) :
    i < h.length ∧ j < h.length := by
  unfold slotLess at e
  split at e
  · rename_i p q hp hq
    exact ⟨(List.getElem?_eq_some_iff.1 hp).1, (List.getElem?_eq_some_iff.1 hq).1⟩
  · cases e

/-- The smallest child of a slot is the slot itself or one of its two children in use. -/
theorem smallestChild_cases (b : Block) (h : List Nat) (i : Nat) :
    smallestChild b h i = i
      ∨ (smallestChild b h i = 2 * i + 1 ∧ 2 * i + 1 < h.length)
      ∨ (smallestChild b h i = 2 * i + 2 ∧ 2 * i + 2 < h.length) := by
  simp only [smallestChild]
  split
  · split
    · exact .inr (.inr ⟨rfl, (slotLess_in_range ‹_›).1⟩)
    · exact .inr (.inl ⟨rfl, (slotLess_in_range ‹_›).1⟩)
  · split
    · exact .inr (.inr ⟨rfl, (slotLess_in_range ‹_›).1⟩)
    · exact .inl rfl

/-! ### HeapInsert and HeapExtractMin -/

/-- HeapInsert adds one slot. -/
theorem heapInsert_perm (b : Block) (n : Nat) : (b.heapInsert n).heap.Perm (n :: b.heap) :=
  (siftUp_perm b _ _ _).trans (List.perm_append_singleton n b.heap)

@[simp] theorem heapInsert_length (b : Block) (n : Nat) : (b.heapInsert n).heap.length = b.heap.length + 1 := by
  simpa using (heapInsert_perm b n).length_eq

/-- HeapInsert writes nothing but HEAP. -/
theorem heapInsert_frame (b : Block) (n : Nat) : b.heapInsert n = { b with heap := (b.heapInsert n).heap } := rfl

theorem heapExtractMin_nil {b : Block} (h : b.heap = []) : b.heapExtractMin = none := by
  simp [Block.heapExtractMin, h]

/-- Everything HeapExtractMin can do on a queue that is not empty: it returns slot 0 and removes that one slot. -/
theorem heapExtractMin_cons {b : Block} {r : Nat} {rest : List Nat} (h : b.heap = r :: rest) :
    ∃ q, b.heapExtractMin = some (r, { b with heap := q }) ∧ q.Perm rest := by
  refine ⟨_, by simp only [Block.heapExtractMin, h]; rfl, (siftDown_perm b _ _ _).trans ?_⟩
  rcases rest.eq_nil_or_concat with rfl | ⟨init, l, rfl⟩
  · exact .refl _
  · have e : (r :: (init ++ [l])).dropLast.set 0 ((r :: (init ++ [l])).getLastD r) = l :: init := by
      rw [← List.cons_append, List.dropLast_concat, List.getLastD_concat]
      rfl
    rw [List.concat_eq_append, e]
    exact (List.perm_append_singleton l init).symm

/-- The inversion of HeapExtractMin. -/
theorem heapExtractMin_eq_some {b b' : Block} {r : Nat} (h : b.heapExtractMin = some (r, b')) :
    b.heap.head? = some r ∧ b' = { b with heap := b'.heap } ∧ b.heap.Perm (r :: b'.heap) := by
  match hq : b.heap with
  | [] => rw [heapExtractMin_nil hq] at h; cases h
  | x :: rest =>
    obtain ⟨q, e, hp⟩ := heapExtractMin_cons hq
    rw [e] at h
    cases h
    exact ⟨rfl, rfl, (hp.cons _).symm⟩

theorem heapExtractMin_eq_none {b : Block} (h : b.heapExtractMin = none) : b.heap = [] := by
  match hq : b.heap with
  | [] => rfl
  | x :: rest =>
    obtain ⟨q, e, -⟩ := heapExtractMin_cons hq
    rw [e] at h
    cases h

/-! ### The arena -/

/-- One more node, queued. -/
theorem addNode_perm (b : Block) (x : Node) : (b.addNode x).heap.Perm (b.nodes.length :: b.heap) :=
  heapInsert_perm _ _

@[simp] theorem addNode_heap_length (b : Block) (x : Node) : (b.addNode x).heap.length = b.heap.length + 1 :=
  heapInsert_length _ _

/-- `addNode` writes nothing but NODE and HEAP. -/
theorem addNode_frame (b : Block) (x : Node) :
    b.addNode x = { b with nodes := b.nodes ++ [x], heap := (b.addNode x).heap } := rfl

/-- Leaf insertion writes nothing but NODE and HEAP: one leaf and one slot for each entry, in order. -/
theorem insertLeaves_foldl (es : List (Entry × Nat)) (b : Block) :
    (es.foldl (fun acc p => acc.addNode (.leaf p.1.freq p.2)) b).nodes = b.nodes ++ es.map (fun p => .leaf p.1.freq p.2)
      ∧ (es.foldl (fun acc p => acc.addNode (.leaf p.1.freq p.2)) b).heap.Perm
          (b.heap ++ (List.range es.length).map (b.nodes.length + ·))
      ∧ es.foldl (fun acc p => acc.addNode (.leaf p.1.freq p.2)) b =
          { b with
            nodes := (es.foldl (fun acc p => acc.addNode (.leaf p.1.freq p.2)) b).nodes
            heap := (es.foldl (fun acc p => acc.addNode (.leaf p.1.freq p.2)) b).heap } := by
  induction es generalizing b with
  | nil => simp
  | cons e es ih =>
    obtain ⟨h1, h2, h3⟩ := ih (b.addNode (.leaf e.1.freq e.2))
    simp only [List.foldl_cons]
    refine ⟨by rw [h1]; simp, ?_, by rw [h3]; rfl⟩
    refine h2.trans (((addNode_perm b _).append_right _).trans ?_)
    simp only [addNode_nodes, List.length_append, List.length_cons, List.length_nil, List.range_succ_eq_map, List.map_cons,
      List.map_map, Nat.add_zero]
    refine (List.perm_middle (l₁ := b.heap) (a := b.nodes.length)).symm.trans ?_
    refine (List.Perm.append_left _ (List.Perm.of_eq ?_))
    simp only [List.cons.injEq, true_and]
    apply List.map_congr_left
    intro x _
    simp only [Function.comp]
    omega

theorem insertLeaves_nodes (b : Block) :
    b.insertLeaves.nodes = b.nodes ++ b.alpha.zipIdx.map (fun p => .leaf p.1.freq p.2) :=
  (insertLeaves_foldl _ b).1

theorem insertLeaves_heap (b : Block) :
    b.insertLeaves.heap.Perm (b.heap ++ (List.range b.alpha.length).map (b.nodes.length + ·)) := by
  have h := (insertLeaves_foldl b.alpha.zipIdx b).2.1
  rw [List.length_zipIdx] at h
  exact h

theorem insertLeaves_frame (b : Block) :
    b.insertLeaves = { b with nodes := b.insertLeaves.nodes, heap := b.insertLeaves.heap } :=
  (insertLeaves_foldl _ b).2.2

/-- Merging writes nothing but NODE and HEAP. -/
theorem mergeAll_frame (k : Nat) (b : Block) :
    Block.mergeAll k b = { b with nodes := (Block.mergeAll k b).nodes, heap := (Block.mergeAll k b).heap } := by
  induction k generalizing b with
  | zero => rfl
  | succ k ih =>
    unfold Block.mergeAll
    split
    · rfl
    · rename_i x b1 h1
      split
      · rfl
      · rename_i y b2 h2
        obtain ⟨-, e1, -⟩ := heapExtractMin_eq_some h1
        obtain ⟨-, e2, -⟩ := heapExtractMin_eq_some h2
        rw [ih]
        generalize hc : Block.mergeAll k (b2.addNode (.internal (b2.freqOf x + b2.freqOf y) x y)) = c
        simp only
        rw [addNode_frame, e2, e1]

/-! ### The comparator (R140) and what ties do -/

/-- Less on existing nodes (R140). -/
theorem less_of_nodes {b : Block} {p q : Nat} {x y : Node} (hx : b.nodes[p]? = some x) (hy : b.nodes[q]? = some y) :
    b.less p q = nodeLess b.alpha x y := by simp [Block.less, hx, hy]

/-- The inversion of Less: both nodes exist. -/
theorem less_inv {b : Block} {p q : Nat} (h : b.less p q = true) :
    ∃ x y, b.nodes[p]? = some x ∧ b.nodes[q]? = some y ∧ nodeLess b.alpha x y = true := by
  unfold Block.less at h
  split at h
  · exact ⟨_, _, ‹_›, ‹_›, h⟩
  · cases h

/-- Everything that makes a node less than another (R140). -/
theorem nodeLess_iff (es : List Entry) (x y : Node) :
    nodeLess es x y = true ↔ x.freq < y.freq
      ∨ (x.freq = y.freq ∧ ∃ u v, x.symbol es = some u ∧ y.symbol es = some v ∧ u.toNat < v.toNat) := by
  simp only [nodeLess, Bool.or_eq_true, decide_eq_true_eq, Bool.and_eq_true]
  refine or_congr_right (and_congr_right fun _ => ?_)
  split
  · rename_i u v hu hv
    simp [hu, hv]
  · rename_i h
    simp only [Bool.false_eq_true, false_iff]
    rintro ⟨u, v, hu, hv, -⟩
    exact h u v hu hv

theorem nodeLess_irrefl (es : List Entry) (x : Node) : nodeLess es x x = false := by
  rw [Bool.eq_false_iff, ne_eq, nodeLess_iff]
  rintro (h | ⟨-, u, v, hu, hv, h⟩)
  · omega
  · rw [hu] at hv
    cases hv
    omega

theorem nodeLess_trans {es : List Entry} {x y z : Node} (h1 : nodeLess es x y = true) (h2 : nodeLess es y z = true) :
    nodeLess es x z = true := by
  rw [nodeLess_iff] at *
  rcases h1 with h1 | ⟨h1, u, v, hu, hv, h3⟩ <;> rcases h2 with h2 | ⟨h2, v', w, hv', hw, h4⟩
  · exact .inl (by omega)
  · exact .inl (by omega)
  · exact .inl (by omega)
  · rw [hv] at hv'
    cases hv'
    exact .inr ⟨by omega, u, w, hu, hw, by omega⟩

theorem less_irrefl (b : Block) (p : Nat) : b.less p p = false := by
  unfold Block.less
  split
  · rename_i x y hx hy
    rw [hx] at hy
    cases hy
    exact nodeLess_irrefl _ _
  · rfl

theorem less_trans {b : Block} {p q r : Nat} (h1 : b.less p q = true) (h2 : b.less q r = true) : b.less p r = true := by
  obtain ⟨x, y, hx, hy, h⟩ := less_inv h1
  obtain ⟨y', z, hy', hz, h'⟩ := less_inv h2
  rw [hy] at hy'
  cases hy'
  rw [less_of_nodes hx hz]
  exact nodeLess_trans h h'

/-- A new node that is not less than its parent stays in the last slot (R141). -/
theorem heapInsert_of_not_less {b : Block} {n : Nat}
    (h : ∀ p, b.heap[(b.heap.length - 1) / 2]? = some p → b.less n p = false) :
    b.heapInsert n = { b with heap := b.heap ++ [n] } := by
  unfold Block.heapInsert
  congr 1
  match hq : b.heap with
  | [] => rfl
  | r :: rest =>
    have hl : (r :: rest).length = rest.length + 1 := rfl
    rw [hl, siftUp, if_neg]
    rintro ⟨-, hs⟩
    have hp : (rest.length + 1 - 1) / 2 < (r :: rest).length := by simp; omega
    simp only [slotLess] at hs
    rw [show ((r :: rest) ++ [n])[rest.length + 1]? = some n from List.getElem?_concat_length,
      List.getElem?_append_left hp, List.getElem?_eq_getElem hp] at hs
    rw [hq] at h
    simp only [hl] at h
    exact absurd hs (by simpa using h _ (List.getElem?_eq_getElem hp))

/-- Slot 0 is never the target of a swap below it. -/
theorem siftDown_head {b : Block} (k i : Nat) (h : List Nat) (hi : 0 < i) : (siftDown b k i h).head? = h.head? := by
  induction k generalizing i h with
  | zero => rfl
  | succ k ih =>
    unfold siftDown
    split
    · rfl
    · rcases smallestChild_cases b h i with e | ⟨e, hl⟩ | ⟨e, hl⟩
      · contradiction
      all_goals
        rw [ih _ _ (by omega), e, List.head?_eq_getElem?, swapSlots_getElem? (by omega) hl, List.head?_eq_getElem?,
          if_neg (by omega), if_neg (by omega)]

/-- The entries of a list in order (a): of two of them the later is not less, as a leaf, than the earlier. -/
theorem leaf_not_less {es : List Entry} (hs : es.Pairwise ltA) {i j : Nat} (hij : i ≤ j) (hj : j < es.length) :
    nodeLess es (.leaf es[j].freq j) (.leaf (es[i]'(by omega)).freq i) = false := by
  rw [Bool.eq_false_iff, ne_eq, nodeLess_iff]
  rcases Nat.lt_or_eq_of_le hij with h | rfl
  · have := List.pairwise_iff_getElem.1 hs i j (by omega) hj h
    simp only [Node.freq, Node.symbol, List.getElem?_eq_getElem hj, List.getElem?_eq_getElem (show i < es.length by omega)]
    simp only [Option.map_some, Option.some.injEq]
    rintro (h1 | ⟨h1, u, v, rfl, rfl, h2⟩) <;> omega
  · rintro (h1 | ⟨-, u, v, hu, hv, h⟩)
    · exact Nat.lt_irrefl _ h1
    · rw [hu] at hv
      cases hv
      exact Nat.lt_irrefl _ h

/-- Leaf insertion in order (a) (R143): after `k` entries slot `i` holds leaf `i`. -/
theorem insertLeaves_foldl_sorted {es : List Entry} (hs : es.Pairwise ltA) (b : Block) (hb : b.alpha = es) :
    ∀ k ≤ es.length,
      (es.zipIdx.take k).foldl (fun acc p => acc.addNode (.leaf p.1.freq p.2)) { b with nodes := [], heap := [] } =
        { b with nodes := (es.zipIdx.take k).map (fun p => .leaf p.1.freq p.2), heap := List.range k } := by
  intro k
  induction k with
  | zero => intro _; simp
  | succ k ih =>
    intro hk
    have hz : es.zipIdx[k]? = some (es[k], k) := by
      simp [List.getElem?_zipIdx, List.getElem?_eq_getElem (show k < es.length by omega)]
    rw [List.take_add_one, hz]
    simp only [Option.toList_some, List.foldl_append, List.foldl_cons, List.foldl_nil, List.map_append, List.map_cons, List.map_nil]
    rw [ih (by omega)]
    unfold Block.addNode
    rw [heapInsert_of_not_less]
    · simp [List.range_succ, show k ≤ es.length by omega]
    · intro p hp
      simp only [List.length_range] at hp
      obtain ⟨hp1, hp2⟩ := List.getElem?_eq_some_iff.1 hp
      simp only [List.length_range, List.getElem_range] at hp1 hp2
      have hlen : ((es.zipIdx.take k).map (fun p => Node.leaf p.1.freq p.2)).length = k := by simp; omega
      have hpk : p < k := by omega
      rw [less_of_nodes (x := .leaf es[k].freq k) (y := .leaf (es[p]'(by omega)).freq p)]
      · rw [hb]
        exact leaf_not_less hs (by omega) (by omega)
      · rw [List.getElem?_concat_length]
      · rw [List.getElem?_append_left (Nat.lt_of_lt_of_eq hpk hlen.symm)]
        simp [hpk, List.getElem?_zipIdx, List.getElem?_eq_getElem (show p < es.length by omega)]

/-- Among leaves being no greater passes on. -/
theorem not_less_trans {b : Block} {p q r : Nat}
    (hq : ((b.nodes[q]?).bind (Node.symbol b.alpha)).isSome)
    (hr : ((b.nodes[r]?).bind (Node.symbol b.alpha)).isSome) (hp : ((b.nodes[p]?).bind (Node.symbol b.alpha)).isSome)
    (h1 : b.less p q = false) (h2 : b.less q r = false) : b.less p r = false := by
  obtain ⟨u, hu⟩ := Option.isSome_iff_exists.1 hp
  obtain ⟨v, hv⟩ := Option.isSome_iff_exists.1 hq
  obtain ⟨w, hw⟩ := Option.isSome_iff_exists.1 hr
  obtain ⟨x, hx, hxu⟩ := Option.bind_eq_some_iff.1 hu
  obtain ⟨y, hy, hyv⟩ := Option.bind_eq_some_iff.1 hv
  obtain ⟨z, hz, hzw⟩ := Option.bind_eq_some_iff.1 hw
  rw [less_of_nodes hx hy] at h1
  rw [less_of_nodes hy hz] at h2
  rw [less_of_nodes hx hz]
  rw [Bool.eq_false_iff, ne_eq, nodeLess_iff] at *
  simp only [hxu, hyv, hzw, Option.some.injEq, exists_eq_left', exists_and_left] at *
  omega

/-- In a queue of leaves with the heap property no node is less than the one in slot 0 (R142). -/
theorem root_least_of_leaves {b : Block} {r : Nat} (hr : b.heap.head? = some r) (ho : HeapOrdered b)
    (hl : ∀ m ∈ b.heap, ((b.nodes[m]?).bind (Node.symbol b.alpha)).isSome) : ∀ m ∈ b.heap, b.less m r = false := by
  have key : ∀ i (hi : i < b.heap.length), b.less b.heap[i] r = false := by
    intro i
    induction i using Nat.strong_induction_on with
    | _ i ih =>
      intro hi
      have hr0 : b.heap[0]? = some r := by rw [← List.head?_eq_getElem?]; exact hr
      obtain ⟨h0, e0⟩ := List.getElem?_eq_some_iff.1 hr0
      rcases Nat.eq_zero_or_pos i with rfl | hpos
      · rw [e0]
        exact less_irrefl b r
      · have hp : (i - 1) / 2 < b.heap.length := by omega
        have hs := ho i hi hpos
        simp only [slotLess, List.getElem?_eq_getElem hi, List.getElem?_eq_getElem hp] at hs
        exact not_less_trans (hl _ (List.getElem_mem hp)) (e0 ▸ hl _ (List.getElem_mem h0)) (hl _ (List.getElem_mem hi)) hs
          (ih _ (by omega) hp)
  intro m hm
  obtain ⟨i, hi, rfl⟩ := List.getElem_of_mem hm
  exact key i hi

end Sys2Proof.Machine
end

