-- ==== Sys2Proof/Laws/PerInstr.lean ====
section
/-! SUPPORT. Statements about every command as syntax, one lemma per constructor. RowAccepts: the word of a command is accepted
by its row of the opcode table (30_encoding.md rule R85: `w & mask == match`). -/

namespace Sys2Proof.Laws.RowAccepts

/-- The word the encoder makes of a command meets the match and mask of the command's own row of rule R85. -/
abbrev Statement (i : Instr) : Prop := i.row.accepts (encode i) = true

theorem init : Statement .init := by decide

theorem abort : Statement .abort := by decide

theorem finish : Statement .finish := by decide

theorem retire : Statement .retire := by decide

theorem rdphase : Statement .rdphase := by decide

theorem rderr : Statement .rderr := by decide

theorem bapp (buf : Buf) (bit : Bool) : Statement (.bapp buf bit) := by
  cases buf <;> cases bit <;> decide

theorem bappb (buf : Buf) (byte : Byte) : Statement (.bappb buf byte) := by
  have h := encodeB_mask 0x05 0x3F buf 0 ((0 : BitVec 16) ++ byte) ((0xFFFF : BitVec 16) ++ (0 : Byte))
  exact beq_iff_eq.2 (h.trans (by rw [BitVec.and_append]; simp; rfl))

theorem btrim (buf : Buf) : Statement (.btrim buf) := by
  cases buf <;> decide

theorem blen (buf : Buf) : Statement (.blen buf) := by
  cases buf <;> decide

theorem bget (buf : Buf) (pos : BitVec 24) : Statement (.bget buf pos) := by
  have h := encodeB_mask 0x08 0x3F buf 0 pos 0
  exact beq_iff_eq.2 (h.trans (by simp; rfl))

theorem brdb (buf : Buf) (idx : BitVec 24) : Statement (.brdb buf idx) := by
  have h := encodeB_mask 0x09 0x3F buf 0 idx 0
  exact beq_iff_eq.2 (h.trans (by simp; rfl))

theorem relenc : Statement .relenc := by decide

theorem reldec : Statement .reldec := by decide

theorem count (b : Byte) : Statement (.count b) := by
  have h := encodeI8_mask 0x30 b 0xFF 0 0xFFFF
  exact beq_iff_eq.2 (h.trans (by simp; rfl))

theorem rdft (b : Byte) : Statement (.rdft b) := by
  have h := encodeI8_mask 0x31 b 0xFF 0 0xFFFF
  exact beq_iff_eq.2 (h.trans (by simp; rfl))

theorem mkalpha : Statement .mkalpha := by decide

theorem nsym : Statement .nsym := by decide

theorem rdsym (i : Byte) : Statement (.rdsym i) := by
  have h := encodeI8_mask 0x34 i 0xFF 0 0xFFFF
  exact beq_iff_eq.2 (h.trans (by simp; rfl))

theorem rdfreq (i : Byte) : Statement (.rdfreq i) := by
  have h := encodeI8_mask 0x35 i 0xFF 0 0xFFFF
  exact beq_iff_eq.2 (h.trans (by simp; rfl))

theorem cget (i : Byte) (pos : Byte) : Statement (.cget i pos) := by
  have h := encodeIP_mask 0x36 i pos 0xFF 0xFF 0 0
  exact beq_iff_eq.2 (h.trans (by simp; rfl))

theorem mktree : Statement .mktree := by decide

theorem assign : Statement .assign := by decide

theorem canon : Statement .canon := by decide

theorem serhdr : Statement .serhdr := by decide

theorem parse : Statement .parse := by decide

theorem deser : Statement .deser := by decide

theorem pack (b : Byte) : Statement (.pack b) := by
  have h := encodeI8_mask 0x60 b 0xFF 0 0xFFFF
  exact beq_iff_eq.2 (h.trans (by simp; rfl))

theorem packend : Statement .packend := by decide

theorem mklook : Statement .mklook := by decide

theorem decode : Statement .decode := by decide

end Sys2Proof.Laws.RowAccepts
end

