-- ==== Sys2Proof/Laws/Step.lean ====
section
/-! SUPPORT. What a step can do, said once: every meaning is a conclusion of a result, so a command ends with an OK response, a
fault response, or no outcome; and the four things a step can find at the port. -/

namespace Sys2Proof.Machine

open Sys2Proof.Safety

/-- Every command's meaning is the conclusion of what its rule computes. -/
theorem exec_conclude (i : Instr) (s : State) : ∃ r : Result, exec i s = s.conclude r := by
  cases i <;> first | exact ⟨_, rfl⟩ | exact ⟨finishOk _ _, rfl⟩

/-- The step with nothing at the port. -/
theorem step_idle {s : State} (h : s.pending = []) : step s = .next s := by
  simp [step, State.takeAct, h]

/-- The step that takes the reset input. -/
theorem step_reset {s : State} {f : Option Word} {rest : List HostAct} (h : s.pending = .reset f :: rest) :
    step s = .next { s with blk := Block.reset, pending := rest } := by
  simp [step, State.takeAct, h, State.hardReset]

/-- The step that takes a word that is no command. -/
theorem step_illegal {s : State} {w : Word} {rest : List HostAct} {e : IllegalWord}
    (h : s.pending = .command w :: rest) (hd : decode w = .error e) :
    step s = .next (faulted { s with pending := rest } .illegalCommand) := by
  simp [step, State.takeAct, h, hd, State.illegalWord, takeFault_eq]

/-- Every step is one of these four. -/
theorem step_cases (s : State) :
    (s.pending = [] ∧ step s = .next s)
      ∨ (∃ f rest, s.pending = .reset f :: rest ∧ step s = .next { s with blk := Block.reset, pending := rest })
      ∨ (∃ w rest e, s.pending = .command w :: rest ∧ decode w = .error e
          ∧ step s = .next (faulted { s with pending := rest } .illegalCommand))
      ∨ (∃ w rest i, s.pending = .command w :: rest ∧ decode w = .ok i ∧ step s = exec i { s with pending := rest }) := by
  match hp : s.pending with
  | [] => exact .inl ⟨rfl, step_idle hp⟩
  | .reset f :: rest => exact .inr (.inl ⟨f, rest, rfl, step_reset hp⟩)
  | .command w :: rest =>
    match hd : decode w with
    | .error e => exact .inr (.inr (.inl ⟨w, rest, e, rfl, hd, step_illegal hp hd⟩))
    | .ok i => exact .inr (.inr (.inr ⟨w, rest, i, rfl, hd, step_command hp hd⟩))

/-- The host's `withFetchWord` puts the word where the very next step takes it. -/
theorem step_withFetchWord (s : State) (nbits w : Nat) (i : Instr) (h : decodeTableWord nbits w = some i) :
    step (s.withFetchWord nbits w) = exec i s := by
  unfold decodeTableWord at h
  split at h
  · rename_i j hj
    cases h
    rw [step_command (s := s.withFetchWord nbits w) rfl hj]
    rfl
  · cases h

end Sys2Proof.Machine
end

