-- ==== Sys2Proof/Tests/Slice0.lean ====
section
/-! SUPPORT. Tests of the model against the spec's own worked examples (each names its rule), the smoke tests of WellFormed, the
decoder on words written out from 30_encoding.md, and for every obligation with hypotheses a state that meets them. -/

namespace Sys2Proof.Tests

open Sys2Proof Sys2Proof.Machine Sys2Proof.Safety

set_option Elab.async false

/-! ### Helpers -/

/-- The reset machine in a given phase, with some fields of its block replaced. -/
def st (p : Phase) (f : Block → Block) : State :=
  { State.reset with blk := f { Block.reset with phase := p } }

/-- The block a command leaves. -/
def after (o : Host.Outcome State Fault Refusal) : Option Block :=
  match o with
  | .next t => some t.blk
  | _ => none

/-- The response to a command: its status and data. -/
def answer (o : Host.Outcome State Fault Refusal) : Option (Status × Nat) :=
  match o with
  | .next t => t.rsps.getLast?.map (fun r => (r.status, r.data.toNat))
  | _ => none

/-- A BitMessage from its text (00_scope.md rule R9). -/
def bits (t : String) : Bits := t.toList.map (· == '1')

/-- An entry from its symbol's character, frequency and code. -/
def en (c : Char) (freq : Nat) (code : String) : Entry := ⟨BitVec.ofNat 8 c.toNat, freq, bits code⟩

/-- The bits of a list of byte numbers. -/
def byteBits (vs : List Nat) : Bits := bitsOfBytes (vs.map (BitVec.ofNat 8))

/-! ### WellFormed: an ill-formed term for each check (30_encoding.md rule R87 (c)) -/

theorem test_wf_refuses_bapp_out : (Instr.bapp .out true).wf = false := by decide

theorem test_wf_refuses_bappb_out : (Instr.bappb .out 0x61).wf = false := by decide

theorem test_wf_refuses_btrim_out : (Instr.btrim .out).wf = false := by decide

theorem test_wf_accepts_the_rest :
    oneOfEachRow.all Instr.wf = true ∧ (Instr.bapp .pay true).wf = true ∧ (Instr.bappb .pay 255).wf = true
      ∧ (Instr.btrim .pay).wf = true ∧ (Instr.blen .out).wf = true ∧ (Instr.bget .out 0).wf = true
      ∧ (Instr.brdb .out 0).wf = true := by decide

/-! ### Decode: one word of every row, bit by bit from rules R81 to R85 -/

theorem test_decode_system :
    decode 0b00000001_000000000000000000000000 = .ok .init ∧ decode 0b00000010_000000000000000000000000 = .ok .abort
      ∧ decode 0b00000011_000000000000000000000000 = .ok .finish ∧ decode 0b00000100_000000000000000000000000 = .ok .retire
      ∧ decode 0b00000101_000000000000000000000000 = .ok .rdphase
      ∧ decode 0b00000110_000000000000000000000000 = .ok .rderr := by decide

theorem test_decode_buffer_writes :
    decode 0b000100_01_00000000000000000000000_1 = .ok (.bapp .pay true)
      ∧ decode 0b000101_00_0000000000000000_01100001 = .ok (.bappb .hdr 0x61)
      ∧ decode 0b000110_01_000000000000000000000000 = .ok (.btrim .pay)
      ∧ decode 0b00101000_000000000000000000000000 = .ok .relenc
      ∧ decode 0b00101001_000000000000000000000000 = .ok .reldec := by decide

theorem test_decode_buffer_reads :
    decode 0b000111_10_000000000000000000000000 = .ok (.blen .out)
      ∧ decode 0b001000_10_000000000000000000001001 = .ok (.bget .out 9)
      ∧ decode 0b001001_00_100000000000000000000011 = .ok (.brdb .hdr 0x800003) := by decide

theorem test_decode_alphabet :
    decode 0b00110000_0000000000000000_01100001 = .ok (.count 97)
      ∧ decode 0b00110001_0000000000000000_11111111 = .ok (.rdft 255)
      ∧ decode 0b00110010_000000000000000000000000 = .ok .mkalpha ∧ decode 0b00110011_000000000000000000000000 = .ok .nsym
      ∧ decode 0b00110100_0000000000000000_00000010 = .ok (.rdsym 2)
      ∧ decode 0b00110101_0000000000000000_10000000 = .ok (.rdfreq 128)
      ∧ decode 0b00110110_00000000_00000010_00000001 = .ok (.cget 2 1) := by decide

theorem test_decode_pipeline :
    decode 0b01000000_000000000000000000000000 = .ok .mktree ∧ decode 0b01000001_000000000000000000000000 = .ok .assign
      ∧ decode 0b01010000_000000000000000000000000 = .ok .canon ∧ decode 0b01010001_000000000000000000000000 = .ok .serhdr
      ∧ decode 0b01010010_000000000000000000000000 = .ok .parse ∧ decode 0b01010011_000000000000000000000000 = .ok .deser
      ∧ decode 0b01100000_0000000000000000_00000111 = .ok (.pack 7)
      ∧ decode 0b01100001_000000000000000000000000 = .ok .packend
      ∧ decode 0b01110000_000000000000000000000000 = .ok .mklook
      ∧ decode 0b01110001_000000000000000000000000 = .ok .decode := by decide

/-- Rule R87: (a) opcode bytes on both sides of the gaps, (b) the lowest and highest bit that must be 0, (c) the selectors. -/
theorem test_decode_illegal :
    decode 0x00000000 = .error .unknownOpcode ∧ decode 0x0F000000 = .error .unknownOpcode
      ∧ decode 0x2A000000 = .error .unknownOpcode ∧ decode 0x37000000 = .error .unknownOpcode
      ∧ decode 0x72000000 = .error .unknownOpcode ∧ decode 0xFFFFFFFF = .error .unknownOpcode
      ∧ decode 0x40000001 = .error .mustBeZero ∧ decode 0x30800000 = .error .mustBeZero
      ∧ decode 0x36010000 = .error .mustBeZero ∧ decode 0x10000002 = .error .mustBeZero
      ∧ decode 0x13000000 = .error .selector ∧ decode 0x1A000000 = .error .selector
      ∧ decode 0x27FFFFFF = .error .selector := by decide

/-- Rule R90's encodings, and the assembler's reading of its lines. -/
theorem test_assemble_examples :
    (assemble "COUNT 'a'").map encode = some 0x30000061 ∧ (assemble "BAPP PAY, 1").map encode = some 0x11000001
      ∧ (assemble "BRDB HDR, 3").map encode = some 0x24000003 ∧ (assemble "BGET OUT, 9").map encode = some 0x22000009
      ∧ (assemble "CGET 2, 1 ; code bit").map encode = some 0x36000201
      ∧ (assemble "MKTREE").map encode = some 0x40000000 ∧ assemble "BAPP OUT, 1" = none := by decide +kernel

theorem test_table_word_and_fetch :
    decodeTableWord 32 0x36000201 = some (.cget 2 1)
      ∧ (after (step (State.reset.withFetchWord 32 0x32000000))).map Block.phase = some .alphabetBuilt := by
  decide +kernel

/-! ### One step of each command, from the examples of its rule -/

/-- R101: from reset, `BAPP PAY, 1` gives PAY = "1"; R60: "10110" has byte view B0. -/
theorem test_bapp : (after (exec (.bapp .pay true) State.reset)).map Block.pay = some (bits "1") := by decide +kernel

theorem test_bit_order : byteView (bits "10110") 0 = 0xB0 ∧ byteView (bits "000101011") 0 = 0x15
    ∧ byteView (bits "000101011") 1 = 0x80 := by decide

/-- R102: from reset, `BAPPB HDR, 0x61` gives HDR = "01100001". -/
theorem test_bappb : (after (exec (.bappb .hdr 0x61) State.reset)).map Block.hdr = some (bits "01100001") := by
  decide +kernel

/-- R103: PAY = "101", `BTRIM PAY` gives "10". -/
theorem test_btrim : (after (exec (.btrim .pay) (st .idle fun b => { b with pay := bits "101" }))).map Block.pay
    = some (bits "10") := by decide +kernel

theorem test_blen : answer (exec (.blen .pay) (st .done fun b => { b with pay := bits "10" })) = some (.ok, 2) := by
  decide +kernel

/-- R105: PAY = "10": 1, 0, OutOfRange. -/
theorem test_bget : ([0, 1, 2].map fun p => answer (exec (.bget .pay p) (st .done fun b => { b with pay := bits "10" })))
    = [some (.ok, 1), some (.ok, 0), some (.outOfRange, 0)] := by decide +kernel

/-- R106: PAY = "000101011": 15, 80, OutOfRange. -/
theorem test_brdb : ([0, 1, 2].map fun p => answer (exec (.brdb .pay p) (st .done fun b => { b with pay := bits "000101011" })))
    = [some (.ok, 0x15), some (.ok, 0x80), some (.outOfRange, 0)] := by decide +kernel

theorem test_relenc : (after (exec .relenc (st .done fun b => { b with hdr := bits "1", pay := bits "0", out := byteBits [7] }))).map
    (fun b => (b.hdr, b.pay, b.out)) = some ([], [], byteBits [7]) := by decide +kernel

theorem test_reldec : (after (exec .reldec (st .done fun b => { b with hdr := bits "1", out := byteBits [7] }))).map
    (fun b => (b.hdr, b.out)) = some (bits "1", []) := by decide +kernel

/-- R120, R121: a counter that held 1 holds 2 after `COUNT 'a'`, and 'b' stays 0. -/
theorem test_count : ((after (exec (.count 97) (st .idle fun b => b.setCounter 97 1))).map
    fun b => (b.counter 97, b.counter 98)) = some (2, 0) := by decide +kernel

theorem test_rdft : answer (exec (.rdft 97) (st .treeBuilt fun b => b.setCounter 97 2)) = some (.ok, 2) := by decide +kernel

/-- R122: counts a 3, b 2, c 1 give [(c,1), (b,2), (a,3)]; all equal, [(a,1), (b,1), (c,1)]. -/
theorem test_mkalpha :
    (after (exec .mkalpha (st .idle fun b => ((b.setCounter 97 3).setCounter 98 2).setCounter 99 1))).map Block.alpha
      = some [en 'c' 1 "", en 'b' 2 "", en 'a' 3 ""]
      ∧ (after (exec .mkalpha (st .idle fun b => ((b.setCounter 97 1).setCounter 98 1).setCounter 99 1))).map Block.alpha
      = some [en 'a' 1 "", en 'b' 1 "", en 'c' 1 ""] := by decide +kernel

/-- The alphabet of "abc" after CANON (R124, R126). -/
def abc : State := st .canonicalized fun b => { b with alpha := [en 'c' 1 "0", en 'a' 1 "10", en 'b' 1 "11"] }

theorem test_nsym : answer (exec .nsym abc) = some (.ok, 3) := by decide +kernel

/-- R124: 0x0163, 0x0261. -/
theorem test_rdsym : ([0, 1, 3].map fun i => answer (exec (.rdsym i) abc))
    = [some (.ok, 0x0163), some (.ok, 0x0261), some (.outOfRange, 0)] := by decide +kernel

/-- R125. -/
theorem test_rdfreq : answer (exec (.rdfreq 2) (st .alphabetBuilt fun b =>
    { b with alpha := [en 'c' 1 "", en 'b' 2 "", en 'a' 3 ""] })) = some (.ok, 3) := by decide +kernel

/-- R126. -/
theorem test_cget : ([0, 1, 2].map fun p => answer (exec (.cget 1 p) abc))
    = [some (.ok, 1), some (.ok, 0), some (.outOfRange, 0)] := by decide +kernel

/-- The tree of rule R143's example, over [(c,1), (b,2), (a,3)]. -/
def exampleNodes : List Node := [.leaf 1 0, .leaf 2 1, .leaf 3 2, .internal 3 0 1, .internal 6 2 3]

/-- R143: node 3 = (0, 1), node 4 = (2, 3), ROOT 4; the queue is empty. -/
theorem test_mktree :
    (after (exec .mktree (st .alphabetBuilt fun b => { b with alpha := [en 'c' 1 "", en 'b' 2 "", en 'a' 3 ""] }))).map
      (fun b => (b.nodes, b.root, b.heap)) = some (exampleNodes, some 4, []) := by decide +kernel

/-- R140, R143 by hand, counts a 1, b 1, c 1: the merges take leaves 0 and 1, then leaf 2 and the internal node. -/
theorem test_mktree_ties :
    (after (exec .mktree (st .alphabetBuilt fun b => { b with alpha := [en 'a' 1 "", en 'b' 1 "", en 'c' 1 ""] }))).map
      (fun b => b.nodes.drop 3) = some [.internal 2 0 1, .internal 3 2 3] := by decide +kernel

theorem test_mktree_empty :
    answer (exec .mktree (st .alphabetBuilt id)) = some (.treeConstructionFailed, 0) := by decide +kernel

/-- The machine before ASSIGN in rule R145's example. -/
def treeState : State := st .treeBuilt fun b =>
  { ((b.setCounter 97 3).setCounter 98 2).setCounter 99 1 with
    alpha := [en 'c' 1 "", en 'b' 2 "", en 'a' 3 ""], nodes := exampleNodes, root := some 4 }

/-- R145: [(c,1,"10"), (b,2,"11"), (a,3,"0")], the tree discarded. -/
theorem test_assign : (after (exec .assign treeState)).map (fun b => (b.alpha, b.nodes, b.root, b.trav))
    = some ([en 'c' 1 "10", en 'b' 2 "11", en 'a' 3 "0"], [], none, []) := by decide +kernel

/-- R146: a single leaf gets the code "0". -/
theorem test_assign_single :
    (after (exec .assign (st .treeBuilt fun b =>
      { b with alpha := [en 'a' 5 ""], nodes := [.leaf 5 0], root := some 0 }))).map Block.alpha
      = some [en 'a' 5 "0"] := by decide +kernel

/-- The machine before CANON in rule R162's example. -/
def codedState : State := st .codesAssigned fun b =>
  { ((b.setCounter 97 3).setCounter 98 2).setCounter 99 1 with
    alpha := [en 'c' 1 "10", en 'b' 2 "11", en 'a' 3 "0"] }

/-- R162: [(a,3,"0"), (b,2,"10"), (c,1,"11")]. -/
theorem test_canon : (after (exec .canon codedState)).map Block.alpha
    = some [en 'a' 3 "0", en 'b' 2 "10", en 'c' 1 "11"] := by decide +kernel

/-- R161: lengths (2, 2, 3, 3, 3, 3) give "00", "01", "100", "101", "110", "111". -/
theorem test_canon_numbering :
    (canonical [en 'a' 0 "00", en 'b' 0 "00", en 'c' 0 "000", en 'd' 0 "000", en 'e' 0 "000", en 'f' 0 "000"]).toOption.map
      (·.map (fun e => toBinaryString e.code)) = some ["00", "01", "100", "101", "110", "111"] := by decide +kernel

/-- The machine after CANON, "aaabbc". -/
def canonState : State := st .canonicalized fun b =>
  { ((b.setCounter 97 3).setCounter 98 2).setCounter 99 1 with
    alpha := [en 'a' 3 "0", en 'b' 2 "10", en 'c' 1 "11"] }

/-- R164: header bytes `02 01 02 61 62 63`. -/
theorem test_serhdr : (after (exec .serhdr canonState)).map (fun b => (b.hdr, b.lookup 98, b.lookup 100))
    = some (byteBits [2, 1, 2, 0x61, 0x62, 0x63], some 1, none) := by decide +kernel

theorem test_serhdr_guard : answer (exec .serhdr (st .idle fun b => { b with pay := bits "1" }))
    = some (.encodedMessageAlreadyPopulated, 0) := by decide +kernel

/-- R166: header `01 02 61 62` gives 1 and 2; `01 02 61` and `02 00` are corrupt. -/
theorem test_parse :
    (after (exec .parse (st .idle fun b => { b with hdr := byteBits [1, 2, 0x61, 0x62] }))).map
      (fun b => (b.hdrMaxbits, b.hdrN, b.phase)) = some (1, 2, .headerParsed) := by decide +kernel

theorem test_parse_corrupt :
    ([[1, 2, 0x61], [2, 0], [1, 2, 0x61, 0x62, 0x63]].map fun h =>
      answer (exec .parse (st .idle fun b => { b with hdr := byteBits h })))
      = [some (.corruptHeader, 0), some (.corruptHeader, 0), some (.corruptHeader, 0)] := by decide +kernel

/-- A machine after PARSE of a header. -/
def parsed (h : List Nat) (mb n : Nat) : State := st .headerParsed fun b =>
  { b with hdr := byteBits h, hdrMaxbits := mb, hdrN := n }

/-- R167: header `02 01 02 61 62 63` gives [(a,"0"), (b,"10"), (c,"11")]. -/
theorem test_deser : (after (exec .deser (parsed [2, 1, 2, 0x61, 0x62, 0x63] 2 3))).map Block.alpha
    = some [en 'a' 0 "0", en 'b' 0 "10", en 'c' 0 "11"] := by decide +kernel

/-- R167: the symbols of header `01 02 62 61` keep file order; V-C14: header `01 02 61 61` gives 'a' twice. -/
theorem test_deser_file_order :
    (after (exec .deser (parsed [1, 2, 0x62, 0x61] 1 2))).map Block.alpha = some [en 'b' 0 "0", en 'a' 0 "1"]
      ∧ (after (exec .deser (parsed [1, 2, 0x61, 0x61] 1 2))).map Block.alpha = some [en 'a' 0 "0", en 'a' 0 "1"] := by
  decide +kernel

/-- R167: header `01 03 61 62 63` over-subscribes. -/
theorem test_deser_corrupt : answer (exec .deser (parsed [1, 3, 0x61, 0x62, 0x63] 1 3)) = some (.corruptHeader, 0) := by
  decide +kernel

/-- The machine after SERHDR, "aaabbc", with some payload. -/
def packState (pay : String) : State := st .headerSerialized fun b =>
  { ((b.setCounter 97 3).setCounter 98 2).setCounter 99 1 with
    alpha := [en 'a' 3 "0", en 'b' 2 "10", en 'c' 1 "11"], hdr := byteBits [2, 1, 2, 0x61, 0x62, 0x63],
    lut := ((b.lut.set 97 (some 0)).set 98 (some 1)).set 99 (some 2), pay := bits pay }

/-- R181: the last step of "aaabbc". -/
theorem test_pack : (after (exec (.pack 99) (packState "0001010"))).map Block.pay = some (bits "000101011") := by
  decide +kernel

theorem test_pack_uncounted : answer (exec (.pack 100) (packState "")) = some (.protocolMisuse, 0) := by decide +kernel

theorem test_packend : (after (exec .packend (packState "0"))).map (fun b => (b.phase, b.pay))
    = some (.payloadSerialized, bits "0") := by decide +kernel

/-- The machine after DESER of the header of "aaabbc". -/
def rebuiltState (cfg : Config) : State :=
  { st .alphabetReconstructed (fun b =>
      { b with
        hdr := byteBits [2, 1, 2, 0x61, 0x62, 0x63], hdrMaxbits := 2, hdrN := 3,
        alpha := [en 'a' 0 "0", en 'b' 0 "10", en 'c' 0 "11"] }) with cfg := cfg }

/-- R190: DT = {1: a, 5: b, 6: c}. -/
theorem test_mklook : (after (exec .mklook (rebuiltState Config.default))).map Block.dt
    = some [(1, 97), (5, 98), (6, 99)] := by decide +kernel

theorem test_mklook_too_deep : answer (exec .mklook (rebuiltState { Config.default with decMaxbits := 1 }))
    = some (.allocationFailure, 0) := by decide +kernel

/-- The machine before DECODE of a payload under the codes of "aaabbc". -/
def lookState (cfg : Config) (pay : String) : State :=
  { st .lookupBuilt (fun b =>
      { b with
        hdr := byteBits [2, 1, 2, 0x61, 0x62, 0x63], hdrMaxbits := 2, hdrN := 3, pay := bits pay,
        alpha := [en 'a' 0 "0", en 'b' 0 "10", en 'c' 0 "11"], dt := [(1, 97), (5, 98), (6, 99)] }) with cfg := cfg }

/-- R191: "000101011" decodes to `61 61 61 62 62 63`. -/
theorem test_decode_command : (after (exec .decode (lookState Config.default "000101011"))).map Block.out
    = some (byteBits [0x61, 0x61, 0x61, 0x62, 0x62, 0x63]) := by decide +kernel

/-- R191: "0001010111" ends inside a code. -/
theorem test_decode_command_corrupt :
    answer (exec .decode (lookState Config.default "0001010111")) = some (.corruptHeader, 0) := by decide +kernel

/-- R201: INIT clears ERR and the buffers. -/
theorem test_init : after (exec .init (st .done fun b => { b with err := .outOfRange, hdr := bits "1" }))
    = some Block.reset := rfl

/-- R202: phase TreeBuilt, ABORT: phase Idle, no entries, no counts; ERR stays. -/
theorem test_abort : (after (exec .abort { treeState with blk := { treeState.blk with err := .protocolMisuse } })).map
    (fun b => (b.phase, b.alpha, b.counter 97, b.err)) = some (.idle, [], 0, .protocolMisuse) := by decide +kernel

/-- R203: the zero-length message, and AlphabetBuilt with an alphabet. -/
theorem test_finish : answer (exec .finish (st .alphabetBuilt id)) = some (.ok, 0)
    ∧ answer (exec .finish (st .alphabetBuilt fun b => { b with alpha := [en 'a' 1 ""] })) = some (.protocolMisuse, 0) := by
  decide +kernel

/-- R204. -/
theorem test_retire : (after (exec .retire (st .done id))).map Block.phase = some .idle := by decide +kernel

/-- R205. -/
theorem test_rdphase : answer (exec .rdphase (st .alphabetBuilt id)) = some (.ok, 1)
    ∧ answer (exec .rdphase (st .payloadDecoded id)) = some (.ok, 11) := by decide +kernel

/-- R206: OutOfRange (8) stays the first fault when ProtocolMisuse follows. -/
theorem test_rderr : answer (exec .rderr (st .idle fun b => (b.latch .outOfRange).latch .protocolMisuse)) = some (.ok, 8) := by
  decide +kernel

/-! ### States that meet the invariant -/

theorem inv_reset : Inv State.reset := by
  constructor
  case noLut => exact fun _ => rfl
  case doneClear => exact fun h => absurd h (by decide)
  all_goals first
    | decide +kernel
    | exact fun h => absurd h (by decide +kernel)

theorem inv_tree : Inv treeState := by
  constructor
  case noLut => exact fun _ => rfl
  case doneClear => exact fun h => absurd h (by decide)
  all_goals first
    | decide +kernel
    | exact fun h => absurd h (by decide +kernel)
    | exact fun _ => ⟨4, rfl, by constructor <;> decide +kernel⟩

theorem inv_canon : Inv canonState := by
  constructor
  case noLut => exact fun _ => rfl
  case doneClear => exact fun h => absurd h (by decide)
  all_goals first
    | decide +kernel
    | exact fun h => absurd h (by decide +kernel)
    | exact fun _ => by constructor <;> decide +kernel

theorem inv_pack : Inv (packState "0001010") := by
  constructor
  case noLut => exact fun h => absurd h (by decide)
  case doneClear => exact fun h => absurd h (by decide)
  all_goals first
    | decide +kernel
    | exact fun h => absurd h (by decide +kernel)
    | exact fun _ => by constructor <;> decide +kernel

theorem inv_parsed : Inv (parsed [2, 1, 2, 0x61, 0x62, 0x63] 2 3) := by
  constructor
  case noLut => exact fun _ => rfl
  case doneClear => exact fun h => absurd h (by decide)
  all_goals first
    | decide +kernel
    | exact fun h => absurd h (by decide +kernel)

/-- Over-subscribed: three codes of one bit. -/
theorem inv_parsed_corrupt : Inv (parsed [1, 3, 0x61, 0x62, 0x63] 1 3) := by
  constructor
  case noLut => exact fun _ => rfl
  case doneClear => exact fun h => absurd h (by decide)
  all_goals first
    | decide +kernel
    | exact fun h => absurd h (by decide +kernel)

/-- 257 symbols, one more than the alphabet holds. -/
theorem inv_parsed_large : Inv (parsed (2 :: 255 :: 2 :: List.replicate 257 0) 2 257) := by
  constructor
  case noLut => exact fun _ => rfl
  case doneClear => exact fun h => absurd h (by decide)
  all_goals first
    | decide +kernel
    | exact fun h => absurd h (by decide +kernel)

theorem inv_rebuilt : Inv (rebuiltState Config.default) := by
  constructor
  case noLut => exact fun _ => rfl
  case doneClear => exact fun h => absurd h (by decide)
  all_goals first
    | decide +kernel
    | rfl
    | exact fun _ => rfl
    | exact fun h => absurd h (by decide +kernel)

theorem inv_look : Inv (lookState Config.default "000101011") := by
  constructor
  case noLut => exact fun _ => rfl
  case doneClear => exact fun h => absurd h (by decide)
  all_goals first
    | decide +kernel
    | rfl
    | exact fun _ => rfl
    | exact fun h => absurd h (by decide +kernel)

/-- Room for two decoded bytes only. -/
def smallOut : Config := { Config.default with outCapBytes := 2 }

theorem inv_look_small : Inv (lookState smallOut "000101011") := by
  constructor
  case noLut => exact fun _ => rfl
  case doneClear => exact fun h => absurd h (by decide)
  all_goals first
    | decide +kernel
    | rfl
    | exact fun _ => rfl
    | exact fun h => absurd h (by decide +kernel)

theorem inv_look_corrupt : Inv (lookState Config.default "01") := by
  constructor
  case noLut => exact fun _ => rfl
  case doneClear => exact fun h => absurd h (by decide)
  all_goals first
    | decide +kernel
    | rfl
    | exact fun _ => rfl
    | exact fun h => absurd h (by decide +kernel)

/-! ### A witness for the hypotheses of every obligation, clause by clause -/

theorem witness_DecodeInvertsEncode : (Instr.bapp .pay true).wf = true ∧ (Instr.bget .out 0xFFFFFF).wf = true := by decide

theorem witness_EncodeInvertsDecode : decode 0x36FFFF00 = .error .mustBeZero ∧ decode 0x3600FFFF = .ok (.cget 255 255) := by
  decide

theorem witness_DecodeFollowsOpcodeTable :
    (Instr.blen .hdr).row.accepts 0x1E000000 = true ∧ (Instr.blen .hdr).row.accepts 0x1F000000 = true
      ∧ (∀ r ∈ opcodeTable, r.accepts 0x40000001 = false) ∧ decode 0x1E000000 = .ok (.blen .out) := by decide

theorem witness_StepRunsDecodedCommand :
    (State.reset.offer 0x30000061).pending = .command 0x30000061 :: [] ∧ decode 0x30000061 = .ok (.count 97) := by decide

theorem witness_IllegalWordFaults :
    (State.reset.offer 0).pending = .command 0 :: [] ∧ decode 0 = .error .unknownOpcode := by decide

theorem witness_ResetInputAndIdleStep :
    ({ abc with pending := [.reset (some 0x71000000), .command 0] } : State).pending
      = .reset (some 0x71000000) :: [.command 0]
      ∧ State.reset.pending = [] := by decide

theorem witness_EveryCommandAnswersOnce :
    exec .nsym abc = .next (answered abc 3 abc.blk) ∧ exec .retire abc = .next (faulted abc .protocolMisuse)
      ∧ Inv treeState := ⟨rfl, rfl, inv_tree⟩

theorem witness_ErrHoldsFirstFault :
    exec .retire abc = .next (faulted abc .protocolMisuse)
      ∧ exec .mktree (faulted abc .outOfRange) = .next (faulted (faulted abc .outOfRange) .protocolMisuse)
      ∧ exec .init (faulted abc .outOfRange) = .next (answered (faulted abc .outOfRange) 0 Block.reset)
      ∧ (∃ t, step ((faulted abc .outOfRange).offer 0) = .next t) ∧ decode 0 = .error .unknownOpcode
      ∧ (∃ t, step { abc with pending := [.reset none] } = .next t) ∧ abc.pending = [] ∧ step abc = .next abc :=
  ⟨rfl, rfl, rfl, ⟨_, rfl⟩, by decide, ⟨_, rfl⟩, rfl, rfl⟩

theorem witness_NoCommandDependsOnErr :
    exec .nsym abc = .next (answered abc 3 abc.blk) ∧ exec .retire abc = .next (faulted abc .protocolMisuse)
      ∧ exec .init abc = .next (answered abc 0 Block.reset) := ⟨rfl, rfl, rfl⟩

theorem witness_PhaseTable :
    (Instr.pack 97).wf = true ∧ containerGuard abc.blk (.pack 97) = none ∧ accepts abc.blk (.pack 97) = false
      ∧ exec .retire (st .done id) = .next (answered (st .done id) 0 Block.reset) := ⟨rfl, rfl, rfl, rfl⟩

theorem witness_ContainerGuardFirst :
    abc.blk.alpha ≠ [] ∧ (packState "").blk.hdr ≠ [] ∧ (st .idle fun b => { b with pay := bits "1" }).blk.pay ≠ []
      ∧ (st .idle fun b => { b with out := byteBits [7] }).blk.out ≠ [] := by decide +kernel

theorem witness_ReadsChangeNothing : isRead (.rdsym 2) = true ∧ isRead (.rdsym 3) = true := by decide

theorem witness_WhoWritesWhat :
    exec (.count 97) State.reset = .next (answered State.reset 0 (State.reset.blk.setCounter 97 1))
      ∧ exec .relenc (st .done fun b => { b with hdr := bits "1" }) = .next
        (answered (st .done fun b => { b with hdr := bits "1" }) 0 { Block.reset with phase := .done })
      ∧ exec .retire (st .done id) = .next (answered (st .done id) 0 Block.reset)
      ∧ exec .retire State.reset = .next (faulted State.reset .protocolMisuse) := ⟨rfl, rfl, rfl, rfl⟩

/-- The first and the last bit of a byte, the first of the next, and the first padding bit. -/
theorem witness_ByteViewIsMsbFirst :
    0 < (bits "000101011").length ∧ 7 < (bits "000101011").length ∧ 8 < (bits "000101011").length
      ∧ (bits "000101011").length ≤ 8 * 1 + 1 := by decide

/-- A machine in Idle with buffers of given lengths and a payload capacity of 16 bits. -/
def filled (hdr pay : Nat) : State :=
  { st .idle (fun b => { b with hdr := List.replicate hdr true, pay := List.replicate pay true }) with
    cfg := { Config.default with payCapBits := 16 } }

theorem filled_hdr (h p : Nat) : (filled h p).blk.hdr.length = h := List.length_replicate

theorem filled_pay (h p : Nat) : (filled h p).blk.pay.length = p := List.length_replicate

/-- The last bit that fits, and the first that does not. -/
theorem witness_BappAppendsBit :
    abc.blk.phase ≠ .idle ∧ (filled 4095 15).blk.phase = .idle
      ∧ (filled 4095 15).blk.hdr.length + 1 ≤ 4096 ∧ 4096 < (filled 4096 16).blk.hdr.length + 1
      ∧ (filled 4095 15).blk.pay.length + 1 ≤ (filled 4095 15).cfg.payCapBits
      ∧ (filled 4096 16).cfg.payCapBits < (filled 4096 16).blk.pay.length + 1 := by
  simp only [filled_hdr, filled_pay]
  decide

theorem witness_BappbAppendsByte :
    abc.blk.phase ≠ .idle ∧ (filled 4088 8).blk.phase = .idle
      ∧ (filled 4088 8).blk.hdr.length + 8 ≤ 4096 ∧ 4096 < (filled 4089 9).blk.hdr.length + 8
      ∧ (filled 4088 8).blk.pay.length + 8 ≤ (filled 4088 8).cfg.payCapBits
      ∧ (filled 4089 9).cfg.payCapBits < (filled 4089 9).blk.pay.length + 8 := by
  simp only [filled_hdr, filled_pay]
  decide

theorem witness_BtrimRemovesLastBit :
    abc.blk.phase ≠ .idle ∧ (filled 0 0).blk.phase = .idle ∧ (filled 0 0).blk.hdr = [] ∧ (filled 0 0).blk.pay = []
      ∧ (filled 1 1).blk.hdr = [] ++ [true] ∧ (filled 1 1).blk.pay = [] ++ [true] := by decide

/-- The last bit and the first position past it; the largest position. -/
theorem witness_BgetReadsBit :
    (1 : BitVec 24).toNat < (bits "10").length ∧ (bits "10").length ≤ (2 : BitVec 24).toNat
      ∧ (bits "10").length ≤ (0xFFFFFF : BitVec 24).toNat := by decide

/-- The last, partial byte and the first index past it. -/
theorem witness_BrdbReadsByte :
    8 * (1 : BitVec 24).toNat < (bits "000101011").length ∧ (bits "000101011").length ≤ 8 * (2 : BitVec 24).toNat
      ∧ (bits "").length ≤ 8 * (0 : BitVec 24).toNat := by decide

theorem witness_ReleaseEmptiesBuffers :
    (st .idle id).blk.phase = .idle ∧ (st .done id).blk.phase = .done
      ∧ abc.blk.phase ≠ .idle ∧ abc.blk.phase ≠ .done := by decide

/-- The largest value of a counter of two bits, and the one below it. -/
theorem witness_CountIncrementsOneCounter :
    abc.blk.phase ≠ .idle
      ∧ (let s : State := { (st .idle fun b => (b.setCounter 97 3).setCounter 98 2) with
          cfg := { Config.default with freqW := 2 } }
        s.blk.phase = .idle ∧ s.blk.counter 97 = 2 ^ s.cfg.freqW - 1 ∧ s.blk.counter 98 ≠ 2 ^ s.cfg.freqW - 1) := by
  decide +kernel

theorem witness_MkalphaBuildsSortedAlphabet :
    abc.blk.alpha ≠ [] ∧ (st .done id).blk.alpha = [] ∧ (st .done id).blk.phase ≠ .idle
      ∧ State.reset.blk.alpha = [] ∧ State.reset.blk.phase = .idle := by decide

/-- An alphabet of 256 entries. -/
def full : State := st .alphabetBuilt fun b => { b with alpha := List.replicate 256 (en 'a' 1 "01") }

theorem full_length : full.blk.alpha.length = 256 := List.length_replicate

/-- The last entry and the first index past it; index 255 with 256 entries. -/
theorem witness_RdsymReadsSymbolAndLength :
    (2 : Byte).toNat < abc.blk.alpha.length ∧ abc.blk.alpha.length ≤ (3 : Byte).toNat
      ∧ (255 : Byte).toNat < full.blk.alpha.length := by
  rw [full_length]
  decide

theorem witness_RdfreqReadsFrequency :
    (2 : Byte).toNat < abc.blk.alpha.length ∧ abc.blk.alpha.length ≤ (3 : Byte).toNat
      ∧ (255 : Byte).toNat < full.blk.alpha.length := by
  rw [full_length]
  decide

/-- The last bit of a code and the first position past it, and of an empty code. -/
theorem witness_CgetReadsCodeBit :
    abc.blk.alpha.length ≤ (3 : Byte).toNat
      ∧ (∃ h : (1 : Byte).toNat < abc.blk.alpha.length, (1 : Byte).toNat < abc.blk.alpha[(1 : Byte).toNat].code.length
        ∧ abc.blk.alpha[(1 : Byte).toNat].code.length ≤ (2 : Byte).toNat)
      ∧ (∃ h : (0 : Byte).toNat < treeState.blk.alpha.length,
        treeState.blk.alpha[(0 : Byte).toNat].code.length ≤ (0 : Byte).toNat) := by decide +kernel

/-- The queue of rule R143's example before its last merge: leaf 2 above internal node 3, tied. -/
def queueBlock : Block := { treeState.blk with heap := [2, 3] }

theorem witness_HeapInsertKeepsHeap :
    (∀ m ∈ queueBlock.heap, ((queueBlock.nodes[m]?).bind (Node.symbol queueBlock.alpha)).isNone →
        freqAt queueBlock.nodes m ≤ freqAt queueBlock.nodes 4)
      ∧ HeapOrdered queueBlock := by decide +kernel

/-- An arena of three leaves of one frequency, queued, and an internal node of the same frequency. -/
def tiedBlock : Block :=
  { Block.reset with
    alpha := [en 'a' 1 "", en 'b' 1 "", en 'c' 1 ""]
    nodes := [.leaf 1 0, .leaf 1 1, .leaf 1 2, .internal 1 0 1]
    heap := [0, 2, 1] }

theorem witness_HeapExtractMinTakesLeast :
    Block.reset.heap = [] ∧ queueBlock.heap ≠ [] ∧ (∀ m ∈ queueBlock.heap, m < queueBlock.nodes.length)
      ∧ HeapOrdered queueBlock
      ∧ tiedBlock.heap ≠ [] ∧ (∀ m ∈ tiedBlock.heap, m < tiedBlock.nodes.length) ∧ HeapOrdered tiedBlock
      ∧ ∀ m ∈ tiedBlock.heap, ((tiedBlock.nodes[m]?).bind (Node.symbol tiedBlock.alpha)).isSome := by decide +kernel

/-- Alphabets of none, of one and of three entries; the largest frequency. -/
theorem witness_MktreeBuildsHuffmanTree :
    abc.blk.phase ≠ .alphabetBuilt
      ∧ (st .alphabetBuilt id).blk.phase = .alphabetBuilt ∧ (st .alphabetBuilt id).blk.alpha = []
      ∧ (let s := st .alphabetBuilt fun b => { b with alpha := [en 'a' (2 ^ 32 - 1) ""] }
        s.blk.phase = .alphabetBuilt ∧ s.blk.alpha ≠ [] ∧ s.blk.alpha.length ≤ 256
          ∧ ∀ e ∈ s.blk.alpha, e.freq < 2 ^ s.cfg.freqW)
      ∧ 2 ≤ tiedBlock.alpha.length ∧ tiedBlock.alpha.Pairwise ltA := by decide +kernel

theorem witness_AssignGivesLeafPaths :
    abc.blk.phase ≠ .treeBuilt ∧ treeState.blk.phase = .treeBuilt ∧ treeState.blk.root = some 4
      ∧ TreeOver treeState.blk.alpha treeState.blk.nodes 4 ∧ treeState.blk.alpha.length ≤ 256 :=
  ⟨by decide, rfl, rfl, by constructor <;> decide +kernel, by decide⟩

/-- Lengths that meet Kraft's inequality for an alphabet of two. -/
theorem witness_CodeLengthsAreOptimal :
    (let s := st .alphabetBuilt fun b => { b with alpha := [en 'a' 1 "", en 'b' 2 ""] };
      s.blk.phase = .alphabetBuilt ∧ s.blk.alpha ≠ [] ∧ s.blk.alpha.length ≤ 256 ∧ [2, 1].length = s.blk.alpha.length)
      ∧ (∀ l ∈ [2, 1], 1 ≤ l) ∧ (([2, 1] : List Nat).map (fun l => (1 / 2 : ℚ) ^ l)).sum ≤ 1 := by
  refine ⟨by decide +kernel, by decide, ?_⟩
  norm_num

theorem witness_CanonNumbersCodes :
    abc.blk.phase ≠ .codesAssigned ∧ codedState.blk.phase = .codesAssigned ∧ codedState.blk.alpha ≠ []
      ∧ (codedState.blk.alpha.map Entry.sym).Nodup ∧ HuffmanCodes codedState.blk.alpha :=
  ⟨by decide, rfl, by decide, by decide +kernel, by constructor <;> decide +kernel⟩

/-- An alphabet of `n` entries with codes of eight bits. -/
def eights (n : Nat) : State := st .canonicalized fun b => { b with alpha := List.replicate n (en 'a' 1 "01010101") }

theorem eights_length (n : Nat) : (eights n).blk.alpha.length = n := List.length_replicate

/-- Counts of 255 and of 256 codes of one length, the longest code of 255 bits, and an empty alphabet. -/
theorem witness_SerhdrWritesHeader :
    ((eights 255).blk.hdr = [] ∧ (eights 255).blk.pay = [] ∧ (eights 255).blk.phase = .canonicalized
        ∧ (eights 255).blk.alpha.getLast? = some (en 'a' 1 "01010101")
        ∧ ∀ k, ((eights 255).blk.alpha.filter (fun e => e.code.length == k)).length ≤ 255)
      ∧ 255 < ((eights 256).blk.alpha.filter (fun e => e.code.length == 8)).length
      ∧ (List.replicate 255 true).length ≤ 255
      ∧ (eights 0).blk.alpha = [] ∧ (st .idle id).blk.phase ≠ .canonicalized := by
  refine ⟨⟨rfl, rfl, rfl, by decide +kernel, fun k => ?_⟩, by decide +kernel, ?_, rfl, by decide⟩
  · exact (List.length_filter_le _ _).trans (eights_length 255).le
  · rw [List.length_replicate]

theorem witness_UnrepresentableOnlyFor256EqualCodes :
    Inv canonState ∧ canonState.blk.phase = .canonicalized ∧ canonState.blk.hdr = [] ∧ canonState.blk.pay = [] :=
  ⟨inv_canon, rfl, rfl, rfl⟩

/-- The empty header, the one-byte header `00`, a whole one, one byte short, one byte long, and one that is no bytes. -/
theorem witness_ParseChecksHeaderSize :
    abc.blk.phase ≠ .idle ∧ State.reset.blk.hdr = [] ∧ State.reset.blk.pay = []
      ∧ (st .idle fun b => { b with pay := bits "1" }).blk.pay ≠ []
      ∧ (byteBits [0]).length = 8 * (1 + (byteView (byteBits [0]) 0).toNat + 0)
      ∧ (byteBits [1, 2, 0x61, 0x62]).length = 8 * (1 + 1 + 2)
      ∧ (byteBits [1, 2, 0x61]).length ≠ 8 * (1 + 1 + 2) ∧ (byteBits [1, 2, 0x61, 0x62, 0x63]).length ≠ 8 * (1 + 1 + 2)
      ∧ (byteView (byteBits [1, 2, 0x61, 0x62]) 0).toNat = 1 ∧ (byteView (byteBits [1, 2, 0x61, 0x62]) 1).toNat = 2 := by
  decide +kernel

/-- 257 symbols; a full code space; one code too many. -/
theorem witness_DeserRebuildsCodes :
    abc.blk.alpha ≠ [] ∧ (State.reset.blk.alpha = [] ∧ State.reset.blk.phase ≠ .headerParsed)
      ∧ (Inv (parsed (2 :: 255 :: 2 :: List.replicate 257 0) 2 257)
        ∧ 256 < (parsed (2 :: 255 :: 2 :: List.replicate 257 0) 2 257).blk.hdrN)
      ∧ (Inv (parsed [1, 3, 0x61, 0x62, 0x63] 1 3) ∧ 2 ^ 1 < claimedSpace (byteBits [1, 3, 0x61, 0x62, 0x63]) 1)
      ∧ (Inv (parsed [2, 1, 2, 0x61, 0x62, 0x63] 2 3)
        ∧ claimedSpace (byteBits [2, 1, 2, 0x61, 0x62, 0x63]) 2 = 2 ^ 2) :=
  ⟨by decide, by decide, ⟨inv_parsed_large, by decide⟩, ⟨inv_parsed_corrupt, by decide +kernel⟩, ⟨inv_parsed, by decide +kernel⟩⟩

theorem witness_DeserRestoresCanonicalAlphabet :
    Inv canonState ∧ canonState.blk.phase = .canonicalized
      ∧ (∃ h, exec .serhdr canonState = .next h ∧ h.blk.phase = .headerSerialized
        ∧ (st .idle fun b => { b with hdr := h.blk.hdr }).blk.hdr = h.blk.hdr)
      ∧ (st .idle id).blk.phase = .idle ∧ (st .idle id).blk.alpha = [] :=
  ⟨inv_canon, rfl, ⟨_, rfl, rfl, rfl⟩, rfl, rfl⟩

/-- A byte with no entry; the last code that fits, and one bit less of room. -/
theorem witness_PackAppendsCode :
    abc.blk.phase ≠ .headerSerialized ∧ (packState "").blk.phase = .headerSerialized
      ∧ (packState "").blk.lookup 100 = none ∧ (packState "").blk.lookup 99 = some 2
      ∧ (let s : State := { packState "0001010" with cfg := { Config.default with payCapBits := 9 } }
        s.blk.pay.length + (en 'c' 1 "11").code.length ≤ s.cfg.payCapBits)
      ∧ (let s : State := { packState "0001010" with cfg := { Config.default with payCapBits := 8 } }
        s.cfg.payCapBits < s.blk.pay.length + (en 'c' 1 "11").code.length) := by decide +kernel

theorem witness_PackFindsEntryBySymbol :
    Inv (packState "0001010") ∧ (packState "0001010").blk.phase = .headerSerialized
      ∧ (∀ e ∈ (packState "0001010").blk.alpha, e.sym ≠ 100)
      ∧ (∃ e ∈ (packState "0001010").blk.alpha, e.sym = 99) := ⟨inv_pack, rfl, by decide +kernel, by decide +kernel⟩

theorem witness_PackendWritesOnlyPhase :
    abc.blk.phase ≠ .headerSerialized ∧ (packState "").blk.phase = .headerSerialized := by decide

/-- maxBits at DEC_MAXBITS and one above it. -/
theorem witness_MklookMapsCodePositions :
    abc.blk.phase ≠ .alphabetReconstructed
      ∧ (let s := rebuiltState { Config.default with decMaxbits := 2 }
        s.blk.phase = .alphabetReconstructed ∧ s.blk.hdrMaxbits ≤ s.cfg.decMaxbits)
      ∧ (let s := rebuiltState { Config.default with decMaxbits := 1 }
        s.cfg.decMaxbits < s.blk.hdrMaxbits) := by decide

theorem witness_CodePositionsDistinct :
    Inv (rebuiltState Config.default) ∧ rebuiltPhase (rebuiltState Config.default).blk.phase = true
      ∧ codePosition (bits "10") = 5 := ⟨inv_rebuilt, rfl, by decide⟩

/-- Three codes with room for more; six codes with room for two; "01", which ends inside a code. -/
theorem witness_DecodeInvertsPacking :
    (abc.blk.out = [] ∧ abc.blk.phase ≠ .lookupBuilt)
      ∧ (Inv (lookState Config.default "000101011")
        ∧ (lookState Config.default "000101011").blk.pay
          = [en 'a' 0 "0", en 'a' 0 "0", en 'a' 0 "0", en 'b' 0 "10", en 'b' 0 "10", en 'c' 0 "11"].flatMap Entry.code)
      ∧ (Inv (lookState smallOut "000101011") ∧ smallOut.outCapBytes < 3
        ∧ (lookState smallOut "000101011").blk.pay
          = [en 'a' 0 "0", en 'a' 0 "0", en 'a' 0 "0"].flatMap Entry.code ++ bits "101011")
      ∧ (Inv (lookState Config.default "01")
        ∧ (∀ es : List Entry, (∀ e ∈ es, e ∈ (lookState Config.default "01").blk.alpha) →
            (lookState Config.default "01").blk.pay ≠ es.flatMap Entry.code)) := by
  refine ⟨by decide, ⟨inv_look, by decide +kernel⟩, ⟨inv_look_small, by decide, by decide +kernel⟩, inv_look_corrupt, ?_⟩
  intro es he h
  have all : ∀ e ∈ (lookState Config.default "01").blk.alpha,
      e.code = [false] ∨ e.code = [true, false] ∨ e.code = [true, true] := by decide
  have codes := fun e h1 => all e (he e h1)
  have hp : (lookState Config.default "01").blk.pay = [false, true] := by decide +kernel
  rw [hp] at h
  match es with
  | [] => simp at h
  | [x] =>
    rcases codes x (by simp) with g | g | g <;> simp [g] at h
  | x :: y :: zs =>
    rcases codes x (by simp) with g | g | g <;> rcases codes y (by simp) with k | k | k <;> simp [g, k] at h

theorem witness_EncodeThenDecodeRoundTrip :
    Inv State.reset ∧ State.reset.blk.phase = .idle ∧ State.reset.blk.err = .ok
      ∧ State.reset.blk.ft = Vector.replicate 256 0 ∧ State.reset.blk.hdr = [] ∧ State.reset.blk.pay = []
      ∧ State.reset.blk.out = [] := ⟨inv_reset, rfl, rfl, rfl, rfl, rfl, rfl⟩

theorem witness_FinishReleasesTransientState :
    (st .payloadSerialized id).blk.phase = .payloadSerialized ∧ (st .payloadDecoded id).blk.phase = .payloadDecoded
      ∧ ((st .alphabetBuilt id).blk.phase = .alphabetBuilt ∧ (st .alphabetBuilt id).blk.alpha = [])
      ∧ ¬ (abc.blk.phase = .payloadSerialized ∨ abc.blk.phase = .payloadDecoded
        ∨ (abc.blk.phase = .alphabetBuilt ∧ abc.blk.alpha = [])) := by decide

theorem witness_RetireLeavesDone : abc.blk.phase ≠ .done ∧ (st .done id).blk.phase = .done := by decide

/-- A legal command, an illegal word, the reset input and the idle step, each from a state that meets the invariant. -/
theorem witness_StepKeepsInvariant :
    Inv treeState ∧ (∃ t, step (treeState.offer 0x41000000) = .next t) ∧ (∃ t, step (treeState.offer 0) = .next t)
      ∧ (∃ t, step { treeState with pending := [.reset none] } = .next t) ∧ (∃ t, step treeState = .next t) :=
  ⟨inv_tree, ⟨_, rfl⟩, ⟨_, rfl⟩, ⟨_, rfl⟩, ⟨_, rfl⟩⟩

theorem witness_StepNeverStops : Inv State.reset ∧ Inv (lookState Config.default "01") := ⟨inv_reset, inv_look_corrupt⟩

/-- Two leaves of one frequency, a leaf and an internal node of one frequency, and a chain of two. -/
theorem witness_LessComparesFrequencyThenLeafSymbol :
    tiedBlock.nodes[0]? = some (.leaf 1 0) ∧ tiedBlock.nodes[1]? = some (.leaf 1 1)
      ∧ tiedBlock.alpha[0]? = some (en 'a' 1 "") ∧ tiedBlock.alpha[1]? = some (en 'b' 1 "")
      ∧ tiedBlock.nodes[3]? = some (.internal 1 0 1)
      ∧ tiedBlock.less 0 1 = true ∧ tiedBlock.less 1 2 = true
      ∧ tiedBlock.less 0 3 = false ∧ tiedBlock.less 3 0 = false := by decide +kernel

theorem witness_LeavesInOrderNeverSiftUp : tiedBlock.alpha.Pairwise ltA := by decide +kernel

/-- A node tied with its parent, and a queue whose two children are tied and both less than the last node. -/
theorem witness_TiesStayBelowAndPreferLeft :
    (∀ p, ({ tiedBlock with heap := [0] } : Block).heap[0]? = some p → tiedBlock.less 3 p = false)
      ∧ (let b : Block := { Block.reset with
          nodes := [.internal 1 0 0, .internal 2 0 0, .internal 2 0 0, .internal 3 0 0], heap := [0, 1, 2, 3] }
        b.heap = 0 :: 1 :: 2 :: ([] ++ [3]) ∧ b.less 1 3 = true ∧ b.less 2 1 = false ∧ b.less 2 3 = true) := by
  refine ⟨?_, by decide +kernel⟩
  intro p hp
  cases hp
  decide

/-- A machine after DESER of a header that SERHDR would not write: order (b) by length only. -/
def fileOrderState : State := st .alphabetReconstructed fun b =>
  { b with
    hdr := byteBits [1, 2, 0x62, 0x61], hdrMaxbits := 1, hdrN := 2, alpha := [en 'b' 0 "0", en 'a' 0 "1"] }

theorem inv_file_order : Inv fileOrderState := by
  constructor
  case noLut => exact fun _ => rfl
  case doneClear => exact fun h => absurd h (by decide)
  all_goals first
    | decide +kernel
    | rfl
    | exact fun _ => rfl
    | exact fun h => absurd h (by decide +kernel)

/-- A machine after DESER of a header that repeats a symbol (V-C14). -/
def repeatedState : State := st .alphabetReconstructed fun b =>
  { b with
    hdr := byteBits [1, 2, 0x61, 0x61], hdrMaxbits := 1, hdrN := 2, alpha := [en 'a' 0 "0", en 'a' 0 "1"] }

theorem inv_repeated : Inv repeatedState := by
  constructor
  case noLut => exact fun _ => rfl
  case doneClear => exact fun h => absurd h (by decide)
  all_goals first
    | decide +kernel
    | rfl
    | exact fun _ => rfl
    | exact fun h => absurd h (by decide +kernel)

/-- Every phase group, a header SERHDR wrote, one out of the wire format's order, and one that repeats a symbol. -/
theorem witness_AlphabetOrders :
    (Inv treeState ∧ treeState.blk.phase = .treeBuilt) ∧ (Inv canonState ∧ canonState.blk.phase = .canonicalized)
      ∧ (Inv (rebuiltState Config.default) ∧ (rebuiltState Config.default).blk.phase = .alphabetReconstructed
        ∧ SymbolsOrdered (· < ·) (rebuiltState Config.default).blk.hdr 2
        ∧ Inv (packState "0001010") ∧ (packState "0001010").blk.phase = .headerSerialized
        ∧ (rebuiltState Config.default).blk.hdr = (packState "0001010").blk.hdr)
      ∧ Inv fileOrderState ∧ ¬ SymbolsOrdered (· ≤ ·) fileOrderState.blk.hdr 1
      ∧ ¬ fileOrderState.blk.alpha.Pairwise orderB
      ∧ Inv repeatedState ∧ SymbolsOrdered (· ≤ ·) repeatedState.blk.hdr 1 ∧ ¬ SymbolsOrdered (· < ·) repeatedState.blk.hdr 1 :=
  ⟨⟨inv_tree, rfl⟩, ⟨inv_canon, rfl⟩, ⟨inv_rebuilt, rfl, by decide +kernel, inv_pack, rfl, rfl⟩, inv_file_order,
    by decide +kernel, by decide +kernel, inv_repeated, by decide +kernel, by decide +kernel⟩

end Sys2Proof.Tests
end

section
/-! SUPPORT. Where a rule's pseudocode has a value (10_state.md rule R40): the five commands that can stop with a fault of the
model, each from the part of the invariant that keeps it from doing so, and from them that a step always answers. -/

namespace Sys2Proof.Machine

open Sys2Proof.Safety

/-! ### Rules with a value -/

/-- What a rule computes has a value: a result or a raised fault of the spec, and no fault of the model. -/
def Valued {α : Type} (r : Except Stop α) : Prop := ∀ x, r ≠ stuck x

@[simp] theorem valued_ok {α : Type} (a : α) : Valued (.ok a : Except Stop α) := fun _ h => nomatch h

@[simp] theorem valued_finishOk (d : Nat) (b : Block) : Valued (finishOk d b) := valued_ok _

@[simp] theorem valued_raise {α : Type} (f : Status) : Valued (raise f : Except Stop α) := by
  simp [Valued, raise, stuck]

@[simp] theorem valued_ite {α : Type} (p : Prop) [Decidable p] (r q : Except Stop α) :
    Valued (if p then r else q) ↔ (p → Valued r) ∧ (¬ p → Valued q) := by
  by_cases h : p <;> simp [h]

/-- A stop of a computation that has a value has a value wherever it is passed on. -/
theorem valued_error {α β : Type} {r : Except Stop α} {e : Stop} (he : r = .error e) (hr : Valued r) :
    Valued (.error e : Except Stop β) := by
  rintro x ⟨⟩
  exact hr x he

/-- A command whose rule has a value answers a next state. -/
theorem conclude_answers {s : State} {r : Result} (h : Valued r) : ∃ t, s.conclude r = .next t := by
  rcases conclude_cases s r with ⟨d, b, -, e⟩ | ⟨f, -, e⟩ | ⟨x, hx, -⟩
  · exact ⟨_, e⟩
  · exact ⟨_, e⟩
  · exact absurd hx (h x)

theorem parseSizes_valued (hdr pay : Bits) : Valued (parseSizes hdr pay) := by
  rcases parseSizes_cases hdr pay with ⟨-, -, e⟩ | ⟨-, -, e⟩ | ⟨e, -⟩ <;> rw [e] <;> simp

theorem decodeWalk_valued (dt : List (Nat × Byte)) (size cap : Nat) (m : Bits) (pos : Nat) (out : List Byte) :
    Valued (decodeWalk dt size cap m pos out) := by
  rcases decodeWalk_cases dt size cap m pos out with ⟨vs, e, -⟩ | e | e <;> rw [e] <;> simp

/-! ### ASSIGN: the walk stays inside the tree (42_tree_builder.md rules R144, R145) -/

/-- A leaf of the tree stands for an entry of the alphabet. -/
theorem treeOver_leaf_entry {es : List Entry} {nodes : List Node} {root n f ent : Nat} (ht : TreeOver es nodes root)
    (hn : nodes[n]? = some (.leaf f ent)) : ent < es.length := by
  have h := ht.shape (_, n) (List.mem_zipIdx_iff_getElem?.2 hn)
  simp only [nodeOk, decide_eq_true_eq, Option.map_eq_some_iff] at h
  obtain ⟨-, e, he, -⟩ := h
  exact (List.getElem?_eq_some_iff.1 he).1

/-- The children of an internal node come before it. -/
theorem treeOver_children_lt {es : List Entry} {nodes : List Node} {root n f l r : Nat} (ht : TreeOver es nodes root)
    (hn : nodes[n]? = some (.internal f l r)) : l < n ∧ r < n := by
  have h := ht.shape (_, n) (List.mem_zipIdx_iff_getElem?.2 hn)
  simp only [nodeOk, decide_eq_true_eq] at h
  obtain ⟨-, hl, hr, -⟩ := h
  exact ⟨hl, hr⟩

theorem walk_nodes {k n : Nat} {b b' : Block} (h : walk k n b = .ok b') : b'.nodes = b.nodes := by
  rw [(walk_frame h).1]

theorem walk_alpha_length {k n : Nat} {b b' : Block} (h : walk k n b = .ok b') : b'.alpha.length = b.alpha.length := by
  simpa using congrArg List.length (walk_frame h).2

theorem setCode_valued {b : Block} {ent : Nat} (h : ent < b.alpha.length) (c : Bits) : Valued (b.setCode ent c) := by
  rw [setCode_ok (List.getElem?_eq_getElem h)]
  exact valued_ok _

/-- The walk of a tree ends: children have smaller numbers than their parent, so the bound on the depth is never met. -/
theorem walk_valued {es : List Entry} {nodes : List Node} {root : Nat} (ht : TreeOver es nodes root) {k n : Nat}
    {b : Block} (hk : n < k) (hn : n < nodes.length) (hnodes : b.nodes = nodes) (halpha : b.alpha.length = es.length) :
    Valued (walk k n b) := by
  induction k generalizing n b with
  | zero => omega
  | succ k ih =>
    unfold walk
    have hget : b.nodes[n]? = some nodes[n] := by rw [hnodes, List.getElem?_eq_getElem hn]
    match hx : nodes[n] with
    | .leaf f ent =>
      rw [hx] at hget
      simp only [hget]
      exact setCode_valued (halpha ▸ treeOver_leaf_entry ht (hnodes ▸ hget)) _
    | .internal f l r =>
      rw [hx] at hget
      obtain ⟨hl, hr⟩ := treeOver_children_lt ht (hnodes ▸ hget)
      simp only [hget]
      split
      · rename_i he
        exact valued_error he (ih (by omega) (by omega) (by simpa) (by simpa))
      · rename_i b1 h1
        have hnodes1 : b1.nodes = nodes := (walk_nodes h1).trans hnodes
        have halpha1 : b1.alpha.length = es.length := (walk_alpha_length h1).trans halpha
        split
        · rename_i he
          exact valued_error he (ih (by omega) (by omega) (by simpa) (by simpa))
        · exact valued_ok _

theorem assignCodes_valued {root : Nat} {b : Block} (ht : TreeOver b.alpha b.nodes root) :
    Valued (assignCodes root b) := by
  have hroot : root < b.nodes.length := by have := ht.rootLast; omega
  unfold assignCodes
  rw [List.getElem?_eq_getElem hroot]
  match hx : b.nodes[root] with
  | .leaf f ent => exact setCode_valued (treeOver_leaf_entry ht (hx ▸ List.getElem?_eq_getElem hroot)) _
  | .internal f l r => exact walk_valued ht hroot hroot rfl rfl

/-! ### CANON: the counter fits its digits (43_canonical.md rule R163) -/

/-- Kraft's sum does not depend on the order of the entries. -/
theorem kraft_perm {es fs : List Entry} (h : es.Perm fs) : kraft es = kraft fs := (h.map _).sum_eq

/-- Kraft's inequality for the codes of ASSIGN (42_tree_builder.md rule R147). -/
theorem huffmanCodes_kraft_le {es : List Entry} (h : HuffmanCodes es) : kraft es ≤ 2 ^ 255 := by
  match es with
  | [] => simp [kraft]
  | [e] =>
    have hc : e.code = [false] := h.single rfl e (by simp)
    simp [kraft, hc]
  | x :: y :: es => exact (h.complete (by simp)).le

/-- One round of the numbering, for an entry whose code is no shorter than the running length. -/
theorem canonAssign_cons {c len : Nat} {e : Entry} (es : List Entry) (hlen : len ≤ e.code.length)
    (hfit : c * 2 ^ (e.code.length - len) < 2 ^ e.code.length) :
    canonAssign c len (e :: es)
      = (canonAssign (c * 2 ^ (e.code.length - len) + 1) e.code.length es).map
          ({ e with code := bitsOf (c * 2 ^ (e.code.length - len)) e.code.length } :: ·) := by
  have hc : (if e.code.length > len then c <<< (e.code.length - len) else c) = c * 2 ^ (e.code.length - len) := by
    split
    · exact Nat.shiftLeft_eq _ _
    · simp [show e.code.length - len = 0 by omega]
  have hl : (if e.code.length > len then e.code.length else len) = e.code.length := by
    split <;> omega
  simp only [canonAssign, hc, hl, checkedBitsOf_ok hfit]
  cases canonAssign (c * 2 ^ (e.code.length - len) + 1) e.code.length es <;> rfl

/-- The numbering has a value for every list ascending by code length whose codes fit in the code space above the counter: the
counter at its length and Kraft's sum of the entries to come make up at most the whole space. -/
theorem canonAssign_total {c len : Nat} {es : List Entry} (hlen : ∀ e ∈ es, len ≤ e.code.length)
    (hmax : ∀ e ∈ es, e.code.length ≤ 255) (hsorted : es.Pairwise (fun x y => x.code.length ≤ y.code.length))
    (hspace : c * 2 ^ (255 - len) + kraft es ≤ 2 ^ 255) : ∃ out, canonAssign c len es = .ok out := by
  induction es generalizing c len with
  | nil => exact ⟨[], rfl⟩
  | cons e es ih =>
    obtain ⟨hnext, hrest⟩ := List.pairwise_cons.1 hsorted
    have he : len ≤ e.code.length := hlen e List.mem_cons_self
    have hm : e.code.length ≤ 255 := hmax e List.mem_cons_self
    have hshift : c * 2 ^ (255 - len) = c * 2 ^ (e.code.length - len) * 2 ^ (255 - e.code.length) := by
      rw [Nat.mul_assoc, ← Nat.pow_add]
      congr 2
      omega
    have hkraft : kraft (e :: es) = 2 ^ (255 - e.code.length) + kraft es := by simp [kraft]
    have hspace' : (c * 2 ^ (e.code.length - len) + 1) * 2 ^ (255 - e.code.length) + kraft es ≤ 2 ^ 255 := by
      rw [Nat.succ_mul, ← hshift]
      omega
    have hfit : c * 2 ^ (e.code.length - len) < 2 ^ e.code.length := by
      refine Nat.lt_of_mul_lt_mul_right (a := 2 ^ (255 - e.code.length)) ?_
      have hpos := Nat.two_pow_pos (255 - e.code.length)
      rw [← hshift, ← Nat.pow_add, Nat.add_sub_cancel' hm]
      omega
    obtain ⟨out, hout⟩ := ih hnext (fun x hx => hmax x (List.mem_cons_of_mem _ hx)) hrest hspace'
    exact ⟨_, by rw [canonAssign_cons es he hfit, hout]; rfl⟩

/-- A list ascending by code length that meets Kraft's inequality has canonical codes. -/
theorem canonical_total {es : List Entry} (hmax : ∀ e ∈ es, e.code.length ≤ 255)
    (hsorted : es.Pairwise (fun x y => x.code.length ≤ y.code.length)) (hkraft : kraft es ≤ 2 ^ 255) :
    ∃ out, canonical es = .ok out := by
  refine canonAssign_total ?_ hmax hsorted (by simpa using hkraft)
  match es with
  | [] => simp
  | e :: es =>
    intro x hx
    rcases List.mem_cons.1 hx with rfl | hx
    · rfl
    · exact (List.pairwise_cons.1 hsorted).1 x hx

/-- The sort of CANON puts the entries in order (b). -/
theorem insertionSort_orderB_pairwise (es : List Entry) : (es.insertionSort orderB).Pairwise orderB := by
  have : Std.Total orderB := ⟨fun x y => by simp only [orderB]; omega⟩
  have : IsTrans Entry orderB := ⟨fun x y z => by simp only [orderB]; omega⟩
  exact List.pairwise_insertionSort orderB es

/-- CANON's numbering has a value for every alphabet with the codes of ASSIGN. -/
theorem huffmanCodes_canonical_total {es : List Entry} (h : HuffmanCodes es) :
    ∃ out, canonical (es.insertionSort orderB) = .ok out := by
  refine canonical_total (fun e he => (h.lengths e (by simpa using he)).2) ?_ ?_
  · exact (insertionSort_orderB_pairwise es).imp fun hxy => by simp only [orderB] at hxy; omega
  · rw [kraft_perm (List.perm_insertionSort orderB es)]
    exact huffmanCodes_kraft_le h

/-! ### SERHDR: maxBits fits its byte (43_canonical.md rule R164) -/

theorem maxBitsOf_le {es : List Entry} {n : Nat} (h : ∀ e ∈ es, e.code.length ≤ n) : maxBitsOf es ≤ n := by
  unfold maxBitsOf
  split
  · exact Nat.zero_le n
  · exact h _ (List.mem_of_getLast? ‹_›)

/-! ### DESER: every byte it reads is in the header (43_canonical.md rules R166, R167) -/

/-- The number of symbols that the count bytes `k` to `k + m - 1` declare. -/
def declaredFrom (hdr : Bits) (k m : Nat) : Nat := ((List.range m).map (fun i => (byteView hdr (k + i)).toNat)).sum

theorem declaredFrom_succ (hdr : Bits) (k m : Nat) :
    declaredFrom hdr k (m + 1) = (byteView hdr k).toNat + declaredFrom hdr (k + 1) m := by
  simp [declaredFrom, List.range_succ_eq_map, Function.comp_def, Nat.add_assoc, Nat.add_comm 1]

theorem declaredSymbols_eq_declaredFrom (hdr : Bits) (mb : Nat) : declaredSymbols hdr mb = declaredFrom hdr 1 mb := by
  simp [declaredSymbols, declaredFrom, Nat.add_comm 1]

theorem deserBucket_valued {hdr : Bits} (k : Nat) {j : Nat} (c : Nat) {p : Nat} (h : p + j ≤ nBytes hdr) :
    Valued (deserBucket hdr k j c p) := by
  induction j generalizing c p with
  | zero => exact valued_ok _
  | succ j ih =>
    simp only [deserBucket, checkedByte_ok (show p < nBytes hdr by omega), valued_ite]
    refine ⟨fun _ => valued_raise _, fun _ => ?_⟩
    split
    · rename_i he
      exact valued_error he (ih _ (by omega))
    · exact valued_ok _

theorem deserBuckets_valued {hdr : Bits} {m k p : Nat} (c : Nat) (hk : k + m ≤ nBytes hdr)
    (hp : p + declaredFrom hdr k m ≤ nBytes hdr) : Valued (deserBuckets hdr m k c p) := by
  induction m generalizing k c p with
  | zero => exact valued_ok _
  | succ m ih =>
    rw [declaredFrom_succ] at hp
    simp only [deserBuckets, checkedByte_ok (show k < nBytes hdr by omega)]
    split
    · rename_i he
      exact valued_error he (deserBucket_valued k c (by omega))
    · split
      · rename_i he
        exact valued_error he (ih _ (by omega) (by omega))
      · exact valued_ok _

/-- DESER has a value on every header whose sizes PARSE accepts. -/
theorem deserBuckets_valued_of_parse {hdr pay : Bits} {mb n : Nat} (h : parseSizes hdr pay = .ok (mb, n)) :
    Valued (deserBuckets hdr mb 1 0 (1 + mb)) := by
  rcases parseSizes_cases hdr pay with ⟨-, -, e⟩ | ⟨-, hlen, e⟩ | ⟨e, -⟩ <;> rw [e] at h <;> cases h
  · exact valued_ok _
  · have hbytes : nBytes hdr = 1 + (byteView hdr 0).toNat + declaredFrom hdr 1 (byteView hdr 0).toNat := by
      rw [← declaredSymbols_eq_declaredFrom, nBytes]
      omega
    exact deserBuckets_valued 0 (by omega) (by omega)

/-! ### PACK: LUT names entries (10_state.md rule R30) -/

/-- After SERHDR every slot of LUT that is set names the entry with that symbol. -/
theorem inv_entry_of_lookup {s : State} (h : Inv s) (hp : serializedPhase s.blk.phase = true) {v : Byte} {i : Nat}
    (hi : s.blk.lookup v = some i) : ∃ e, s.blk.entry i = some e ∧ e.sym = v := by
  rcases h.lutOnly hp v with hnone | ⟨e, he, rfl⟩
  · rw [hnone] at hi
    cases hi
  · obtain ⟨j, hj⟩ := List.mem_iff_getElem?.1 he
    have hset : s.blk.lookup e.sym = some j := h.lutSet hp (e, j) (List.mem_zipIdx_iff_getElem?.2 hj)
    cases hi.symm.trans hset
    exact ⟨e, hj, rfl⟩

/-! ### Every command answers -/

/-- The invariant speaks of the parameters and the block only. -/
theorem inv_of_same_block {s t : State} (h : Inv s) (hcfg : t.cfg = s.cfg) (hblk : t.blk = s.blk) : Inv t := by
  obtain ⟨cfg, blk, pending, rsps⟩ := t
  subst hcfg hblk
  exact { h with }

theorem execMktree_answers (s : State) : ∃ t, execMktree s = .next t := by
  refine conclude_answers ?_
  simp only [valued_ite, valued_raise, implies_true, true_and]
  intro _ _
  split
  · exact valued_raise _
  · exact valued_finishOk _ _

theorem execAssign_answers {s : State} (h : Inv s) : ∃ t, execAssign s = .next t := by
  refine conclude_answers ((valued_ite _ _ _).2 ⟨fun _ => valued_raise _, fun hp => ?_⟩)
  obtain ⟨root, hroot, ht⟩ := h.tree (not_not.1 hp)
  rw [Option.mem_def.1 hroot]
  simp only
  split
  · rename_i he
    exact valued_error he (assignCodes_valued ht)
  · exact valued_finishOk _ _

theorem execCanon_answers {s : State} (h : Inv s) : ∃ t, execCanon s = .next t := by
  refine conclude_answers ((valued_ite _ _ _).2 ⟨fun _ => valued_raise _, fun hp => ?_⟩)
  obtain ⟨es, hes⟩ := huffmanCodes_canonical_total (h.huffman (by rw [not_not.1 hp]; rfl))
  rw [hes]
  exact valued_finishOk _ _

theorem execSerhdr_answers {s : State} (h : Inv s) : ∃ t, execSerhdr s = .next t := by
  have hmax : maxBitsOf s.blk.alpha ≤ 255 := maxBitsOf_le h.codeFits
  refine conclude_answers ?_
  rw [if_neg (Nat.not_lt.2 hmax)]
  simp

theorem execParse_answers (s : State) : ∃ t, execParse s = .next t := by
  refine conclude_answers ((valued_ite _ _ _).2 ⟨fun _ => valued_raise _, fun _ => ?_⟩)
  split
  · rename_i he
    exact valued_error he (parseSizes_valued _ _)
  · exact valued_finishOk _ _

theorem execDeser_answers {s : State} (h : Inv s) : ∃ t, execDeser s = .next t := by
  refine conclude_answers ?_
  simp only [valued_ite, valued_raise, implies_true, true_and]
  intro _ hp _
  have hparsed := h.parsed (by rw [not_not.1 hp]; rfl)
  split
  · rename_i he
    exact valued_error he (deserBuckets_valued_of_parse hparsed)
  · exact valued_finishOk _ _

theorem execPack_answers {s : State} (h : Inv s) (b : Byte) : ∃ t, execPack b s = .next t := by
  refine conclude_answers ((valued_ite _ _ _).2 ⟨fun _ => valued_raise _, fun hp => ?_⟩)
  match hi : s.blk.lookup b with
  | none => exact valued_raise _
  | some i =>
    obtain ⟨e, he, -⟩ := inv_entry_of_lookup h (by rw [not_not.1 hp]; rfl) hi
    simp [he]

theorem execDecode_answers (s : State) : ∃ t, execDecode s = .next t := by
  refine conclude_answers ?_
  simp only [valued_ite, valued_raise, implies_true, true_and]
  intro _ _
  split
  · rename_i he
    exact valued_error he (decodeWalk_valued _ _ _ _ _ _)
  · exact valued_finishOk _ _

/-- No command stops in a state that meets the invariant. Most rules only raise faults of the spec, in every state; the rest have
their lemma above. -/
theorem exec_answers {s : State} (h : Inv s) (i : Instr) : ∃ t, exec i s = .next t := by
  cases i with
  | init | abort | rdphase | rderr | blen _ | rdft _ | nsym => exact ⟨_, rfl⟩
  | finish | retire | relenc | reldec | mkalpha | packend | mklook => exact conclude_answers (by simp)
  | bapp _ _ | bappb _ _ | btrim _ | brdb _ _ | count _ => exact conclude_answers (by simp)
  | bget _ _ | rdsym _ | rdfreq _ => exact conclude_answers (by split <;> simp)
  | cget _ _ => exact conclude_answers (by split <;> [simp; (split <;> simp)])
  | mktree => exact execMktree_answers s
  | assign => exact execAssign_answers h
  | canon => exact execCanon_answers h
  | serhdr => exact execSerhdr_answers h
  | parse => exact execParse_answers s
  | deser => exact execDeser_answers h
  | pack b => exact execPack_answers h b
  | decode => exact execDecode_answers s

/-! ### The obligations -/

/-- Settles O56: of the four things a step can find at the port only a command could stop, and none does. -/
theorem stepNeverStops : Obligations.StepNeverStops := by
  intro s h
  rcases step_cases s with ⟨-, e⟩ | ⟨_, _, -, e⟩ | ⟨_, _, _, -, -, e⟩ | ⟨_, rest, i, -, -, e⟩
  · exact ⟨_, e⟩
  · exact ⟨_, e⟩
  · exact ⟨_, e⟩
  · rw [e]
    exact exec_answers (inv_of_same_block (t := { s with pending := rest }) h rfl rfl) i

/-- Settles O7, by the law of the step that takes a command word. -/
theorem stepRunsDecodedCommand : Obligations.StepRunsDecodedCommand :=
  fun _ _ _ _ hpending hdecode => step_command hpending hdecode

end Sys2Proof.Machine
end

section
/-! SUPPORT. MKTREE builds a tree (42_tree_builder.md rules R143, R144): what leaf insertion and every merge keep of the arena
and the queue, and from it the finished tree and the bound on its frequencies. -/

namespace Sys2Proof.Machine

open Sys2Proof.Safety

/-! ### The arena under one more node -/

theorem freqOf_eq_freqAt (b : Block) (n : Nat) : b.freqOf n = freqAt b.nodes n := by
  unfold Block.freqOf freqAt
  cases b.nodes[n]? <;> rfl

theorem freqAt_append_of_lt {nodes : List Node} {n : Nat} (more : List Node) (h : n < nodes.length) :
    freqAt (nodes ++ more) n = freqAt nodes n := by
  simp [freqAt, List.getElem?_append_left h]

@[simp] theorem freqAt_last (nodes : List Node) (x : Node) : freqAt (nodes ++ [x]) nodes.length = x.freq := by
  simp [freqAt]

theorem freqAt_of_getElem? {nodes : List Node} {n : Nat} {x : Node} (h : nodes[n]? = some x) : freqAt nodes n = x.freq := by
  simp [freqAt, h]

theorem childrenOf_append (xs ys : List Node) : childrenOf (xs ++ ys) = childrenOf xs ++ childrenOf ys :=
  List.flatMap_append

@[simp] theorem childrenOf_internal (f l r : Nat) : childrenOf [.internal f l r] = [l, r] := rfl

/-- Which leaf may stand at a number (R144 (i)). -/
theorem nodeOk_leaf {es : List Entry} {nodes : List Node} {f ent k : Nat} :
    nodeOk es nodes (.leaf f ent, k) = true ↔ ent = k ∧ (es[ent]?).map Entry.freq = some f := by
  simp [nodeOk]

/-- Which internal node may stand at a number (R144 (iii)). -/
theorem nodeOk_internal {es : List Entry} {nodes : List Node} {f l r k : Nat} :
    nodeOk es nodes (.internal f l r, k) = true
      ↔ es.length ≤ k ∧ l < k ∧ r < k ∧ f = freqAt nodes l + freqAt nodes r := by
  simp [nodeOk]

/-- A node stays as it should be when the arena grows. -/
theorem nodeOk_append {es : List Entry} {nodes : List Node} {p : Node × Nat} (more : List Node) (hp : p.2 ≤ nodes.length)
    (h : nodeOk es nodes p = true) : nodeOk es (nodes ++ more) p = true := by
  match p with
  | (.leaf f ent, k) => exact h
  | (.internal f l r, k) =>
    obtain ⟨hk, hl, hr, hf⟩ := nodeOk_internal.1 h
    simp only at hp
    refine nodeOk_internal.2 ⟨hk, hl, hr, ?_⟩
    rw [freqAt_append_of_lt more (by omega), freqAt_append_of_lt more (by omega), hf]

/-! ### The forest that merging works on -/

/-- What holds of the arena and the queue from leaf insertion to the last merge (R143): every node is a child of one internal
node or is queued, and the queued nodes hold the whole frequency. -/
structure Forest (es : List Entry) (b : Block) : Prop where
  sizes : b.nodes.length + b.heap.length = 2 * es.length
  leaves : es.length ≤ b.nodes.length
  shape : ∀ p ∈ b.nodes.zipIdx, nodeOk es b.nodes p = true
  onceEach : (childrenOf b.nodes ++ b.heap).Perm (List.range b.nodes.length)
  total : (b.heap.map (freqAt b.nodes)).sum = (es.map Entry.freq).sum
  bounded : ∀ n ∈ b.nodes, n.freq ≤ (es.map Entry.freq).sum

theorem Forest.queued_lt {es : List Entry} {b : Block} (h : Forest es b) {m : Nat} (hm : m ∈ b.heap) :
    m < b.nodes.length :=
  List.mem_range.1 (h.onceEach.subset (List.mem_append_right _ hm))

/-- The leaves of an alphabet, all queued, are a forest. -/
theorem forest_insertLeaves {b : Block} (hn : b.nodes = []) (hq : b.heap = []) : Forest b.alpha b.insertLeaves := by
  have hnodes : b.insertLeaves.nodes = b.alpha.zipIdx.map (fun p => .leaf p.1.freq p.2) := by
    rw [insertLeaves_nodes, hn, List.nil_append]
  have hheap : b.insertLeaves.heap.Perm (List.range b.alpha.length) := by
    simpa [hn, hq] using insertLeaves_heap b
  have hlen : b.insertLeaves.nodes.length = b.alpha.length := by simp [hnodes]
  have hget : ∀ i (hi : i < b.alpha.length), b.insertLeaves.nodes[i]? = some (.leaf b.alpha[i].freq i) := by
    intro i hi
    simp [hnodes, hi]
  have hfreq : (List.range b.alpha.length).map (freqAt b.insertLeaves.nodes) = b.alpha.map Entry.freq := by
    refine List.ext_getElem (by simp) fun i hi _ => ?_
    simp only [List.length_map, List.length_range] at hi
    simp [freqAt_of_getElem? (hget i hi), Node.freq]
  have hnone : childrenOf b.insertLeaves.nodes = [] := by
    simp [hnodes, childrenOf, List.flatMap_map]
  refine ⟨?_, hlen.ge, ?_, ?_, ?_, ?_⟩
  · rw [hlen, hheap.length_eq, List.length_range, Nat.two_mul]
  · rintro ⟨x, i⟩ hp
    have hx := List.mem_zipIdx_iff_getElem?.1 hp
    have hi : i < b.alpha.length := hlen ▸ (List.getElem?_eq_some_iff.1 hx).1
    cases (hget i hi).symm.trans hx
    exact nodeOk_leaf.2 ⟨rfl, by simp [hi]⟩
  · rw [hnone, hlen]
    exact hheap
  · rw [(hheap.map _).sum_eq, hfreq]
  · intro n hn
    rw [hnodes, List.mem_map] at hn
    obtain ⟨p, hp, rfl⟩ := hn
    exact List.single_le_sum (fun _ _ => Nat.zero_le _) _ (List.mem_map_of_mem (List.fst_mem_of_mem_zipIdx hp))

/-- A merge keeps the forest: two queued nodes become the children of a new queued one. -/
theorem Forest.merge {es : List Entry} {b b2 : Block} {x y : Nat} (h : Forest es b) (hnodes : b2.nodes = b.nodes)
    (hheap : b.heap.Perm (x :: y :: b2.heap)) :
    Forest es (b2.addNode (.internal (b2.freqOf x + b2.freqOf y) x y)) := by
  have hxlt : x < b.nodes.length := h.queued_lt (hheap.symm.subset (by simp))
  have hylt : y < b.nodes.length := h.queued_lt (hheap.symm.subset (by simp))
  have hrest : ∀ m ∈ b2.heap, m < b.nodes.length := fun m hm => h.queued_lt (hheap.symm.subset (by simp [hm]))
  have hsum : freqAt b.nodes x + (freqAt b.nodes y + (b2.heap.map (freqAt b.nodes)).sum) = (es.map Entry.freq).sum := by
    rw [← h.total, (hheap.map _).sum_eq]
    simp
  have hqueue := addNode_perm b2 (.internal (b2.freqOf x + b2.freqOf y) x y)
  have hlen := hheap.length_eq
  simp only [List.length_cons] at hlen
  refine ⟨?_, ?_, ?_, ?_, ?_, ?_⟩
  · have := h.sizes
    simp only [addNode_nodes, addNode_heap_length, List.length_append, List.length_cons, List.length_nil, hnodes]
    omega
  · have := h.leaves
    simp only [addNode_nodes, List.length_append, hnodes]
    omega
  · intro p hp
    rw [addNode_nodes, hnodes, List.zipIdx_append, List.mem_append] at hp
    rw [addNode_nodes, hnodes]
    rcases hp with hp | hp
    · exact nodeOk_append _ (Nat.le_of_lt (by simpa using List.snd_lt_of_mem_zipIdx hp)) (h.shape p hp)
    · simp only [List.zipIdx_cons, List.zipIdx_nil, List.mem_singleton, Nat.zero_add] at hp
      subst hp
      refine nodeOk_internal.2 ⟨h.leaves, hxlt, hylt, ?_⟩
      rw [freqOf_eq_freqAt, freqOf_eq_freqAt, hnodes, freqAt_append_of_lt _ hxlt, freqAt_append_of_lt _ hylt]
  · rw [addNode_nodes, childrenOf_append, childrenOf_internal, hnodes, List.length_append, List.length_singleton,
      List.range_succ]
    have hold : (childrenOf b.nodes ++ [x, y] ++ b2.heap).Perm (List.range b.nodes.length) := by
      rw [List.append_assoc]
      exact (hheap.symm.append_left _).trans h.onceEach
    calc (childrenOf b.nodes ++ [x, y] ++ (b2.addNode _).heap).Perm
          (childrenOf b.nodes ++ [x, y] ++ (b.nodes.length :: b2.heap)) := (hnodes ▸ hqueue).append_left _
      _ |>.Perm (b.nodes.length :: (childrenOf b.nodes ++ [x, y] ++ b2.heap)) := List.perm_middle
      _ |>.Perm (List.range b.nodes.length ++ [b.nodes.length]) :=
          (hold.cons _).trans (List.perm_append_singleton _ _).symm
  · have hsame : b2.heap.map (freqAt (b2.addNode (.internal (b2.freqOf x + b2.freqOf y) x y)).nodes)
        = b2.heap.map (freqAt b.nodes) :=
      List.map_congr_left fun m hm => by rw [addNode_nodes, hnodes, freqAt_append_of_lt _ (hrest m hm)]
    rw [(hqueue.map _).sum_eq, List.map_cons, List.sum_cons, hsame, addNode_nodes, freqAt_last, ← hsum,
      freqOf_eq_freqAt, freqOf_eq_freqAt, hnodes, ← Nat.add_assoc]
    rfl
  · intro n hn
    rw [addNode_nodes, hnodes, List.mem_append, List.mem_singleton] at hn
    rcases hn with hn | rfl
    · exact h.bounded n hn
    · rw [freqOf_eq_freqAt, freqOf_eq_freqAt, hnodes, ← hsum, ← Nat.add_assoc]
      exact Nat.le_add_right _ _

/-- Merging a forest with at least one queued node ends with exactly one. -/
theorem Forest.mergeAll {es : List Entry} {b : Block} {k : Nat} (h : Forest es b) (hpos : b.heap ≠ [])
    (hk : b.heap.length ≤ k + 1) : Forest es (Block.mergeAll k b) ∧ (Block.mergeAll k b).heap.length = 1 := by
  have hone := List.length_pos_iff.2 hpos
  induction k generalizing b with
  | zero => exact ⟨h, by simp only [Block.mergeAll]; omega⟩
  | succ k ih =>
    unfold Block.mergeAll
    split
    · exact absurd (heapExtractMin_eq_none ‹_›) hpos
    · rename_i x b1 h1
      obtain ⟨-, e1, p1⟩ := heapExtractMin_eq_some h1
      split
      · have hq := heapExtractMin_eq_none ‹_›
        exact ⟨h, by rw [p1.length_eq, hq]; rfl⟩
      · rename_i y b2 h2
        obtain ⟨-, e2, p2⟩ := heapExtractMin_eq_some h2
        have hlen := p1.length_eq
        have hlen2 := p2.length_eq
        simp only [List.length_cons] at hlen hlen2
        have hforest := h.merge (b2 := b2) (by rw [e2, e1]) (p1.trans (p2.cons x))
        have hcount := addNode_heap_length b2 (.internal (b2.freqOf x + b2.freqOf y) x y)
        exact ih hforest (List.ne_nil_of_length_pos (by omega)) (by omega) (by omega)

/-! ### The finished tree (R144) -/

/-- The last node is no node's child: children come before their parent. -/
theorem children_lt_last {es : List Entry} {nodes : List Node} (hshape : ∀ p ∈ nodes.zipIdx, nodeOk es nodes p = true)
    {m : Nat} (hm : m ∈ childrenOf nodes) : m + 1 < nodes.length := by
  obtain ⟨x, hx, hmx⟩ := List.mem_flatMap.1 hm
  obtain ⟨k, hk⟩ := List.mem_iff_getElem?.1 hx
  have hlt := (List.getElem?_eq_some_iff.1 hk).1
  match x with
  | .leaf f ent => cases hmx
  | .internal f l r =>
    obtain ⟨-, hl, hr, -⟩ := nodeOk_internal.1 (hshape _ (List.mem_zipIdx_iff_getElem?.2 hk))
    rcases List.mem_pair.1 hmx with rfl | rfl <;> omega

/-- A forest with one queued node is a tree with that node as its root. -/
theorem Forest.treeOver {es : List Entry} {b : Block} {root : Nat} (h : Forest es b) (hroot : b.heap = [root]) :
    TreeOver es b.nodes root := by
  have hperm := h.onceEach
  rw [hroot] at hperm
  have hsizes := h.sizes
  have hlt : root < b.nodes.length := h.queued_lt (by simp [hroot])
  have hlast : root + 1 = b.nodes.length := by
    have hmem : b.nodes.length - 1 ∈ childrenOf b.nodes ++ [root] := hperm.symm.subset (List.mem_range.2 (by omega))
    rcases List.mem_append.1 hmem with hc | hc
    · have := children_lt_last h.shape hc
      omega
    · have := List.mem_singleton.1 hc
      omega
  refine ⟨by simpa [hroot] using hsizes, hlast, h.shape, ?_, by simpa [hroot] using h.total⟩
  rw [← hlast, List.range_succ] at hperm
  exact (List.perm_append_right_iff _).1 hperm

/-- The arena and the queue of MKTREE before it takes the root. -/
def Block.mergedTree (b : Block) : Block :=
  { b with nodes := [], heap := [] }.insertLeaves.mergeAll { b with nodes := [], heap := [] }.insertLeaves.heap.length

/-- Building the tree writes nothing but NODE and HEAP. -/
theorem mergedTree_frame (b : Block) : ∃ nodes heap, b.mergedTree = { b with nodes := nodes, heap := heap } := by
  obtain ⟨nodes, heap, h⟩ : ∃ nodes heap, { b with nodes := [], heap := [] }.insertLeaves
      = { b with nodes := nodes, heap := heap } := ⟨_, _, insertLeaves_frame _⟩
  rw [Block.mergedTree, h]
  exact ⟨_, _, mergeAll_frame _ _⟩

/-- Building the tree over a non-empty alphabet leaves a forest with one queued node. -/
theorem mergedTree_forest {b : Block} (h : b.alpha ≠ []) :
    Forest b.alpha b.mergedTree ∧ b.mergedTree.heap.length = 1 := by
  have hlen := (insertLeaves_heap { b with nodes := [], heap := [] }).length_eq
  refine Forest.mergeAll (forest_insertLeaves (b := { b with nodes := [], heap := [] }) rfl rfl) ?_ (Nat.le_succ _)
  intro hnil
  rw [hnil] at hlen
  exact h (by simpa using hlen.symm)

/-- MKTREE's rule, past its guards. -/
theorem execMktree_eq {s : State} (hp : s.blk.phase = .alphabetBuilt) (ha : s.blk.alpha ≠ []) :
    execMktree s = s.conclude (match s.blk.mergedTree.heapExtractMin with
      | none => raise .treeConstructionFailed
      | some (r, b') => finishOk 0 { b' with root := some r, phase := .treeBuilt }) := by
  rw [execMktree, if_neg (not_not.2 hp), if_neg (mt List.length_eq_zero_iff.1 ha)]
  rfl

/-- MKTREE, on a non-empty alphabet in phase AlphabetBuilt: a tree over the alphabet in NODE, with no frequency above the
alphabet's sum, and nothing else but the root and the phase (R143, R144). -/
theorem execMktree_answered {s : State} (hp : s.blk.phase = .alphabetBuilt) (ha : s.blk.alpha ≠ []) :
    ∃ nodes root,
      execMktree s = .next (answered s 0
          { s.blk with nodes := nodes, heap := [], root := some root, phase := .treeBuilt })
        ∧ TreeOver s.blk.alpha nodes root
        ∧ ∀ n ∈ nodes, n.freq ≤ (s.blk.alpha.map Entry.freq).sum := by
  obtain ⟨hforest, hone⟩ := mergedTree_forest ha
  obtain ⟨root, hroot⟩ := List.length_eq_one_iff.1 hone
  obtain ⟨nodes, heap, hframe⟩ := mergedTree_frame s.blk
  rw [execMktree_eq hp ha]
  rw [hframe] at hforest hroot ⊢
  obtain ⟨q, hq, hperm⟩ := heapExtractMin_cons hroot
  cases hperm.eq_nil
  rw [hq]
  exact ⟨nodes, root, rfl, hforest.treeOver hroot, hforest.bounded⟩

end Sys2Proof.Machine
end

section
/-! SUPPORT. ASSIGN gives Huffman codes (42_tree_builder.md rules R145 to R147): in a finished tree every node has exactly one
path from the root, the walk gives each entry the path of its leaf, and the code space splits without rest at every internal node. -/

namespace Sys2Proof.Machine

open Sys2Proof.Safety

/-! ### Nodes and their children -/

/-- Below the number of entries stand the leaves, each for its own entry; from there on the internal nodes (R144 (i), (iii)). -/
theorem treeOver_node_cases {es : List Entry} {nodes : List Node} {root k : Nat} {x : Node} (ht : TreeOver es nodes root)
    (hk : nodes[k]? = some x) :
    (k < es.length ∧ ∃ f, x = .leaf f k)
      ∨ (es.length ≤ k ∧ ∃ f l r, x = .internal f l r) := by
  have h := ht.shape (x, k) (List.mem_zipIdx_iff_getElem?.2 hk)
  match x with
  | .leaf f ent =>
    obtain ⟨rfl, -⟩ := nodeOk_leaf.1 h
    exact .inl ⟨treeOver_leaf_entry ht hk, f, rfl⟩
  | .internal f l r => exact .inr ⟨(nodeOk_internal.1 h).1, f, l, r, rfl⟩

/-- A child is named by the node and the side it hangs on. -/
theorem mem_childrenOf {nodes : List Node} {m : Nat} :
    m ∈ childrenOf nodes
      ↔ ∃ (k f l r : Nat) (bit : Bool), nodes[k]? = some (.internal f l r) ∧ (if bit then r else l) = m := by
  constructor
  · intro hm
    obtain ⟨x, hx, hmx⟩ := List.mem_flatMap.1 hm
    obtain ⟨k, hk⟩ := List.mem_iff_getElem?.1 hx
    match x with
    | .leaf f ent => cases hmx
    | .internal f l r =>
      rcases List.mem_pair.1 hmx with rfl | rfl
      · exact ⟨k, f, m, r, false, hk, rfl⟩
      · exact ⟨k, f, l, m, true, hk, rfl⟩
  · rintro ⟨k, f, l, r, bit, hk, rfl⟩
    exact List.mem_flatMap.2 ⟨_, List.mem_of_getElem? hk, by cases bit <;> simp⟩

/-- When no child is named twice, a child has one parent and hangs on one side of it. -/
theorem childrenOf_inj {nodes : List Node} (hnd : (childrenOf nodes).Nodup) {j k f l r f' l' r' : Nat} {b c : Bool}
    (hj : nodes[j]? = some (.internal f l r)) (hk : nodes[k]? = some (.internal f' l' r'))
    (h : (if b then r else l) = if c then r' else l') : j = k ∧ b = c := by
  obtain ⟨hone, htwo⟩ := List.nodup_flatMap.1 hnd
  obtain ⟨hjlt, hjget⟩ := List.getElem?_eq_some_iff.1 hj
  obtain ⟨hklt, hkget⟩ := List.getElem?_eq_some_iff.1 hk
  have hjmem : (if b then r else l) ∈ [l, r] := by cases b <;> simp
  have hkmem : (if c then r' else l') ∈ [l', r'] := by cases c <;> simp
  rcases Nat.lt_trichotomy j k with hlt | rfl | hlt
  · have hd := List.pairwise_iff_getElem.1 htwo j k hjlt hklt hlt
    rw [hjget, hkget] at hd
    exact absurd (h ▸ hkmem) (hd hjmem)
  · cases hj.symm.trans hk
    have hne := hone _ (List.mem_of_getElem? hj)
    simp only [List.nodup_cons, List.mem_singleton] at hne
    refine ⟨rfl, ?_⟩
    cases b <;> cases c <;> simp_all
  · have hd := List.pairwise_iff_getElem.1 htwo k j hklt hjlt hlt
    rw [hjget, hkget] at hd
    exact absurd (h ▸ hjmem) (hd hkmem)

theorem treeOver_childrenOf_nodup {es : List Entry} {nodes : List Node} {root : Nat} (ht : TreeOver es nodes root) :
    (childrenOf nodes).Nodup := ht.onceEach.nodup_iff.2 List.nodup_range

/-! ### Paths -/

@[simp] theorem follow_nil (nodes : List Node) (n : Nat) : follow nodes n [] = some n := rfl

theorem follow_internal {nodes : List Node} {n f l r : Nat} (h : nodes[n]? = some (.internal f l r)) (bit : Bool)
    (rest : Bits) : follow nodes n (bit :: rest) = follow nodes (if bit then r else l) rest := by
  simp [follow, h]

/-- The inversion of a path that is not empty: it starts at an internal node. -/
theorem follow_cons_inv {nodes : List Node} {n m : Nat} {bit : Bool} {rest : Bits}
    (h : follow nodes n (bit :: rest) = some m) :
    ∃ f l r, nodes[n]? = some (.internal f l r) ∧ follow nodes (if bit then r else l) rest = some m := by
  unfold follow at h
  split at h
  · exact ⟨_, _, _, ‹_›, h⟩
  · cases h

/-- A path ends at a leaf. -/
theorem follow_leaf {nodes : List Node} {n m f ent : Nat} {path : Bits} (hn : nodes[n]? = some (.leaf f ent))
    (h : follow nodes n path = some m) : path = [] ∧ m = n := by
  match path with
  | [] => exact ⟨rfl, (Option.some.inj h).symm⟩
  | bit :: rest =>
    obtain ⟨f', l, r, hint, -⟩ := follow_cons_inv h
    rw [hn] at hint
    cases hint

theorem follow_append (nodes : List Node) (n : Nat) (p q : Bits) :
    follow nodes n (p ++ q) = (follow nodes n p).bind (fun m => follow nodes m q) := by
  induction p generalizing n with
  | nil => rfl
  | cons bit p ih =>
    simp only [List.cons_append, follow]
    split
    · exact ih _
    · rfl

/-- The inversion of a path by its last bit. -/
theorem follow_concat_inv {nodes : List Node} {n m : Nat} {path : Bits} {bit : Bool}
    (h : follow nodes n (path ++ [bit]) = some m) :
    ∃ k f l r, follow nodes n path = some k ∧ nodes[k]? = some (.internal f l r) ∧ (if bit then r else l) = m := by
  rw [follow_append] at h
  obtain ⟨k, hk, hlast⟩ := Option.bind_eq_some_iff.1 h
  obtain ⟨f, l, r, hint, hm⟩ := follow_cons_inv hlast
  exact ⟨k, f, l, r, hk, hint, Option.some.inj hm⟩

/-- Node numbers fall along a path, and all but the last are those of internal nodes (R147 (ii)). -/
theorem treeOver_path_length {es : List Entry} {nodes : List Node} {root n m : Nat} {path : Bits}
    (ht : TreeOver es nodes root) (h : follow nodes n path = some m) (hne : path ≠ []) :
    es.length + path.length ≤ n + 1 := by
  induction path generalizing n with
  | nil => exact absurd rfl hne
  | cons bit rest ih =>
    obtain ⟨f, l, r, hint, hrest⟩ := follow_cons_inv h
    have hn : es.length ≤ n := (nodeOk_internal.1 (ht.shape _ (List.mem_zipIdx_iff_getElem?.2 hint))).1
    have hchild : (if bit then r else l) < n := by
      obtain ⟨hl, hr⟩ := treeOver_children_lt ht hint
      cases bit <;> assumption
    match rest with
    | [] => simpa using hn
    | c :: rest =>
      have := ih hrest (by simp)
      simp only [List.length_cons] at this ⊢
      omega

/-- No node is deeper than the number of entries less one (R144 (v)). -/
theorem treeOver_depth {es : List Entry} {nodes : List Node} {root m : Nat} {path : Bits} (ht : TreeOver es nodes root)
    (h : follow nodes root path = some m) : path.length + 1 ≤ es.length := by
  have hsize := ht.size
  have hlast := ht.rootLast
  match path with
  | [] =>
    simp only [List.length_nil]
    omega
  | bit :: rest =>
    have := treeOver_path_length ht h (by simp)
    omega

/-- Every node can be reached from the root. -/
theorem treeOver_reach {es : List Entry} {nodes : List Node} {root m : Nat} (ht : TreeOver es nodes root)
    (hm : m ≤ root) : ∃ path, follow nodes root path = some m := by
  induction hd : root - m using Nat.strong_induction_on generalizing m with
  | _ d ih =>
    rcases Nat.eq_or_lt_of_le hm with rfl | hlt
    · exact ⟨[], rfl⟩
    · obtain ⟨k, f, l, r, bit, hk, hchild⟩ := mem_childrenOf.1 (ht.onceEach.symm.subset (List.mem_range.2 hlt))
      have hklt := (List.getElem?_eq_some_iff.1 hk).1
      have hlast := ht.rootLast
      have hmk : m < k := by
        obtain ⟨hl, hr⟩ := treeOver_children_lt ht hk
        subst hchild
        cases bit <;> assumption
      obtain ⟨path, hpath⟩ := ih (root - k) (by omega) (by omega) rfl
      refine ⟨path ++ [bit], ?_⟩
      rw [follow_append, hpath, Option.bind_some, follow_internal hk, follow_nil, hchild]

/-- Every node is reached by one path only. -/
theorem treeOver_path_unique {es : List Entry} {nodes : List Node} {root m : Nat} {p q : Bits}
    (ht : TreeOver es nodes root) (hp : follow nodes root p = some m) (hq : follow nodes root q = some m) : p = q := by
  have hroot : ∀ (path : Bits) (bit : Bool), follow nodes root (path ++ [bit]) ≠ some root := by
    intro path bit h
    obtain ⟨k, f, l, r, -, hk, hchild⟩ := follow_concat_inv h
    have hmem := ht.onceEach.subset (mem_childrenOf.2 ⟨k, f, l, r, bit, hk, hchild⟩)
    exact absurd (List.mem_range.1 hmem) (Nat.lt_irrefl _)
  induction p using List.reverseRecOn generalizing m q with
  | nil =>
    cases hp
    rcases q.eq_nil_or_concat with rfl | ⟨q, c, rfl⟩
    · rfl
    · rw [List.concat_eq_append] at hq
      exact absurd hq (hroot q c)
  | append_singleton p b ih =>
    rcases q.eq_nil_or_concat with rfl | ⟨q, c, rfl⟩
    · cases hq
      exact absurd hp (hroot p b)
    · rw [List.concat_eq_append] at hq ⊢
      obtain ⟨j, f, l, r, hpj, hj, hbm⟩ := follow_concat_inv hp
      obtain ⟨k, f', l', r', hqk, hk, hcm⟩ := follow_concat_inv hq
      obtain ⟨rfl, rfl⟩ := childrenOf_inj (treeOver_childrenOf_nodup ht) hj hk (hbm.trans hcm.symm)
      rw [ih hpj hqk]

/-- A path that goes on is not one to a leaf. -/
theorem treeOver_leaf_path_prefix {es : List Entry} {nodes : List Node} {root i j : Nat} {p q : Bits}
    (ht : TreeOver es nodes root) (hi : i < es.length) (hp : follow nodes root p = some i)
    (hq : follow nodes root q = some j) (h : p <+: q) : i = j := by
  obtain ⟨t, rfl⟩ := h
  rw [follow_append, hp, Option.bind_some] at hq
  have hlen : i < nodes.length := by
    have := ht.size
    omega
  rcases treeOver_node_cases ht (List.getElem?_eq_getElem hlen) with ⟨-, f, hleaf⟩ | ⟨hge, -⟩
  · exact (follow_leaf (hleaf ▸ List.getElem?_eq_getElem hlen) hq).2.symm
  · omega

/-! ### The code space (R147 (iii)) -/

/-- Weights that split at every internal node: those of the leaves add up to the root's. -/
theorem treeOver_weights {es : List Entry} {nodes : List Node} {root : Nat} (ht : TreeOver es nodes root) (w : Nat → Nat)
    (hw : ∀ k f l r, nodes[k]? = some (.internal f l r) → w l + w r = w k) :
    ((List.range es.length).map w).sum = w root := by
  have hsize := ht.size
  have hlast := ht.rootLast
  have hsplit : ∀ n, es.length ≤ n → n ≤ nodes.length →
      ((childrenOf (nodes.take n)).map w).sum + ((List.range es.length).map w).sum = ((List.range n).map w).sum := by
    intro n hn
    induction n, hn using Nat.le_induction with
    | base =>
      intro _
      have hnone : childrenOf (nodes.take es.length) = [] := by
        refine List.eq_nil_iff_forall_not_mem.2 fun m hm => ?_
        obtain ⟨k, f, l, r, bit, hk, -⟩ := mem_childrenOf.1 hm
        rw [List.getElem?_take] at hk
        split at hk
        · rcases treeOver_node_cases ht hk with ⟨-, f', hleaf⟩ | ⟨hge, -⟩
          · cases hleaf
          · omega
        · cases hk
      simp [hnone]
    | succ n hn ih =>
      intro hlt
      rcases treeOver_node_cases ht (List.getElem?_eq_getElem hlt) with ⟨hge, -⟩ | ⟨-, f, l, r, hx⟩
      · omega
      · rw [List.take_add_one, List.getElem?_eq_getElem hlt, hx, Option.toList_some, childrenOf_append, childrenOf_internal,
          List.range_succ, List.map_append, List.map_append, List.sum_append, List.sum_append, ← ih (by omega)]
        have := hw n f l r (by rw [List.getElem?_eq_getElem hlt, hx])
        simp only [List.map_cons, List.map_nil, List.sum_cons, List.sum_nil]
        omega
  have hall := hsplit nodes.length (by omega) (Nat.le_refl _)
  rw [List.take_length, (ht.onceEach.map w).sum_eq, ← hlast, List.range_succ, List.map_append, List.sum_append] at hall
  simpa using hall

/-- Codes that are the paths to the leaves fill the code space. -/
theorem treeOver_kraft {es out : List Entry} {nodes : List Node} {root : Nat} (ht : TreeOver es nodes root)
    (hcap : es.length ≤ 256) (hlen : out.length = es.length)
    (hpaths : ∀ i (hi : i < out.length), follow nodes root out[i].code = some i) : kraft out = 2 ^ 255 := by
  obtain ⟨path, hpath⟩ : ∃ path : Nat → Bits, ∀ m ≤ root, follow nodes root (path m) = some m := by
    choose! path hpath using fun m (hm : m ≤ root) => treeOver_reach ht hm
    exact ⟨path, hpath⟩
  have hsize := ht.size
  have hlast := ht.rootLast
  have hroot : path root = [] := treeOver_path_unique ht (hpath root (Nat.le_refl _)) rfl
  have hsum : kraft out = ((List.range es.length).map (fun m => 2 ^ (255 - (path m).length))).sum := by
    unfold kraft
    congr 1
    refine List.ext_getElem (by simpa using hlen) fun i hi _ => ?_
    simp only [List.length_map] at hi
    simp only [List.getElem_map, List.getElem_range]
    rw [treeOver_path_unique ht (hpaths i hi) (hpath i (by omega))]
  rw [hsum, treeOver_weights ht (fun m => 2 ^ (255 - (path m).length)), hroot]
  · rfl
  · intro k f l r hk
    have hklt := (List.getElem?_eq_some_iff.1 hk).1
    obtain ⟨hl, hr⟩ := treeOver_children_lt ht hk
    have hkpath := hpath k (by omega)
    have hdown : ∀ bit, follow nodes root (path k ++ [bit]) = some (if bit then r else l) := fun bit => by
      rw [follow_append, hkpath, Option.bind_some, follow_internal hk, follow_nil]
    have hpl : path l = path k ++ [false] := treeOver_path_unique ht (hpath l (by omega)) (hdown false)
    have hpr : path r = path k ++ [true] := treeOver_path_unique ht (hpath r (by omega)) (hdown true)
    have hdepth := treeOver_depth ht (hdown false)
    simp only [List.length_append, List.length_singleton] at hdepth
    simp only [hpl, hpr, List.length_append, List.length_singleton]
    rw [show 255 - (path k).length = 255 - ((path k).length + 1) + 1 by omega, Nat.pow_succ]
    omega

/-! ### The walk (R145) -/

/-- What the walk from a node does to each entry: the entry of a leaf below the node gets a path to the leaf, behind what TRAV
held; every other entry stays. -/
theorem walk_codes {es : List Entry} {nodes : List Node} {root k n : Nat} {b b' : Block} (ht : TreeOver es nodes root)
    (h : walk k n b = .ok b') (hnodes : b.nodes = nodes) (halpha : b.alpha.length = es.length) {i : Nat} {e : Entry}
    (he : b'.alpha[i]? = some e) :
    (∃ path, follow nodes n path = some i ∧ e.code = b.trav ++ path)
      ∨ (b.alpha[i]? = some e ∧ ∀ path, follow nodes n path ≠ some i) := by
  induction k generalizing n b b' e with
  | zero => cases h
  | succ k ih =>
    unfold walk at h
    split at h
    · cases h
    · rename_i f ent hn
      rw [hnodes] at hn
      obtain ⟨rfl, -⟩ := nodeOk_leaf.1 (ht.shape _ (List.mem_zipIdx_iff_getElem?.2 hn))
      obtain ⟨e0, he0, rfl⟩ := setCode_eq_ok h
      by_cases hi : ent = i
      · subst hi
        rw [List.getElem?_set_self (List.getElem?_eq_some_iff.1 he0).1] at he
        cases he
        exact .inl ⟨[], rfl, by simp⟩
      · rw [List.getElem?_set_ne hi] at he
        exact .inr ⟨he, fun path hpath => hi (follow_leaf hn hpath).2.symm⟩
    · rename_i f l r hn
      rw [hnodes] at hn
      split at h
      · cases h
      · rename_i b1 h1
        split at h
        · cases h
        · rename_i b2 h2
          cases h
          have hn1 : b1.nodes = nodes := (walk_nodes h1).trans hnodes
          have ha1 : b1.alpha.length = es.length := (walk_alpha_length h1).trans halpha
          have ht1 : b1.trav = b.trav ++ [false] := by rw [(walk_frame h1).1]; rfl
          rcases ih h2 hn1 ha1 he with ⟨path, hpath, hcode⟩ | ⟨he1, hright⟩
          · refine .inl ⟨true :: path, (follow_internal hn true path).trans hpath, ?_⟩
            simpa [ht1] using hcode
          · rcases ih h1 hnodes halpha he1 with ⟨path, hpath, hcode⟩ | ⟨he0, hleft⟩
            · refine .inl ⟨false :: path, (follow_internal hn false path).trans hpath, ?_⟩
              simpa using hcode
            · refine .inr ⟨he0, fun path hpath => ?_⟩
              match path with
              | [] =>
                cases hpath
                have hlt : i < es.length := halpha ▸ (List.getElem?_eq_some_iff.1 he0).1
                rcases treeOver_node_cases ht hn with ⟨-, f', hleaf⟩ | ⟨hge, -⟩
                · cases hleaf
                · omega
              | true :: path => exact hright path ((follow_internal hn true path).symm.trans hpath)
              | false :: path => exact hleft path ((follow_internal hn false path).symm.trans hpath)

/-! ### ASSIGN's codes -/

/-- The codes of ASSIGN write ALPHA only, and there the codes only (R145). -/
theorem assignCodes_frame {root : Nat} {b b' : Block} (h : assignCodes root b = .ok b') :
    b' = { b with alpha := b'.alpha }
      ∧ b'.alpha.map (fun e => (e.sym, e.freq)) = b.alpha.map (fun e => (e.sym, e.freq)) := by
  unfold assignCodes at h
  split at h
  · cases h
  · obtain ⟨e, he, rfl⟩ := setCode_eq_ok h
    obtain ⟨hlt, rfl⟩ := List.getElem?_eq_some_iff.1 he
    refine ⟨rfl, List.ext_getElem (by simp) fun i _ _ => ?_⟩
    simp only [List.getElem_map, List.getElem_set]
    split
    · subst_vars
      rfl
    · rfl
  · exact walk_frame h

/-- Over two entries or more every code is the path to the entry's leaf. -/
theorem assignCodes_paths {root : Nat} {b b' : Block} (ht : TreeOver b.alpha b.nodes root) (htrav : b.trav = [])
    (h : assignCodes root b = .ok b') (htwo : 2 ≤ b.alpha.length) {i : Nat} (hi : i < b'.alpha.length) :
    follow b.nodes root b'.alpha[i].code = some i := by
  have hsize := ht.size
  have hlast := ht.rootLast
  have hlen : b'.alpha.length = b.alpha.length := by simpa using congrArg List.length (assignCodes_frame h).2
  have hroot := List.getElem?_eq_getElem (show root < b.nodes.length by omega)
  rcases treeOver_node_cases ht hroot with ⟨hlt, -⟩ | ⟨-, f, l, r, hx⟩
  · omega
  · rw [hx] at hroot
    simp only [assignCodes, hroot] at h
    rcases walk_codes ht h rfl rfl (List.getElem?_eq_getElem hi) with ⟨path, hpath, hcode⟩ | ⟨-, hnone⟩
    · rw [hcode, htrav]
      exact hpath
    · obtain ⟨path, hpath⟩ := treeOver_reach ht (m := i) (by omega)
      exact absurd hpath (hnone path)

/-- A single entry gets the code "0" (R146). -/
theorem assignCodes_single {root : Nat} {b b' : Block} (ht : TreeOver b.alpha b.nodes root)
    (h : assignCodes root b = .ok b') (hone : b.alpha.length = 1) : ∀ e ∈ b'.alpha, e.code = [false] := by
  have hsize := ht.size
  have hlast := ht.rootLast
  obtain ⟨e0, halpha⟩ := List.length_eq_one_iff.1 hone
  have hroot := List.getElem?_eq_getElem (show root < b.nodes.length by omega)
  rcases treeOver_node_cases ht hroot with ⟨-, f, hx⟩ | ⟨hge, -⟩
  · rw [hx] at hroot
    simp only [assignCodes, hroot] at h
    obtain ⟨e, -, rfl⟩ := setCode_eq_ok h
    obtain rfl : root = 0 := by omega
    simp [halpha]
  · omega

/-- ASSIGN's codes are Huffman codes (R147). -/
theorem assignCodes_huffman {root : Nat} {b b' : Block} (ht : TreeOver b.alpha b.nodes root) (htrav : b.trav = [])
    (hcap : b.alpha.length ≤ 256) (h : assignCodes root b = .ok b') : HuffmanCodes b'.alpha := by
  have hsize := ht.size
  have hlast := ht.rootLast
  have hlen : b'.alpha.length = b.alpha.length := by simpa using congrArg List.length (assignCodes_frame h).2
  rcases Nat.lt_or_ge b.alpha.length 2 with hlt | htwo
  · have hone : b.alpha.length = 1 := by omega
    have hcode := assignCodes_single ht h hone
    obtain ⟨e, halpha⟩ := List.length_eq_one_iff.1 (hlen.trans hone)
    exact ⟨fun e he => by rw [hcode e he]; decide, fun _ => hcode, by rw [halpha]; exact List.pairwise_singleton _ _,
      fun htwo => absurd htwo (by omega)⟩
  · have hpaths : ∀ i (hi : i < b'.alpha.length), follow b.nodes root b'.alpha[i].code = some i :=
      fun i hi => assignCodes_paths ht htrav h htwo hi
    refine ⟨?_, fun hone => absurd hone (by omega), ?_, fun _ => treeOver_kraft ht hcap hlen hpaths⟩
    · intro e he
      obtain ⟨i, hi, rfl⟩ := List.getElem_of_mem he
      have hdepth := treeOver_depth ht (hpaths i hi)
      refine ⟨List.length_pos_iff.2 fun hnil => ?_, by omega⟩
      have hroot := hpaths i hi
      rw [hnil] at hroot
      cases hroot
      omega
    · refine List.pairwise_iff_getElem.2 fun i j hi hj hij => ⟨fun hpre => ?_, fun hpre => ?_⟩
      · have := treeOver_leaf_path_prefix ht (hlen ▸ hi) (hpaths i hi) (hpaths j hj) hpre
        omega
      · have := treeOver_leaf_path_prefix ht (hlen ▸ hj) (hpaths j hj) (hpaths i hi) hpre
        omega

end Sys2Proof.Machine
end

section
/-! SUPPORT. The alphabet from MKALPHA to DESER (41_frequency_alphabet.md, 43_canonical.md): its symbols are distinct, the sorts
put it in its orders, CANON's codes are the canonical numerals and none begins another, SERHDR's LUT names every entry, and what
PARSE and DESER take from a header is within its bounds. -/

namespace Sys2Proof.Machine

open Sys2Proof.Safety

/-! ### Distinct symbols (R122) -/

/-- The symbols counted are among the byte values, in index order. -/
theorem countedEntries_syms_sublist (ft : Vector Nat 256) :
    ((countedEntries ft).map Entry.sym).Sublist ((List.range 256).map (BitVec.ofNat 8)) := by
  have h : (ft.toList.zipIdx.filter (fun p => p.1 > 0)).map Prod.snd |>.Sublist (List.range 256) := by
    have := (List.filter_sublist (l := ft.toList.zipIdx) (p := fun p => p.1 > 0)).map Prod.snd
    rwa [List.zipIdx_map_snd, Vector.length_toList, ← List.range_eq_range'] at this
  simpa [countedEntries, Function.comp_def] using h.map (BitVec.ofNat 8)

theorem countedEntries_syms_nodup (ft : Vector Nat 256) : ((countedEntries ft).map Entry.sym).Nodup := by
  refine (countedEntries_syms_sublist ft).nodup (List.nodup_range.map_on fun x hx y hy h => ?_)
  have hxy := congrArg BitVec.toNat h
  rw [List.mem_range] at hx hy
  simpa [Nat.mod_eq_of_lt hx, Nat.mod_eq_of_lt hy] using hxy

theorem countedEntries_length_le (ft : Vector Nat 256) : (countedEntries ft).length ≤ 256 := by
  simpa using (countedEntries_syms_sublist ft).length_le

/-- The alphabet of a frequency table has distinct symbols. -/
theorem counts_syms_nodup {ft : Vector Nat 256} {es : List Entry} (h : Counts ft es) : (es.map Entry.sym).Nodup := by
  have hperm : (es.map Entry.sym).Perm ((countedEntries ft).map Entry.sym) := by
    simpa [Function.comp_def] using h.map Prod.fst
  exact hperm.nodup_iff.2 (countedEntries_syms_nodup ft)

theorem syms_pairwise_ne {es : List Entry} (h : (es.map Entry.sym).Nodup) :
    es.Pairwise (fun x y => x.sym.toNat ≠ y.sym.toNat) :=
  (List.pairwise_map.1 h).imp fun hne heq => hne (BitVec.eq_of_toNat_eq heq)

/-! ### The two orders (10_state.md rule R25) -/

/-- The sort of MKALPHA puts the entries in order (a). -/
theorem insertionSort_orderA_pairwise (es : List Entry) : (es.insertionSort orderA).Pairwise orderA := by
  have : Std.Total orderA := ⟨fun x y => by simp only [orderA]; omega⟩
  have : IsTrans Entry orderA := ⟨fun x y z => by simp only [orderA]; omega⟩
  exact List.pairwise_insertionSort orderA es

/-- Order (b) is one of symbols and code lengths only. -/
theorem pairwise_orderB_of_map_eq {es out : List Entry}
    (h : out.map (fun e => (e.sym, e.freq, e.code.length)) = es.map (fun e => (e.sym, e.freq, e.code.length)))
    (hes : es.Pairwise orderB) : out.Pairwise orderB :=
  (List.pairwise_map (f := fun e : Entry => (e.sym, e.freq, e.code.length))
    (R := fun x y => x.2.2 < y.2.2 ∨ (x.2.2 = y.2.2 ∧ x.1.toNat ≤ y.1.toNat))).1 (h ▸ List.pairwise_map.2 hes)

/-- Order (a) is one of symbols and frequencies only. -/
theorem pairwise_ltA_of_map_eq {es out : List Entry}
    (h : out.map (fun e => (e.sym, e.freq)) = es.map (fun e => (e.sym, e.freq))) (hes : es.Pairwise ltA) :
    out.Pairwise ltA :=
  (List.pairwise_map (f := fun e : Entry => (e.sym, e.freq))
    (R := fun x y => x.2 < y.2 ∨ (x.2 = y.2 ∧ x.1.toNat < y.1.toNat))).1 (h ▸ List.pairwise_map.2 hes)

/-- With distinct symbols order (a) is strict. -/
theorem ltA_of_orderA {es : List Entry} (h : es.Pairwise orderA) (hnd : (es.map Entry.sym).Nodup) : es.Pairwise ltA :=
  (h.and (syms_pairwise_ne hnd)).imp fun ⟨hle, hne⟩ => by simp only [orderA] at hle; simp only [ltA]; omega

/-- With distinct symbols order (b) is strict. -/
theorem ltB_of_orderB {es : List Entry} (h : es.Pairwise orderB) (hnd : (es.map Entry.sym).Nodup) : es.Pairwise ltB :=
  (h.and (syms_pairwise_ne hnd)).imp fun ⟨hle, hne⟩ => by simp only [orderB] at hle; simp only [ltB]; omega

/-! ### Canonical values (43_canonical.md rule R163) -/

@[simp] theorem canonicalValue_zero (es : List Entry) (len : Nat) : canonicalValue es 0 len = 0 := rfl

theorem canonicalValue_cons (e : Entry) (es : List Entry) (i len : Nat) :
    canonicalValue (e :: es) (i + 1) len = 2 ^ (len - e.code.length) + canonicalValue es i len := by
  simp [canonicalValue]

theorem canonicalValue_succ {es : List Entry} {i : Nat} (hi : i < es.length) (len : Nat) :
    canonicalValue es (i + 1) len = canonicalValue es i len + 2 ^ (len - es[i].code.length) := by
  rw [canonicalValue, List.take_add_one, List.getElem?_eq_getElem hi, Option.toList_some, List.map_append, List.sum_append,
    List.map_singleton, List.sum_singleton, canonicalValue]

theorem canonicalValue_mono {es : List Entry} {i j : Nat} (hij : i ≤ j) (len : Nat) :
    canonicalValue es i len ≤ canonicalValue es j len :=
  ((List.take_sublist_take_left hij).map _).sum_le_sum fun _ _ => Nat.zero_le _

/-- A longer code's numeral starts with the counter shifted by the length step. -/
theorem canonicalValue_shift {es : List Entry} {i len len' : Nat} (h : ∀ x ∈ es.take i, x.code.length ≤ len)
    (hle : len ≤ len') : canonicalValue es i len' = canonicalValue es i len * 2 ^ (len' - len) := by
  unfold canonicalValue
  rw [← List.sum_map_mul_right]
  congr 1
  refine List.map_congr_left fun x hx => ?_
  have := h x hx
  rw [← Nat.pow_add]
  congr 1
  omega

/-- Just after an entry the counter is past its numeral, at every later length. -/
theorem canonicalValue_step {es : List Entry} (hsorted : es.Pairwise (fun x y => x.code.length ≤ y.code.length)) {i j : Nat}
    (hij : i < j) (hj : j < es.length) :
    (canonicalValue es i es[i].code.length + 1) * 2 ^ (es[j].code.length - es[i].code.length)
      ≤ canonicalValue es j es[j].code.length := by
  have hle := List.pairwise_iff_getElem.1 hsorted
  have htake : ∀ x ∈ es.take (i + 1), x.code.length ≤ es[i].code.length := by
    intro x hx
    obtain ⟨a, ha, rfl⟩ := List.getElem_of_mem hx
    rw [List.length_take] at ha
    rw [List.getElem_take]
    rcases Nat.eq_or_lt_of_le (show a ≤ i by omega) with rfl | hlt
    · exact Nat.le_refl _
    · exact hle a i (by omega) (by omega) hlt
  calc (canonicalValue es i es[i].code.length + 1) * 2 ^ (es[j].code.length - es[i].code.length)
      = canonicalValue es (i + 1) es[i].code.length * 2 ^ (es[j].code.length - es[i].code.length) := by
        rw [canonicalValue_succ (show i < es.length by omega), Nat.sub_self, Nat.pow_zero]
    _ = canonicalValue es (i + 1) es[j].code.length := (canonicalValue_shift htake (hle i j (by omega) hj hij)).symm
    _ ≤ canonicalValue es j es[j].code.length := canonicalValue_mono hij _

/-- The first digits of a numeral. -/
theorem bitsOf_take {v a b : Nat} (h : a ≤ b) : (bitsOf v b).take a = bitsOf (v / 2 ^ (b - a)) a := by
  refine List.ext_getElem (by simp [h]) fun i hi _ => ?_
  simp only [List.length_take, bitsOf_length] at hi
  rw [List.getElem_take, bitsOf_getElem, bitsOf_getElem, ← Nat.shiftRight_eq_div_pow, Nat.testBit_shiftRight]
  congr 1
  omega

/-- Of canonical numerals that fit their lengths none begins another (R163). -/
theorem prefixFree_of_numbered {es : List Entry} (hsorted : es.Pairwise (fun x y => x.code.length ≤ y.code.length))
    (hnum : CanonicallyNumbered es)
    (hfit : ∀ i (hi : i < es.length), canonicalValue es i es[i].code.length < 2 ^ es[i].code.length) : PrefixFree es := by
  have hcode : ∀ i (hi : i < es.length), es[i].code = bitsOf (canonicalValue es i es[i].code.length) es[i].code.length :=
    fun i hi => hnum (es[i], i) (List.mem_zipIdx_iff_getElem?.2 (List.getElem?_eq_getElem hi))
  refine List.pairwise_iff_getElem.2 fun i j hi hj hij => ?_
  have hle := List.pairwise_iff_getElem.1 hsorted i j hi hj hij
  have hnot : ¬ es[i].code <+: es[j].code := by
    intro hpre
    have htake := List.prefix_iff_eq_take.1 hpre
    have hquot : canonicalValue es j es[j].code.length / 2 ^ (es[j].code.length - es[i].code.length)
        < 2 ^ es[i].code.length := by
      refine Nat.div_lt_of_lt_mul ?_
      rw [← Nat.pow_add, Nat.sub_add_cancel hle]
      exact hfit j hj
    have hval : canonicalValue es i es[i].code.length
        = canonicalValue es j es[j].code.length / 2 ^ (es[j].code.length - es[i].code.length) := by
      refine bitsOf_inj (hfit i hi) hquot ?_
      rw [← hcode i hi, ← bitsOf_take hle, ← hcode j hj]
      exact htake
    have hstep := (Nat.le_div_iff_mul_le (Nat.two_pow_pos _)).2 (canonicalValue_step hsorted hij hj)
    omega
  refine ⟨hnot, fun hpre => hnot ?_⟩
  rw [hpre.eq_of_length_le hle]

/-! ### CANON (R161, R162) -/

/-- The inversion of one round of the numbering, for an entry whose code is no shorter than the running length. -/
theorem canonAssign_cons_inv {c len : Nat} {e : Entry} {es out : List Entry} (hlen : len ≤ e.code.length)
    (h : canonAssign c len (e :: es) = .ok out) :
    c * 2 ^ (e.code.length - len) < 2 ^ e.code.length
      ∧ ∃ rest, canonAssign (c * 2 ^ (e.code.length - len) + 1) e.code.length es = .ok rest
        ∧ out = { e with code := bitsOf (c * 2 ^ (e.code.length - len)) e.code.length } :: rest := by
  have hc : (if e.code.length > len then c <<< (e.code.length - len) else c) = c * 2 ^ (e.code.length - len) := by
    split
    · exact Nat.shiftLeft_eq _ _
    · simp [show e.code.length - len = 0 by omega]
  have hl : (if e.code.length > len then e.code.length else len) = e.code.length := by
    split <;> omega
  simp only [canonAssign, hc, hl] at h
  split at h
  · cases h
  · rename_i code hcode
    obtain ⟨hfit, rfl⟩ := checkedBitsOf_eq_ok hcode
    split at h
    · cases h
    · cases h
      exact ⟨hfit, _, ‹_›, rfl⟩

/-- Numbering keeps every entry's symbol, frequency and code length. -/
theorem canonAssign_keeps {c len : Nat} {es out : List Entry} (h : canonAssign c len es = .ok out)
    (hlen : ∀ e ∈ es, len ≤ e.code.length) (hsorted : es.Pairwise (fun x y => x.code.length ≤ y.code.length)) :
    out.map (fun e => (e.sym, e.freq, e.code.length)) = es.map (fun e => (e.sym, e.freq, e.code.length)) := by
  induction es generalizing c len out with
  | nil => cases h; rfl
  | cons e es ih =>
    obtain ⟨hnext, hrest⟩ := List.pairwise_cons.1 hsorted
    obtain ⟨-, rest, hr, rfl⟩ := canonAssign_cons_inv (hlen e List.mem_cons_self) h
    simp [ih hr hnext hrest]

/-- Each code is the counter it started from, shifted to the code's length, and one for every earlier entry; it fits its
length. -/
theorem canonAssign_numbers {c len : Nat} {es out : List Entry} (h : canonAssign c len es = .ok out)
    (hlen : ∀ e ∈ es, len ≤ e.code.length) (hsorted : es.Pairwise (fun x y => x.code.length ≤ y.code.length))
    {i : Nat} {x : Entry} (hx : out[i]? = some x) :
    x.code = bitsOf (c * 2 ^ (x.code.length - len) + canonicalValue out i x.code.length) x.code.length
      ∧ c * 2 ^ (x.code.length - len) + canonicalValue out i x.code.length < 2 ^ x.code.length := by
  induction es generalizing c len out i with
  | nil => cases h; cases hx
  | cons e es ih =>
    obtain ⟨hnext, hrest⟩ := List.pairwise_cons.1 hsorted
    have he := hlen e List.mem_cons_self
    obtain ⟨hfit, rest, hr, rfl⟩ := canonAssign_cons_inv he h
    match i with
    | 0 =>
      cases hx
      simpa using hfit
    | i + 1 =>
      rw [List.getElem?_cons_succ] at hx
      have hxlen : e.code.length ≤ x.code.length := by
        have hmem : x.code.length ∈ rest.map (fun e => e.code.length) := List.mem_map_of_mem (List.mem_of_getElem? hx)
        rw [canonAssign_lengths hr hnext hrest] at hmem
        obtain ⟨y, hy, hxy⟩ := List.mem_map.1 hmem
        exact hxy ▸ hnext y hy
      have hshift : c * 2 ^ (x.code.length - len)
          = c * 2 ^ (e.code.length - len) * 2 ^ (x.code.length - e.code.length) := by
        rw [Nat.mul_assoc, ← Nat.pow_add]
        congr 2
        omega
      have hval : c * 2 ^ (x.code.length - len)
            + canonicalValue ({ e with code := bitsOf (c * 2 ^ (e.code.length - len)) e.code.length } :: rest) (i + 1)
                x.code.length
          = (c * 2 ^ (e.code.length - len) + 1) * 2 ^ (x.code.length - e.code.length)
            + canonicalValue rest i x.code.length := by
        rw [canonicalValue_cons, hshift, bitsOf_length, Nat.succ_mul, Nat.add_assoc]
      rw [hval]
      exact ih hr hnext hrest hx

/-- The shortest length comes first. -/
theorem headD_length_le {es : List Entry} (hsorted : es.Pairwise (fun x y => x.code.length ≤ y.code.length)) :
    ∀ e ∈ es, (es.headD ⟨0, 0, []⟩).code.length ≤ e.code.length := by
  match es with
  | [] => simp
  | e :: es =>
    intro x hx
    rcases List.mem_cons.1 hx with rfl | hx
    · exact Nat.le_refl _
    · exact (List.pairwise_cons.1 hsorted).1 x hx

/-- Everything CANON's numbering does to a list ascending by code length (R163). -/
theorem canonical_spec {es out : List Entry} (h : canonical es = .ok out)
    (hsorted : es.Pairwise (fun x y => x.code.length ≤ y.code.length)) :
    out.map (fun e => (e.sym, e.freq, e.code.length)) = es.map (fun e => (e.sym, e.freq, e.code.length))
      ∧ CanonicallyNumbered out ∧ PrefixFree out := by
  have hhead := headD_length_le hsorted
  have hkeep := canonAssign_keeps h hhead hsorted
  have hout : out.Pairwise (fun x y => x.code.length ≤ y.code.length) := by
    have hlen := canonAssign_lengths h hhead hsorted
    exact List.pairwise_map.1 (hlen ▸ List.pairwise_map.2 hsorted : (out.map (fun e => e.code.length)).Pairwise (· ≤ ·))
  have hnum : CanonicallyNumbered out := by
    rintro ⟨x, i⟩ hp
    simpa using (canonAssign_numbers h hhead hsorted (List.mem_zipIdx_iff_getElem?.1 hp)).1
  refine ⟨hkeep, hnum, prefixFree_of_numbered hout hnum fun i hi => ?_⟩
  simpa using (canonAssign_numbers h hhead hsorted (List.getElem?_eq_getElem hi)).2

/-- CANON keeps the entries with their frequencies and code lengths, puts them in order (b), and their new codes are canonical
and Huffman codes again (R162, R163). -/
theorem canonical_of_huffman {es out : List Entry} (h : canonical (es.insertionSort orderB) = .ok out)
    (hnd : (es.map Entry.sym).Nodup) (hh : HuffmanCodes es) :
    (out.map (fun e => (e.sym, e.freq, e.code.length))).Perm (es.map (fun e => (e.sym, e.freq, e.code.length)))
      ∧ out.Pairwise ltB ∧ CanonicallyNumbered out ∧ HuffmanCodes out := by
  have horder := insertionSort_orderB_pairwise es
  obtain ⟨hkeep, hnum, hfree⟩ := canonical_spec h (horder.imp fun hxy => by simp only [orderB] at hxy; omega)
  have hperm : (out.map (fun e => (e.sym, e.freq, e.code.length))).Perm
      (es.map (fun e => (e.sym, e.freq, e.code.length))) := by
    rw [hkeep]
    exact (List.perm_insertionSort orderB es).map _
  have hsyms : (out.map Entry.sym).Nodup := by
    have : (out.map Entry.sym).Perm (es.map Entry.sym) := by simpa [Function.comp_def] using hperm.map Prod.fst
    exact this.nodup_iff.2 hnd
  have hlens : (out.map (fun e => e.code.length)).Perm (es.map (fun e => e.code.length)) := by
    simpa [Function.comp_def] using hperm.map (fun p => p.2.2)
  have hcount : out.length = es.length := by simpa using hlens.length_eq
  have hout : out.Pairwise orderB := pairwise_orderB_of_map_eq hkeep horder
  have hlength : ∀ e ∈ out, 1 ≤ e.code.length ∧ e.code.length ≤ 255 := by
    intro e he
    obtain ⟨x, hx, hxe⟩ := List.mem_map.1 (hlens.subset (List.mem_map_of_mem he))
    exact hxe ▸ hh.lengths x hx
  refine ⟨hperm, ltB_of_orderB hout hsyms, hnum, hlength, fun hone e he => ?_, hfree, fun htwo => ?_⟩
  · obtain ⟨x, rfl⟩ := List.length_eq_one_iff.1 (hcount ▸ hone)
    obtain ⟨y, rfl⟩ := List.length_eq_one_iff.1 hone
    obtain rfl := List.mem_singleton.1 he
    have hx : x.code = [false] := hh.single rfl x (by simp)
    have hlen : e.code.length = 1 := by simpa [hx] using hlens
    have hcode := hnum (e, 0) (by simp)
    rw [hlen, canonicalValue_zero] at hcode
    exact hcode.trans (by decide)
  · have hkraft : kraft out = kraft es := by
      have := (hlens.map (fun len => 2 ^ (255 - len))).sum_eq
      simpa [kraft, Function.comp_def] using this
    rw [hkraft]
    exact hh.complete (hcount ▸ htwo)

/-! ### SERHDR (R164) -/

/-- With distinct symbols LUT holds the index of every entry at its symbol (10_state.md rule R30). -/
theorem lutOf_some {es : List Entry} (hnd : (es.map Entry.sym).Nodup) {p : Entry × Nat} (hp : p ∈ es.zipIdx) :
    (lutOf es)[p.1.sym.toNat]'p.1.sym.isLt = some p.2 := by
  have hsyms : (es.zipIdx.map (fun q => q.1.sym)).Nodup := by
    rwa [← List.zipIdx_map_fst 0 es, List.map_map] at hnd
  obtain ⟨pre, post, hsplit⟩ := List.append_of_mem hp
  rw [hsplit, List.map_append, List.map_cons] at hsyms
  have hpost : ∀ q ∈ post, q.1.sym ≠ p.1.sym := fun q hq heq =>
    (List.nodup_cons.1 (List.nodup_append.1 hsyms).2.1).1 (heq ▸ List.mem_map_of_mem hq)
  rw [lutOf, hsplit, List.foldl_append, List.foldl_cons, lutOf_foldl _ _ _ hpost]
  simp

/-! ### PARSE (R166) -/

/-- The sizes PARSE takes are within the widths of 10_state.md rule R34, and the second is what the count bytes declare. -/
theorem parseSizes_bounds {hdr pay : Bits} {mb n : Nat} (h : parseSizes hdr pay = .ok (mb, n))
    (hcap : hdr.length ≤ Config.hdrCapBits) : mb ≤ 255 ∧ n ≤ 509 ∧ n = declaredSymbols hdr mb := by
  rcases parseSizes_cases hdr pay with ⟨-, -, e⟩ | ⟨-, hlen, e⟩ | ⟨e, -⟩ <;> rw [e] at h <;> cases h
  · exact ⟨by omega, by omega, rfl⟩
  · have hmb := (byteView hdr 0).isLt
    have hcount : declaredSymbols hdr (byteView hdr 0).toNat ≤ (byteView hdr 0).toNat * 255 := by
      have := List.sum_le_card_nsmul ((List.range (byteView hdr 0).toNat).map (fun k => (byteView hdr (k + 1)).toNat)) 255
        (by simp only [List.mem_map]; rintro _ ⟨k, -, rfl⟩; have := (byteView hdr (k + 1)).isLt; omega)
      simpa [declaredSymbols] using this
    simp only [Config.hdrCapBits] at hcap
    exact ⟨by omega, by omega, rfl⟩

/-! ### DESER (R167) -/

/-- The inversion of one round of the outer loop. -/
theorem deserBuckets_succ_inv {hdr : Bits} {m k c p : Nat} {es : List Entry} (h : deserBuckets hdr (m + 1) k c p = .ok es) :
    ∃ fst rest, deserBucket hdr k (byteView hdr k).toNat c p = .ok fst
      ∧ deserBuckets hdr m (k + 1) ((c + (byteView hdr k).toNat) <<< 1) (p + (byteView hdr k).toNat) = .ok rest
      ∧ es = fst ++ rest := by
  simp only [deserBuckets] at h
  split at h
  · cases h
  · rename_i cnt hcnt
    obtain ⟨-, rfl⟩ := checkedByte_eq_ok hcnt
    split at h
    · cases h
    · split at h
      · cases h
      · cases h
        exact ⟨_, _, ‹_›, ‹_›, rfl⟩

/-- Rebuilt entries have frequency 0. -/
theorem deserBuckets_freq {hdr : Bits} {m k c p : Nat} {es : List Entry} (h : deserBuckets hdr m k c p = .ok es) :
    ∀ e ∈ es, e.freq = 0 := by
  induction m generalizing k c p es with
  | zero => cases h; simp
  | succ m ih =>
    obtain ⟨fst, rest, hf, hr, rfl⟩ := deserBuckets_succ_inv h
    intro e he
    rcases List.mem_append.1 he with he | he
    · rw [(deserBucket_ok hf).1, List.mem_map] at he
      obtain ⟨i, -, rfl⟩ := he
      rfl
    · exact ih hr e he

/-- No rebuilt code is longer than maxBits. -/
theorem deser_length_le {hdr : Bits} {mb : Nat} {es : List Entry} (h : deserBuckets hdr mb 1 0 (1 + mb) = .ok es) :
    ∀ e ∈ es, e.code.length ≤ mb := by
  intro e he
  have hmem : e.code.length ∈ es.map (fun e => e.code.length) := List.mem_map_of_mem he
  rw [(deser_entry h).1, declaredLengths, List.mem_flatMap] at hmem
  obtain ⟨k, hk, hlen⟩ := hmem
  have := List.mem_range.1 hk
  have := List.eq_of_mem_replicate hlen
  omega

/-- There are as many rebuilt entries as the count bytes declare. -/
theorem deser_length {hdr : Bits} {mb : Nat} {es : List Entry} (h : deserBuckets hdr mb 1 0 (1 + mb) = .ok es) :
    es.length = declaredSymbols hdr mb := by
  rw [deserBuckets_length h, declaredSymbols_eq_declaredFrom, declaredFrom]

end Sys2Proof.Machine
end

section
/-! SUPPORT. The invariant in parts (10_state.md rule R39): the clauses that hold in every phase, what a phase holds clear, and what
the encode and the decode pipeline guarantee for their next command. -/

namespace Sys2Proof.Machine

open Sys2Proof.Safety

/-! ### The parts of the invariant -/

/-- The clauses of the invariant that hold in every phase: capacities, widths, and what is empty between commands. -/
structure BoundClauses (s : State) : Prop where
  cfgWf : s.cfg.wf = true
  counters : ∀ n ∈ s.blk.ft.toList, n < 2 ^ s.cfg.freqW
  hdrFits : s.blk.hdr.length ≤ Config.hdrCapBits
  payFits : s.blk.pay.length ≤ s.cfg.payCapBits
  outFits : s.blk.out.length ≤ 8 * s.cfg.outCapBytes
  outBytes : s.blk.out.length % 8 = 0
  heapEmpty : s.blk.heap = []
  travEmpty : s.blk.trav = []
  alphaFits : s.blk.alpha.length ≤ Config.alphaCap
  freqFits : ∀ e ∈ s.blk.alpha, e.freq < 2 ^ s.cfg.freqW
  codeFits : ∀ e ∈ s.blk.alpha, e.code.length ≤ Config.maxLen
  maxbitsFits : s.blk.hdrMaxbits ≤ 255
  hdrNFits : s.blk.hdrN ≤ 509
  nodeFits : ∀ n ∈ s.blk.nodes, n.freq < 2 ^ s.cfg.nodeW

/-- The clauses that say what a phase holds clear, and when there is a tree. A clause whose phase the state is not in needs no
proof. -/
structure ClearClauses (s : State) : Prop where
  noAlpha : encodePhase s.blk.phase = false → rebuiltPhase s.blk.phase = false → s.blk.alpha = [] := by nofun
  doneClear : s.blk.phase = .done → s.blk.ft = Vector.replicate 256 0 := by nofun
  noTree : s.blk.phase ≠ .treeBuilt → s.blk.nodes = [] ∧ s.blk.root = none
  tree : s.blk.phase = .treeBuilt → ∃ r ∈ s.blk.root, TreeOver s.blk.alpha s.blk.nodes r := by nofun
  noLut : serializedPhase s.blk.phase = false → s.blk.lut = Vector.replicate 256 none := by nofun
  noDt : lookupPhase s.blk.phase = false → s.blk.dt = [] := by nofun
  notParsed : decodePhase s.blk.phase = false → s.blk.hdrMaxbits = 0 ∧ s.blk.hdrN = 0 := by nofun

/-- The clauses about the encode pipeline. A clause whose phase the state is not in needs no proof. -/
structure EncodeClauses (s : State) : Prop where
  lutSet : serializedPhase s.blk.phase = true → ∀ p ∈ s.blk.alpha.zipIdx, s.blk.lookup p.1.sym = some p.2 := by nofun
  lutOnly : serializedPhase s.blk.phase = true →
    ∀ v : Byte, s.blk.lookup v = none ∨ ∃ e ∈ s.blk.alpha, e.sym = v := by nofun
  counted : encodePhase s.blk.phase = true → Counts s.blk.ft s.blk.alpha := by nofun
  someSymbol : encodePhase s.blk.phase = true → s.blk.phase ≠ .alphabetBuilt → s.blk.alpha ≠ []
  sortedA : encodePhase s.blk.phase = true → canonicalPhase s.blk.phase = false → s.blk.alpha.Pairwise ltA := by nofun
  sortedB : canonicalPhase s.blk.phase = true → s.blk.alpha.Pairwise ltB := by nofun
  noCodes : encodePhase s.blk.phase = true → codedPhase s.blk.phase = false → ∀ e ∈ s.blk.alpha, e.code = [] := by nofun
  huffman : codedPhase s.blk.phase = true → HuffmanCodes s.blk.alpha := by nofun
  numbered : canonicalPhase s.blk.phase = true → CanonicallyNumbered s.blk.alpha := by nofun
  header : serializedPhase s.blk.phase = true → s.blk.hdr = bitsOfBytes (headerBytes s.blk.alpha) := by nofun
  countsFit : serializedPhase s.blk.phase = true →
    ∀ k ∈ List.range (maxBitsOf s.blk.alpha), countLen s.blk.alpha (k + 1) ≤ 255 := by nofun

/-- The clauses about the decode pipeline. A clause whose phase the state is not in needs no proof. -/
structure DecodeClauses (s : State) : Prop where
  dtSet : lookupPhase s.blk.phase = true → s.blk.dt = dtOf s.blk.alpha ∧ s.blk.hdrMaxbits ≤ s.cfg.decMaxbits := by nofun
  parsed : decodePhase s.blk.phase = true →
    parseSizes s.blk.hdr s.blk.pay = .ok (s.blk.hdrMaxbits, s.blk.hdrN) := by nofun
  rebuilt : rebuiltPhase s.blk.phase = true →
    deserBuckets s.blk.hdr s.blk.hdrMaxbits 1 0 (1 + s.blk.hdrMaxbits) = .ok s.blk.alpha := by nofun
  rebuiltSize : rebuiltPhase s.blk.phase = true → s.blk.alpha.length = s.blk.hdrN := by nofun
  rebuiltLengths : rebuiltPhase s.blk.phase = true →
    s.blk.alpha.Pairwise (fun x y => x.code.length ≤ y.code.length) := by nofun
  rebuiltOrderB : rebuiltPhase s.blk.phase = true → SymbolsOrdered (· ≤ ·) s.blk.hdr s.blk.hdrMaxbits →
    s.blk.alpha.Pairwise orderB := by nofun
  rebuiltSortedB : rebuiltPhase s.blk.phase = true → SymbolsOrdered (· < ·) s.blk.hdr s.blk.hdrMaxbits →
    s.blk.alpha.Pairwise ltB := by nofun

/-- The invariant is its four parts. -/
theorem inv_iff (s : State) : Inv s ↔ BoundClauses s ∧ ClearClauses s ∧ EncodeClauses s ∧ DecodeClauses s :=
  ⟨fun h => ⟨{ h with }, { h with }, { h with }, { h with }⟩, fun ⟨hb, hc, he, hd⟩ => { hb, hc, he, hd with }⟩

/-- The phases from ASSIGN on are encode phases. -/
theorem not_coded_of_not_encode {p : Phase} (h : encodePhase p = false) :
    codedPhase p = false ∧ canonicalPhase p = false ∧ serializedPhase p = false := by
  cases p <;> cases h <;> exact ⟨rfl, rfl, rfl⟩

/-- The phases from DESER on are decode phases. -/
theorem not_rebuilt_of_not_decode {p : Phase} (h : decodePhase p = false) :
    rebuiltPhase p = false ∧ lookupPhase p = false := by
  cases p <;> cases h <;> exact ⟨rfl, rfl⟩

/-- Outside the encode pipeline its clauses say nothing. -/
theorem encodeClauses_of_not_encode {s : State} (h : encodePhase s.blk.phase = false) : EncodeClauses s := by
  obtain ⟨hcoded, hcanonical, hserialized⟩ := not_coded_of_not_encode h
  constructor <;> simp [h, hcoded, hcanonical, hserialized]

/-- Outside the decode pipeline its clauses say nothing. -/
theorem decodeClauses_of_not_decode {s : State} (h : decodePhase s.blk.phase = false) : DecodeClauses s := by
  obtain ⟨hrebuilt, hlookup⟩ := not_rebuilt_of_not_decode h
  constructor <;> simp [h, hrebuilt, hlookup]

/-- The invariant of a state whose phase is known, with the phase written out. -/
theorem inv_at_phase {s : State} {p : Phase} (h : Inv s) (hp : s.blk.phase = p) :
    Inv { s with blk := { s.blk with phase := p } } := by
  subst hp
  exact h

/-! ### What ends a command keeps the invariant -/

/-- A fault changes nothing that the invariant speaks of (60_exceptions.md rule R225). -/
theorem inv_faulted {s : State} (h : Inv s) (f : Status) : Inv (faulted s f) := { h with }

/-- A state with no pipeline at work, all transient state clear and buffers within their capacities meets the invariant: the block
after reset, INIT, ABORT and FINISH. -/
theorem inv_cleared {s : State} {b : Block} {p : Phase} (hcfg : s.cfg.wf = true) (hhdr : b.hdr.length ≤ Config.hdrCapBits)
    (hpay : b.pay.length ≤ s.cfg.payCapBits) (hout : b.out.length ≤ 8 * s.cfg.outCapBytes) (hbytes : b.out.length % 8 = 0)
    (hp : p = .idle ∨ p = .done) : Inv { s with blk := { b.clearTransient with phase := p } } := by
  have hcounters : ∀ n ∈ (Vector.replicate 256 0).toList, n < 2 ^ s.cfg.freqW := by
    simp only [Vector.toList_replicate, List.mem_replicate]
    rintro n ⟨-, rfl⟩
    exact Nat.two_pow_pos _
  refine (inv_iff _).2 ⟨?_, ?_, encodeClauses_of_not_encode ?_, decodeClauses_of_not_decode ?_⟩
  · exact {
      cfgWf := hcfg, counters := hcounters, hdrFits := hhdr, payFits := hpay, outFits := hout, outBytes := hbytes
      heapEmpty := rfl, travEmpty := rfl, alphaFits := Nat.zero_le _, freqFits := nofun, codeFits := nofun
      maxbitsFits := Nat.zero_le _, hdrNFits := Nat.zero_le _, nodeFits := nofun }
  · exact {
      noAlpha := fun _ _ => rfl, doneClear := fun _ => rfl, noTree := fun _ => ⟨rfl, rfl⟩
      tree := fun h => by rcases hp with rfl | rfl <;> cases h
      noLut := fun _ => rfl, noDt := fun _ => rfl, notParsed := fun _ => ⟨rfl, rfl⟩ }
  · rcases hp with rfl | rfl <;> rfl
  · rcases hp with rfl | rfl <;> rfl

/-- What holds of the block a rule answers with, if it answers. -/
def Answers (P : Block → Prop) (r : Result) : Prop := ∀ d b, r = finishOk d b → P b

@[simp] theorem answers_finishOk (P : Block → Prop) (d : Nat) (b : Block) : Answers P (finishOk d b) ↔ P b := by
  simp [Answers]

@[simp] theorem answers_raise (P : Block → Prop) (f : Status) : Answers P (raise f) := by simp [Answers]

@[simp] theorem answers_error (P : Block → Prop) (e : Stop) : Answers P (.error e) := fun _ _ h => nomatch h

@[simp] theorem answers_stuck (P : Block → Prop) (x : Fault) : Answers P (stuck x) := answers_error P _

@[simp] theorem answers_ite (P : Block → Prop) (p : Prop) [Decidable p] (r q : Result) :
    Answers P (if p then r else q) ↔ (p → Answers P r) ∧ (¬ p → Answers P q) := by
  by_cases h : p <;> simp [h]

/-- Everything a command leads to: the block its rule answers with, or the fault it raises. -/
theorem conclude_answered_or_faulted {s t : State} {r : Result} {P : Block → Prop} (hr : Answers P r)
    (ht : s.conclude r = .next t) : (∃ d b, t = answered s d b ∧ P b) ∨ ∃ f, t = faulted s f := by
  rcases conclude_next ht with ⟨d, b, hres, rfl⟩ | ⟨f, -, rfl⟩
  · exact .inl ⟨_, b, rfl, hr d b hres⟩
  · exact .inr ⟨f, rfl⟩

/-- A command whose rule keeps the invariant leads to a state that meets it. -/
theorem inv_of_conclude {s t : State} {r : Result} (h : Inv s) (hr : Answers (fun b => Inv { s with blk := b }) r)
    (ht : s.conclude r = .next t) : Inv t := by
  rcases conclude_answered_or_faulted hr ht with ⟨d, b, rfl, hb⟩ | ⟨f, rfl⟩
  · exact inv_of_same_block hb rfl rfl
  · exact inv_faulted h f

end Sys2Proof.Machine
end

section
/-! SUPPORT. Every command keeps the invariant, one lemma per command that changes the block, and from them that every step does. -/

namespace Sys2Proof.Machine

open Sys2Proof.Safety

/-! ### Buffers, counters and the system commands -/

/-- Writing HDR or PAY in Idle, within the capacity (40_bitbuffer.md rules R101 to R103, R110). -/
theorem inv_setBuffer {s : State} (h : Inv s) (hp : s.blk.phase = .idle) {buf : Buf} (hw : buf.hostWritable ≠ false)
    {m : Bits} (hm : m.length ≤ capacity s.cfg buf) : Inv { s with blk := s.blk.setBuffer buf m } := by
  obtain ⟨hb, hc, -, -⟩ := (inv_iff s).1 h
  refine (inv_iff _).2 ⟨?_, ?_, encodeClauses_of_not_encode ?_, decodeClauses_of_not_decode ?_⟩
  · match buf with
    | .hdr => exact { hb with hdrFits := hm }
    | .pay => exact { hb with payFits := hm }
    | .out => exact absurd rfl hw
  · match buf with
    | .hdr | .pay | .out => exact { hc with }
  · rw [setBuffer_phase, hp]; rfl
  · rw [setBuffer_phase, hp]; rfl

theorem execBapp_keeps_inv {s : State} (h : Inv s) (buf : Buf) (bit : Bool) {t : State} (ht : execBapp buf bit s = .next t) :
    Inv t := by
  refine inv_of_conclude h ?_ ht
  simp only [answers_ite, answers_raise, answers_finishOk, implies_true, true_and]
  intro hw hp hcap
  exact inv_setBuffer h (not_not.1 hp) hw (by simpa using hcap)

theorem execBappb_keeps_inv {s : State} (h : Inv s) (buf : Buf) (byte : Byte) {t : State}
    (ht : execBappb buf byte s = .next t) : Inv t := by
  refine inv_of_conclude h ?_ ht
  simp only [answers_ite, answers_raise, answers_finishOk, implies_true, true_and]
  intro hw hp hcap
  exact inv_setBuffer h (not_not.1 hp) hw (by simpa using hcap)

theorem execBtrim_keeps_inv {s : State} (h : Inv s) (buf : Buf) {t : State} (ht : execBtrim buf s = .next t) : Inv t := by
  refine inv_of_conclude h ?_ ht
  simp only [answers_ite, answers_raise, answers_finishOk, implies_true, true_and]
  intro hw hp _
  refine inv_setBuffer h (not_not.1 hp) hw (Nat.le_trans (by simp) (m := (s.blk.buffer buf).length) ?_)
  match buf with
  | .hdr => exact h.hdrFits
  | .pay => exact h.payFits
  | .out => exact h.outFits

/-- RELENC and RELDEC in Idle and Done (rules R107, R108). -/
theorem inv_released {s : State} (h : Inv s) (hp : s.blk.phase = .idle ∨ s.blk.phase = .done) :
    Inv { s with blk := { s.blk with hdr := [], pay := [] } } ∧ Inv { s with blk := { s.blk with out := [] } } := by
  obtain ⟨hb, hc, he, hd⟩ := (inv_iff s).1 h
  have hencode : encodePhase s.blk.phase = false := by rcases hp with hp | hp <;> rw [hp] <;> rfl
  have hdecode : decodePhase s.blk.phase = false := by rcases hp with hp | hp <;> rw [hp] <;> rfl
  exact ⟨(inv_iff _).2 ⟨{ hb with hdrFits := Nat.zero_le _, payFits := Nat.zero_le _ }, { hc with },
      encodeClauses_of_not_encode hencode, decodeClauses_of_not_decode hdecode⟩,
    { h with outFits := Nat.zero_le _, outBytes := rfl }⟩

theorem execRelenc_keeps_inv {s : State} (h : Inv s) {t : State} (ht : execRelenc s = .next t) : Inv t := by
  refine inv_of_conclude h ?_ ht
  simp only [answers_ite, answers_raise, answers_finishOk, implies_true, true_and]
  intro hp
  exact (inv_released h (by tauto)).1

theorem execReldec_keeps_inv {s : State} (h : Inv s) {t : State} (ht : execReldec s = .next t) : Inv t := by
  refine inv_of_conclude h ?_ ht
  simp only [answers_ite, answers_raise, answers_finishOk, implies_true, true_and]
  intro hp
  exact (inv_released h (by tauto)).2

/-- FT holds the counters. -/
theorem mem_ft_iff {b : Block} {n : Nat} : n ∈ b.ft.toList ↔ ∃ v : Byte, b.counter v = n := by
  rw [List.mem_iff_getElem]
  constructor
  · rintro ⟨i, hi, hn⟩
    rw [Vector.length_toList] at hi
    exact ⟨BitVec.ofNat 8 i, by simpa [Block.counter, Nat.mod_eq_of_lt hi] using hn⟩
  · rintro ⟨v, hv⟩
    exact ⟨v.toNat, by rw [Vector.length_toList]; exact v.isLt, by simpa [Block.counter] using hv⟩

/-- COUNT: a counter that is not full still fits after it (41_frequency_alphabet.md rule R120). -/
theorem execCount_keeps_inv {s : State} (h : Inv s) (v : Byte) {t : State} (ht : execCount v s = .next t) : Inv t := by
  refine inv_of_conclude h ?_ ht
  simp only [answers_ite, answers_raise, answers_finishOk, implies_true, true_and]
  intro hp hfull
  have hidle : s.blk.phase = .idle := not_not.1 hp
  obtain ⟨hb, hc, -, -⟩ := (inv_iff s).1 h
  have hcounters : ∀ n ∈ (s.blk.setCounter v (s.blk.counter v + 1)).ft.toList, n < 2 ^ s.cfg.freqW := by
    intro n hn
    obtain ⟨u, rfl⟩ := mem_ft_iff.1 hn
    have hv := h.counters _ (mem_ft_iff.2 ⟨v, rfl⟩)
    have hu := h.counters _ (mem_ft_iff.2 ⟨u, rfl⟩)
    rw [counter_setCounter]
    split <;> omega
  refine (inv_iff _).2 ⟨{ hb with counters := hcounters }, { hc with doneClear := fun hdone => ?_ },
    encodeClauses_of_not_encode ?_, decodeClauses_of_not_decode ?_⟩
  · rw [setCounter_phase, hidle] at hdone
    cases hdone
  · rw [setCounter_phase, hidle]; rfl
  · rw [setCounter_phase, hidle]; rfl

theorem execInit_keeps_inv {s : State} (h : Inv s) {t : State} (ht : execInit s = .next t) : Inv t := by
  refine inv_of_conclude h ((answers_finishOk _ _ _).2 ?_) ht
  exact inv_cleared (b := { s.blk with hdr := [], pay := [], out := [], err := .ok }) h.cfgWf (Nat.zero_le _)
    (Nat.zero_le _) (Nat.zero_le _) rfl (.inl rfl)

theorem execAbort_keeps_inv {s : State} (h : Inv s) {t : State} (ht : execAbort s = .next t) : Inv t := by
  refine inv_of_conclude h ((answers_finishOk _ _ _).2 ?_) ht
  exact inv_cleared h.cfgWf h.hdrFits h.payFits h.outFits h.outBytes (.inl rfl)

theorem execFinish_keeps_inv {s : State} (h : Inv s) {t : State} (ht : execFinish s = .next t) : Inv t := by
  refine inv_of_conclude h ?_ ht
  simp only [answers_ite, answers_raise, answers_finishOk, implies_true, true_and]
  intro _
  exact inv_cleared h.cfgWf h.hdrFits h.payFits h.outFits h.outBytes (.inr rfl)

/-- RETIRE: Done is as clear as Idle (46_system.md rule R204). -/
theorem execRetire_keeps_inv {s : State} (h : Inv s) {t : State} (ht : execRetire s = .next t) : Inv t := by
  refine inv_of_conclude h ?_ ht
  simp only [answers_ite, answers_raise, answers_finishOk, implies_true, true_and]
  intro hp
  have h := inv_at_phase h (not_not.1 hp)
  exact { h with
    doneClear := nofun, noTree := fun _ => h.noTree nofun, tree := nofun, someSymbol := nofun }

/-! ### The encode pipeline -/

/-- Frequencies that fit FREQ_W bits add up to one that fits NODE_W (00_scope.md rule R7, 42_tree_builder.md rule R144 (iv)). -/
theorem sum_freq_lt {c : Config} {es : List Entry} (hcap : es.length ≤ Config.alphaCap)
    (hfreq : ∀ e ∈ es, e.freq < 2 ^ c.freqW) : (es.map Entry.freq).sum < 2 ^ c.nodeW := by
  have hsum := List.sum_le_card_nsmul (es.map Entry.freq) (2 ^ c.freqW - 1) (by
    simp only [List.mem_map]
    rintro _ ⟨e, he, rfl⟩
    have := hfreq e he
    omega)
  have hpos := Nat.two_pow_pos c.freqW
  simp only [List.length_map, smul_eq_mul, Config.alphaCap] at hsum hcap
  calc (es.map Entry.freq).sum ≤ es.length * (2 ^ c.freqW - 1) := hsum
    _ ≤ 256 * (2 ^ c.freqW - 1) := Nat.mul_le_mul_right _ hcap
    _ < 256 * 2 ^ c.freqW := by omega
    _ = 2 ^ c.nodeW := by rw [Config.nodeW, Nat.pow_add, Nat.mul_comm]

/-- MKALPHA: the counted entries, sorted (41_frequency_alphabet.md rule R122). -/
theorem execMkalpha_keeps_inv {s : State} (h : Inv s) {t : State} (ht : execMkalpha s = .next t) : Inv t := by
  refine inv_of_conclude h ?_ ht
  simp only [answers_ite, answers_raise, answers_finishOk, implies_true, true_and]
  intro _ hp
  obtain ⟨hb, hc, -, -⟩ := (inv_iff _).1 (inv_at_phase h (not_not.1 hp))
  have hperm := List.perm_insertionSort orderA (countedEntries s.blk.ft)
  have hcounted : Counts s.blk.ft ((countedEntries s.blk.ft).insertionSort orderA) := hperm.map _
  have hentry : ∀ e ∈ (countedEntries s.blk.ft).insertionSort orderA,
      e.code = [] ∧ 0 < s.blk.counter e.sym ∧ e.freq = s.blk.counter e.sym :=
    fun e he => (mem_countedEntries s.blk e).1 (hperm.subset he)
  have hsorted := ltA_of_orderA (insertionSort_orderA_pairwise _) (counts_syms_nodup hcounted)
  refine (inv_iff _).2 ⟨{ hb with
      alphaFits := hperm.length_eq ▸ countedEntries_length_le s.blk.ft
      freqFits := fun e he => ?_
      codeFits := fun e he => ?_ }, { hc with
      noAlpha := nofun, doneClear := nofun, noTree := fun _ => hc.noTree nofun, tree := nofun }, {
      counted := fun _ => hcounted
      someSymbol := fun _ hne => absurd rfl hne
      sortedA := fun _ _ => hsorted
      noCodes := fun _ _ e he => (hentry e he).1 }, decodeClauses_of_not_decode rfl⟩
  · rw [(hentry e he).2.2]
    exact hb.counters _ (mem_ft_iff.2 ⟨e.sym, rfl⟩)
  · rw [(hentry e he).1]
    exact Nat.zero_le _

/-- MKTREE: a tree over the alphabet, its frequencies within NODE_W (42_tree_builder.md rules R143, R144). -/
theorem execMktree_keeps_inv {s : State} (h : Inv s) {t : State} (ht : execMktree s = .next t) : Inv t := by
  by_cases hp : s.blk.phase = .alphabetBuilt
  · by_cases ha : s.blk.alpha = []
    · refine inv_of_conclude h ?_ ht
      rw [if_neg (not_not.2 hp), if_pos (by rw [ha]; rfl)]
      exact answers_raise _ _
    · obtain ⟨nodes, root, e, htree, hfreq⟩ := execMktree_answered hp ha
      cases e.symm.trans ht
      have hsum := sum_freq_lt h.alphaFits h.freqFits
      have h := inv_at_phase h hp
      exact { h with
        heapEmpty := rfl
        doneClear := nofun
        noTree := fun hne => absurd rfl hne
        tree := fun _ => ⟨root, rfl, htree⟩
        nodeFits := fun n hn => Nat.lt_of_le_of_lt (hfreq n hn) hsum
        someSymbol := fun _ _ => ha }
  · refine inv_of_conclude h ?_ ht
    rw [if_pos hp]
    exact answers_raise _ _

/-- What holds of every symbol and frequency of a list holds of those of a list with the same ones. -/
theorem freq_lt_of_perm {es out : List Entry} {m : Nat}
    (h : (out.map (fun e => (e.sym, e.freq))).Perm (es.map (fun e => (e.sym, e.freq)))) (hes : ∀ e ∈ es, e.freq < m) :
    ∀ e ∈ out, e.freq < m := by
  intro e he
  obtain ⟨x, hx, hxe⟩ := List.mem_map.1 (h.subset (List.mem_map_of_mem he))
  have hfreq : x.freq = e.freq := congrArg Prod.snd hxe
  exact hfreq ▸ hes x hx

/-- ASSIGN: Huffman codes in an alphabet of the same symbols and frequencies (42_tree_builder.md rules R145 to R147). -/
theorem execAssign_keeps_inv {s : State} (h : Inv s) {t : State} (ht : execAssign s = .next t) : Inv t := by
  refine inv_of_conclude h ?_ ht
  simp only [answers_ite, answers_raise, implies_true, true_and]
  intro hp
  have h := inv_at_phase h (not_not.1 hp)
  obtain ⟨hb, hc, he, -⟩ := (inv_iff _).1 h
  obtain ⟨root, hroot, htree⟩ := hc.tree rfl
  split
  · exact answers_stuck _ _
  · rename_i root' hroot'
    cases hroot'.symm.trans hroot
    split
    · exact answers_error _ _
    · rename_i b hassign
      have hmap := (assignCodes_frame hassign).2
      have hhuffman := assignCodes_huffman (b := { s.blk with trav := [] }) htree rfl hb.alphaFits hassign
      obtain ⟨es, rfl⟩ : ∃ es, b = { s.blk with trav := [], alpha := es } := ⟨_, (assignCodes_frame hassign).1⟩
      simp only at hmap hhuffman
      have hperm := List.Perm.of_eq hmap
      have hlen : es.length = s.blk.alpha.length := by simpa using congrArg List.length hmap
      rw [answers_finishOk]
      exact (inv_iff _).2 ⟨{ hb with
          heapEmpty := rfl, travEmpty := rfl
          alphaFits := hlen ▸ hb.alphaFits
          freqFits := freq_lt_of_perm hperm hb.freqFits
          codeFits := fun e he => (hhuffman.lengths e he).2
          nodeFits := nofun }, { hc with
          noAlpha := nofun, doneClear := nofun, noTree := fun _ => ⟨rfl, rfl⟩, tree := nofun }, {
          counted := fun _ => hperm.trans (he.counted rfl)
          someSymbol := fun _ _ => List.ne_nil_of_length_pos (hlen ▸ List.length_pos_iff.2 (he.someSymbol rfl nofun))
          sortedA := fun _ _ => pairwise_ltA_of_map_eq hmap (he.sortedA rfl rfl)
          noCodes := nofun
          huffman := fun _ => hhuffman }, decodeClauses_of_not_decode rfl⟩

/-- CANON: order (b) and canonical codes (43_canonical.md rules R162, R163). -/
theorem execCanon_keeps_inv {s : State} (h : Inv s) {t : State} (ht : execCanon s = .next t) : Inv t := by
  refine inv_of_conclude h ?_ ht
  simp only [answers_ite, answers_raise, implies_true, true_and]
  intro hp
  obtain ⟨hb, hc, he, -⟩ := (inv_iff _).1 (inv_at_phase h (not_not.1 hp))
  split
  · exact answers_error _ _
  · rename_i es hcanonical
    obtain ⟨htriple, hsorted, hnumbered, hhuffman⟩ :=
      canonical_of_huffman hcanonical (counts_syms_nodup (he.counted rfl)) (he.huffman rfl)
    have hperm : (es.map (fun e => (e.sym, e.freq))).Perm (s.blk.alpha.map (fun e => (e.sym, e.freq))) := by
      simpa [Function.comp_def] using htriple.map (fun p => (p.1, p.2.1))
    have hlen : es.length = s.blk.alpha.length := by simpa using hperm.length_eq
    rw [answers_finishOk]
    exact (inv_iff _).2 ⟨{ hb with
        alphaFits := hlen ▸ hb.alphaFits
        freqFits := freq_lt_of_perm hperm hb.freqFits
        codeFits := fun e he => (hhuffman.lengths e he).2 }, { hc with
        noAlpha := nofun, doneClear := nofun, noTree := fun _ => hc.noTree nofun, tree := nofun }, {
        counted := fun _ => hperm.trans (he.counted rfl)
        someSymbol := fun _ _ => List.ne_nil_of_length_pos (hlen ▸ List.length_pos_iff.2 (he.someSymbol rfl nofun))
        sortedB := fun _ => hsorted
        noCodes := nofun
        huffman := fun _ => hhuffman
        numbered := fun _ => hnumbered }, decodeClauses_of_not_decode rfl⟩

/-- SERHDR: its header fits HDR, and LUT names the entries (43_canonical.md rule R164, 10_state.md rule R30). -/
theorem execSerhdr_keeps_inv {s : State} (h : Inv s) {t : State} (ht : execSerhdr s = .next t) : Inv t := by
  refine inv_of_conclude h ?_ ht
  simp only [answers_ite, answers_raise, answers_stuck, answers_finishOk, implies_true, true_and]
  intro _ hp _ hcounts hmax
  have h := inv_at_phase h (not_not.1 hp)
  obtain ⟨hb, hc, he, -⟩ := (inv_iff _).1 h
  have hnd : (s.blk.alpha.map Entry.sym).Nodup := counts_syms_nodup (he.counted rfl)
  have hlen : s.blk.alpha.length ≤ 256 := hb.alphaFits
  refine (inv_iff _).2 ⟨{ hb with hdrFits := ?_ }, { hc with
      doneClear := nofun, noTree := fun _ => hc.noTree nofun, tree := nofun, noLut := nofun }, { he with
      lutSet := fun _ p hp => lutOf_some hnd hp
      lutOnly := fun _ v => ?_
      someSymbol := fun _ _ => he.someSymbol rfl nofun
      header := fun _ => rfl
      countsFit := fun _ k hk => Nat.not_lt.1 fun hgt => hcounts ⟨k, hk, hgt⟩ }, decodeClauses_of_not_decode rfl⟩
  · simp only [header_length, Config.hdrCapBits]
    omega
  · by_cases hv : ∃ e ∈ s.blk.alpha, e.sym = v
    · exact .inr hv
    · exact .inl (lutOf_none fun e he heq => hv ⟨e, he, heq⟩)

/-- PACK: a code is appended only if it fits (44_packer.md rule R181). -/
theorem execPack_keeps_inv {s : State} (h : Inv s) (v : Byte) {t : State} (ht : execPack v s = .next t) : Inv t := by
  refine inv_of_conclude h ?_ ht
  simp only [answers_ite, answers_raise, implies_true, true_and]
  intro hp
  split
  · exact answers_raise _ _
  · split
    · exact answers_stuck _ _
    · simp only [answers_ite, answers_raise, answers_finishOk, implies_true, true_and]
      intro hcap
      exact { h with
        payFits := by simpa using hcap
        parsed := fun hq => by rw [not_not.1 hp] at hq; cases hq }

/-- PACKEND writes PHASE only, and the two phases hold the same (44_packer.md rule R182). -/
theorem execPackend_keeps_inv {s : State} (h : Inv s) {t : State} (ht : execPackend s = .next t) : Inv t := by
  refine inv_of_conclude h ?_ ht
  simp only [answers_ite, answers_raise, answers_finishOk, implies_true, true_and]
  intro hp
  have h := inv_at_phase h (not_not.1 hp)
  exact { h with
    doneClear := nofun, noTree := fun _ => h.noTree nofun, tree := nofun, someSymbol := fun _ _ => h.someSymbol rfl nofun }

/-! ### The decode pipeline -/

/-- PARSE: the sizes it latches are within their widths (43_canonical.md rule R166). -/
theorem execParse_keeps_inv {s : State} (h : Inv s) {t : State} (ht : execParse s = .next t) : Inv t := by
  refine inv_of_conclude h ?_ ht
  simp only [answers_ite, answers_raise, implies_true, true_and]
  intro hp
  obtain ⟨hb, hc, -, -⟩ := (inv_iff _).1 (inv_at_phase h (not_not.1 hp))
  split
  · exact answers_error _ _
  · rename_i sizes hsizes
    obtain ⟨hmb, hn, -⟩ := parseSizes_bounds hsizes hb.hdrFits
    rw [answers_finishOk]
    exact (inv_iff _).2 ⟨{ hb with maxbitsFits := hmb, hdrNFits := hn }, { hc with
        doneClear := nofun, noTree := fun _ => hc.noTree nofun, tree := nofun, notParsed := nofun },
      encodeClauses_of_not_encode rfl, { parsed := fun _ => hsizes }⟩

/-- DESER: the entries it rebuilds fit the alphabet, in the order of the header's symbols (43_canonical.md rule R167). -/
theorem execDeser_keeps_inv {s : State} (h : Inv s) {t : State} (ht : execDeser s = .next t) : Inv t := by
  refine inv_of_conclude h ?_ ht
  simp only [answers_ite, answers_raise, implies_true, true_and]
  intro _ hp hcap
  obtain ⟨hb, hc, -, hd⟩ := (inv_iff _).1 (inv_at_phase h (not_not.1 hp))
  split
  · exact answers_error _ _
  · rename_i es hes
    have hsize : es.length = s.blk.hdrN :=
      (deser_length hes).trans (parseSizes_bounds (hd.parsed rfl) hb.hdrFits).2.2.symm
    rw [answers_finishOk]
    exact (inv_iff _).2 ⟨{ hb with
        alphaFits := hsize.trans_le (Nat.not_lt.1 hcap)
        freqFits := fun e he => deserBuckets_freq hes e he ▸ Nat.two_pow_pos _
        codeFits := fun e he => Nat.le_trans (deser_length_le hes e he) hb.maxbitsFits }, { hc with
        noAlpha := nofun, doneClear := nofun, noTree := fun _ => hc.noTree nofun, tree := nofun },
      encodeClauses_of_not_encode rfl, { hd with
        dtSet := nofun
        rebuilt := fun _ => hes
        rebuiltSize := fun _ => hsize
        rebuiltLengths := fun _ => deser_lengths_ascend hes
        rebuiltOrderB := fun _ hordered => (deser_order_iff (· ≤ ·) hes).2 hordered
        rebuiltSortedB := fun _ hordered => (deser_order_iff (· < ·) hes).2 hordered }⟩

/-- MKLOOK: the map of the alphabet, of a header within DEC_MAXBITS (45_decoder.md rule R190). -/
theorem execMklook_keeps_inv {s : State} (h : Inv s) {t : State} (ht : execMklook s = .next t) : Inv t := by
  refine inv_of_conclude h ?_ ht
  simp only [answers_ite, answers_raise, answers_finishOk, implies_true, true_and]
  intro hp hmax
  have h := inv_at_phase h (not_not.1 hp)
  exact { h with
    doneClear := nofun, noTree := fun _ => h.noTree nofun, tree := nofun, someSymbol := nofun
    noDt := nofun, dtSet := fun _ => ⟨rfl, Nat.not_lt.1 hmax⟩ }

/-- DECODE: whole bytes, no more than OUT holds (45_decoder.md rule R191). -/
theorem execDecode_keeps_inv {s : State} (h : Inv s) {t : State} (ht : execDecode s = .next t) : Inv t := by
  refine inv_of_conclude h ?_ ht
  simp only [answers_ite, answers_raise, implies_true, true_and]
  intro _ hp
  have h := inv_at_phase h (not_not.1 hp)
  rcases decodeWalk_cases s.blk.dt (2 ^ (s.blk.hdrMaxbits + 1) - 1) s.cfg.outCapBytes s.blk.pay 0 []
    with ⟨vs, e, hcap⟩ | e | e <;> rw [e]
  · have hcap : vs.length ≤ s.cfg.outCapBytes := by simpa using hcap
    exact (answers_finishOk _ _ _).2 { h with
      outFits := by simpa using hcap
      outBytes := by simp
      doneClear := nofun, noTree := fun _ => h.noTree nofun, tree := nofun, someSymbol := nofun }
  · exact answers_error _ _
  · exact answers_error _ _

/-! ### Every command, every step -/

/-- Every command keeps the invariant. -/
theorem exec_keeps_inv {s t : State} (h : Inv s) {i : Instr} (ht : exec i s = .next t) : Inv t := by
  cases i with
  | init => exact execInit_keeps_inv h ht
  | abort => exact execAbort_keeps_inv h ht
  | finish => exact execFinish_keeps_inv h ht
  | retire => exact execRetire_keeps_inv h ht
  | bapp buf bit => exact execBapp_keeps_inv h buf bit ht
  | bappb buf byte => exact execBappb_keeps_inv h buf byte ht
  | btrim buf => exact execBtrim_keeps_inv h buf ht
  | relenc => exact execRelenc_keeps_inv h ht
  | reldec => exact execReldec_keeps_inv h ht
  | count v => exact execCount_keeps_inv h v ht
  | mkalpha => exact execMkalpha_keeps_inv h ht
  | mktree => exact execMktree_keeps_inv h ht
  | assign => exact execAssign_keeps_inv h ht
  | canon => exact execCanon_keeps_inv h ht
  | serhdr => exact execSerhdr_keeps_inv h ht
  | pack v => exact execPack_keeps_inv h v ht
  | packend => exact execPackend_keeps_inv h ht
  | parse => exact execParse_keeps_inv h ht
  | deser => exact execDeser_keeps_inv h ht
  | mklook => exact execMklook_keeps_inv h ht
  | decode => exact execDecode_keeps_inv h ht
  | rdphase | rderr | blen _ | rdft _ | nsym => exact inv_of_conclude h ((answers_finishOk _ _ _).2 h) ht
  | brdb _ _ => exact inv_of_conclude h (by simp [h]) ht
  | bget _ _ | rdsym _ | rdfreq _ => exact inv_of_conclude h (by split <;> simp [h]) ht
  | cget _ _ => exact inv_of_conclude h (by split <;> [simp; (split <;> simp [h])]) ht

/-- The reset input leads to a state that meets the invariant (70_reset_and_hazards.md rule R251). -/
theorem inv_reset_block {s : State} (hcfg : s.cfg.wf = true) : Inv { s with blk := Block.reset } :=
  inv_cleared (b := Block.reset) hcfg (Nat.zero_le _) (Nat.zero_le _) (Nat.zero_le _) rfl (.inl rfl)

/-- Settles O55: each of the four things a step can find at the port leads to a state that meets the invariant, a command by the
lemma of that command. -/
theorem stepKeepsInvariant : Obligations.StepKeepsInvariant := by
  intro s t h ht
  have hrest : ∀ rest, Inv { s with pending := rest } := fun rest => inv_of_same_block h rfl rfl
  rcases step_cases s with ⟨-, e⟩ | ⟨_, rest, -, e⟩ | ⟨_, rest, _, -, -, e⟩ | ⟨_, rest, i, -, -, e⟩ <;> rw [e] at ht
  · cases ht
    exact h
  · cases ht
    exact inv_reset_block (hrest rest).cfgWf
  · cases ht
    exact inv_faulted (hrest rest) _
  · exact exec_keeps_inv (hrest rest) ht

/-- Settles O54: the reset state is a cleared one, and the default parameters are within their ranges. -/
theorem resetMeetsInvariant : Obligations.ResetMeetsInvariant :=
  inv_reset_block (s := State.reset) (by decide)

end Sys2Proof.Machine
end

section
/-! SUPPORT. Which command writes what (10_state.md rules R20 to R35): for every command, what the block it answers with may differ
in. -/

namespace Sys2Proof.Machine

open Sys2Proof.Safety

/-! ### Writers -/

/-- The commands that clear the transient state (46_system.md rule R207). -/
abbrev Clears (i : Instr) : Prop := i = .init ∨ i = .abort ∨ i = .finish

/-- The block `new` that the command `i` answers with differs from `old` only where the "Written by" sentences of rules R21 to R35
name the command. -/
structure WritesOnly (i : Instr) (old new : Block) : Prop where
  phase : new.phase ≠ old.phase → Clears i ∨ i = .retire ∨ i = .mkalpha ∨ i = .mktree ∨ i = .assign ∨ i = .canon
    ∨ i = .serhdr ∨ i = .packend ∨ i = .parse ∨ i = .deser ∨ i = .mklook ∨ i = .decode
  err : new.err ≠ old.err → i = .init
  ft : new.ft ≠ old.ft → Clears i ∨ ∃ v, i = .count v
  alpha : new.alpha ≠ old.alpha → Clears i ∨ i = .mkalpha ∨ i = .assign ∨ i = .canon ∨ i = .deser
  arena : new.nodes ≠ old.nodes ∨ new.heap ≠ old.heap ∨ new.root ≠ old.root → Clears i ∨ i = .mktree ∨ i = .assign
  trav : new.trav ≠ old.trav → Clears i ∨ i = .assign
  lut : new.lut ≠ old.lut → Clears i ∨ i = .serhdr
  hdr : new.hdr ≠ old.hdr → i = .init ∨ i = .relenc ∨ i = .serhdr
    ∨ (∃ x, i = .bapp .hdr x) ∨ (∃ x, i = .bappb .hdr x) ∨ i = .btrim .hdr
  pay : new.pay ≠ old.pay → i = .init ∨ i = .relenc ∨ (∃ v, i = .pack v)
    ∨ (∃ x, i = .bapp .pay x) ∨ (∃ x, i = .bappb .pay x) ∨ i = .btrim .pay
  out : new.out ≠ old.out → i = .init ∨ i = .reldec ∨ i = .decode
  sizes : new.hdrMaxbits ≠ old.hdrMaxbits ∨ new.hdrN ≠ old.hdrN → Clears i ∨ i = .parse
  dt : new.dt ≠ old.dt → Clears i ∨ i = .mklook

theorem writesOnly_refl (i : Instr) (b : Block) : WritesOnly i b b := by constructor <;> simp

/-- The three writing buffer commands write the buffer they name, and never OUT. -/
theorem writesOnly_setBuffer {i : Instr} {b : Block} {buf : Buf} {m : Bits} (hw : buf.hostWritable ≠ false)
    (hi : (∃ x, i = .bapp buf x) ∨ (∃ x, i = .bappb buf x) ∨ i = .btrim buf) : WritesOnly i b (b.setBuffer buf m) := by
  match buf with
  | .hdr => exact { writesOnly_refl i b with hdr := fun _ => .inr (.inr (.inr hi)) }
  | .pay => exact { writesOnly_refl i b with pay := fun _ => .inr (.inr (.inr hi)) }
  | .out => exact absurd rfl hw

theorem mktree_writesOnly (s : State) : ∃ r, exec .mktree s = s.conclude r ∧ Answers (WritesOnly .mktree s.blk) r := by
  by_cases hp : s.blk.phase = .alphabetBuilt
  · by_cases ha : s.blk.alpha = []
    · refine ⟨_, rfl, ?_⟩
      rw [if_neg (not_not.2 hp), if_pos (by rw [ha]; rfl)]
      exact answers_raise _ _
    · obtain ⟨nodes, root, e, -⟩ := execMktree_answered hp ha
      exact ⟨finishOk 0 _, e, (answers_finishOk _ _ _).2 (by constructor <;> simp)⟩
  · refine ⟨_, rfl, ?_⟩
    rw [if_pos hp]
    exact answers_raise _ _

theorem assign_writesOnly (s : State) : ∃ r, exec .assign s = s.conclude r ∧ Answers (WritesOnly .assign s.blk) r := by
  refine ⟨_, rfl, ?_⟩
  simp only [answers_ite, answers_raise, implies_true, true_and]
  intro _
  split
  · exact answers_stuck _ _
  · split
    · exact answers_error _ _
    · rename_i b hassign
      rw [answers_finishOk, (assignCodes_frame hassign).1]
      constructor <;> simp

/-- Every command writes only what it is named as a writer of. -/
theorem exec_writesOnly (i : Instr) (s : State) :
    ∃ r, exec i s = s.conclude r ∧ Answers (WritesOnly i s.blk) r := by
  cases i with
  | mktree => exact mktree_writesOnly s
  | assign => exact assign_writesOnly s
  | rdphase | rderr | blen _ | rdft _ | nsym => exact ⟨finishOk _ _, rfl, (answers_finishOk _ _ _).2 (writesOnly_refl _ _)⟩
  | brdb _ _ => exact ⟨_, rfl, by simp [writesOnly_refl]⟩
  | bget _ _ | rdsym _ | rdfreq _ => exact ⟨_, rfl, by split <;> simp [writesOnly_refl]⟩
  | cget _ _ => exact ⟨_, rfl, by split <;> [simp; (split <;> simp [writesOnly_refl])]⟩
  | bapp buf _ | bappb buf _ | btrim buf =>
    refine ⟨_, rfl, ?_⟩
    simp only [answers_ite, answers_raise, answers_finishOk, implies_true, true_and]
    intro hw _ _
    exact writesOnly_setBuffer hw (by simp)
  | init | abort => exact ⟨finishOk 0 _, rfl, (answers_finishOk _ _ _).2 (by constructor <;> simp [Clears])⟩
  | finish | retire | relenc | reldec | count _ | mkalpha | serhdr | packend | mklook =>
    refine ⟨_, rfl, ?_⟩
    simp only [answers_ite, answers_raise, answers_stuck, answers_finishOk, implies_true, true_and]
    intros
    constructor <;> simp [Clears]
  | canon | parse | deser | decode =>
    refine ⟨_, rfl, ?_⟩
    simp only [answers_ite, answers_raise, implies_true, true_and]
    intros
    split
    · exact answers_error _ _
    · rw [answers_finishOk]
      constructor <;> simp
  | pack _ =>
    refine ⟨_, rfl, ?_⟩
    simp only [answers_ite, answers_raise, implies_true, true_and]
    intro _
    split
    · exact answers_raise _ _
    · split
      · exact answers_stuck _ _
      · simp only [answers_ite, answers_raise, answers_finishOk, implies_true, true_and]
        intro _
        constructor <;> simp

/-- Settles O17: a command that answers writes only what names it as a writer, and a fault changes ERR only, if it was 0. -/
theorem whoWritesWhat : Obligations.WhoWritesWhat := by
  intro i s t ht
  obtain ⟨r, e, hr⟩ := exec_writesOnly i s
  rcases conclude_answered_or_faulted hr (e ▸ ht) with ⟨d, b, rfl, h⟩ | ⟨f, rfl⟩
  · exact ⟨rfl, rfl, h.phase, fun hne => .inl (h.err hne), h.ft, h.alpha, h.arena, h.trav, h.lut, h.hdr, h.pay, h.out, h.sizes,
      h.dt⟩
  · have h := writesOnly_refl i s.blk
    refine ⟨rfl, rfl, h.phase, fun hne => .inr ⟨?_, f, rfl⟩, h.ft, h.alpha, h.arena, h.trav, h.lut, h.hdr, h.pay, h.out, h.sizes,
      h.dt⟩
    by_contra hset
    exact hne (if_neg hset)

end Sys2Proof.Machine
end

section
/-! SUPPORT. ERR decides nothing (10_state.md rule R22): the operations of the tree builder on a block with another value in ERR,
and for every command but INIT and RDERR what its rule computes then. -/

namespace Sys2Proof.Machine

open Sys2Proof.Safety

/-! ### Another value in ERR -/

/-- The block with another value in ERR. -/
def Block.setErr (b : Block) (e : Status) : Block := { b with err := e }

/-- What a rule computes, with another value in the ERR of the block it answers with. -/
def resultSetErr (e : Status) (r : Result) : Result := r.map (fun p => (p.1, p.2.setErr e))

@[simp] theorem resultSetErr_raise (e f : Status) : resultSetErr e (raise f) = raise f := rfl

@[simp] theorem resultSetErr_ite (e : Status) (p : Prop) [Decidable p] (r q : Result) :
    resultSetErr e (if p then r else q) = if p then resultSetErr e r else resultSetErr e q :=
  apply_ite _ _ _ _

/-! ### The tree builder does not read ERR -/

theorem slotLess_setErr (b : Block) (e : Status) : slotLess (b.setErr e) = slotLess b := rfl

theorem smallestChild_setErr (b : Block) (e : Status) : smallestChild (b.setErr e) = smallestChild b := rfl

theorem siftUp_setErr (b : Block) (e : Status) (k i : Nat) (h : List Nat) : siftUp (b.setErr e) k i h = siftUp b k i h := by
  induction k generalizing i h with
  | zero => rfl
  | succ k ih => simp only [siftUp, slotLess_setErr, ih]

theorem siftDown_setErr (b : Block) (e : Status) (k i : Nat) (h : List Nat) :
    siftDown (b.setErr e) k i h = siftDown b k i h := by
  induction k generalizing i h with
  | zero => rfl
  | succ k ih => simp only [siftDown, smallestChild_setErr, ih]

theorem addNode_setErr (b : Block) (e : Status) (x : Node) : (b.setErr e).addNode x = (b.addNode x).setErr e := by
  have h := siftUp_setErr { b with nodes := b.nodes ++ [x] } e b.heap.length b.heap.length (b.heap ++ [b.nodes.length])
  exact congrArg (fun q => { b with nodes := b.nodes ++ [x], heap := q, err := e }) h

theorem insertLeaves_setErr (b : Block) (e : Status) : (b.setErr e).insertLeaves = b.insertLeaves.setErr e :=
  List.foldl_hom (Block.setErr · e) fun acc (p : Entry × Nat) => addNode_setErr acc e (.leaf p.1.freq p.2)

theorem heapExtractMin_setErr (b : Block) (e : Status) :
    (b.setErr e).heapExtractMin = b.heapExtractMin.map (fun p => (p.1, p.2.setErr e)) := by
  match hq : b.heap with
  | [] => rw [heapExtractMin_nil hq, heapExtractMin_nil (b := b.setErr e) hq]; rfl
  | r :: rest =>
    have hq' : (b.setErr e).heap = r :: rest := hq
    simp only [Block.heapExtractMin, hq, hq', siftDown_setErr]
    rfl

theorem mergeAll_setErr (k : Nat) (b : Block) (e : Status) :
    Block.mergeAll k (b.setErr e) = (Block.mergeAll k b).setErr e := by
  induction k generalizing b with
  | zero => rfl
  | succ k ih =>
    simp only [Block.mergeAll, heapExtractMin_setErr]
    match b.heapExtractMin with
    | none => rfl
    | some (x, b1) =>
      simp only [Option.map_some, heapExtractMin_setErr]
      match b1.heapExtractMin with
      | none => rfl
      | some (y, b2) =>
        simp only [Option.map_some, addNode_setErr, ih]
        rfl

theorem mergedTree_setErr (b : Block) (e : Status) : (b.setErr e).mergedTree = b.mergedTree.setErr e := by
  have h := insertLeaves_setErr { b with nodes := [], heap := [] } e
  simp only [Block.mergedTree]
  exact (congrArg (fun c : Block => c.mergeAll c.heap.length) h).trans (mergeAll_setErr _ _ e)

theorem setCode_setErr (b : Block) (e : Status) (ent : Nat) (c : Bits) :
    (b.setErr e).setCode ent c = (b.setCode ent c).map (Block.setErr · e) := by
  match h : b.alpha[ent]? with
  | none =>
    have h' : (b.setErr e).alpha[ent]? = none := h
    simp only [Block.setCode, h, h']
    rfl
  | some x => rw [setCode_ok h, setCode_ok (b := b.setErr e) h]; rfl

theorem walk_setErr (k n : Nat) (b : Block) (e : Status) :
    walk k n (b.setErr e) = (walk k n b).map (Block.setErr · e) := by
  induction k generalizing n b with
  | zero => rfl
  | succ k ih =>
    have hpush : ∀ (c : Block) (bit : Bool), (c.setErr e).pushTrav bit = (c.pushTrav bit).setErr e := fun _ _ => rfl
    have hpop : ∀ c : Block, (c.setErr e).popTrav = c.popTrav.setErr e := fun _ => rfl
    have hnodes : (b.setErr e).nodes[n]? = b.nodes[n]? := rfl
    simp only [walk, hnodes]
    match b.nodes[n]? with
    | none => rfl
    | some (.leaf f ent) => exact setCode_setErr b e ent b.trav
    | some (.internal f l r) =>
      simp only [hpush, ih]
      match walk k l (b.pushTrav false) with
      | .error x => rfl
      | .ok b1 =>
        simp only [Except.map, hpop, hpush, ih]
        match walk k r (b1.popTrav.pushTrav true) with
        | .error x => rfl
        | .ok b2 => rfl

theorem assignCodes_setErr (root : Nat) (b : Block) (e : Status) :
    assignCodes root (b.setErr e) = (assignCodes root b).map (Block.setErr · e) := by
  have hnodes : (b.setErr e).nodes[root]? = b.nodes[root]? := rfl
  simp only [assignCodes, hnodes]
  match b.nodes[root]? with
  | none => rfl
  | some (.leaf f ent) => exact setCode_setErr b e ent [false]
  | some (.internal f l r) => exact walk_setErr _ root b e

/-! ### The commands do not read ERR -/

/-- With another value in ERR the command's rule computes the same, but for that value. -/
def ErrBlind (i : Instr) (s : State) (e : Status) : Prop :=
  ∃ r, exec i s = s.conclude r ∧ exec i (withErr s e) = (withErr s e).conclude (resultSetErr e r)

theorem mktree_errBlind (s : State) (e : Status) : ErrBlind .mktree s e := by
  by_cases hp : s.blk.phase = .alphabetBuilt
  · by_cases ha : s.blk.alpha = []
    · refine ⟨raise .treeConstructionFailed, ?_, ?_⟩
      all_goals exact congrArg (State.conclude _) ((if_neg (not_not.2 hp)).trans (if_pos (List.length_eq_zero_iff.2 ha)))
    · refine ⟨_, execMktree_eq hp ha, (execMktree_eq (s := withErr s e) hp ha).trans (congrArg _ ?_)⟩
      simp only [show (withErr s e).blk = s.blk.setErr e from rfl, mergedTree_setErr, heapExtractMin_setErr]
      match s.blk.mergedTree.heapExtractMin with
      | none => rfl
      | some (r, b') => rfl
  · refine ⟨raise .protocolMisuse, ?_, ?_⟩
    all_goals exact congrArg (State.conclude _) (if_pos hp)

theorem assign_errBlind (s : State) (e : Status) : ErrBlind .assign s e := by
  refine ⟨_, rfl, congrArg (State.conclude _) ?_⟩
  rw [resultSetErr_ite, resultSetErr_raise]
  refine if_congr Iff.rfl rfl ?_
  dsimp only [withErr]
  split
  · rfl
  · rename_i root _
    have h := assignCodes_setErr root { s.blk with trav := [] } e
    dsimp only [Block.setErr] at h
    rw [h]
    cases assignCodes root { s.blk with trav := [] } <;> rfl

/-- No command but INIT, which writes ERR, and RDERR, which reads it, depends on ERR. -/
theorem exec_errBlind {i : Instr} (hinit : i ≠ .init) (hrderr : i ≠ .rderr) (s : State) (e : Status) : ErrBlind i s e := by
  cases i with
  | init => exact absurd rfl hinit
  | rderr => exact absurd rfl hrderr
  | mktree => exact mktree_errBlind s e
  | assign => exact assign_errBlind s e
  | abort | rdphase | rdft _ | nsym => exact ⟨finishOk _ _, rfl, rfl⟩
  | finish | retire | relenc | reldec | count _ | mkalpha | serhdr | packend | mklook =>
    exact ⟨_, rfl, by simp only [resultSetErr_ite]; rfl⟩
  | blen buf => exact ⟨finishOk _ _, rfl, by cases buf <;> rfl⟩
  | bapp buf _ | bappb buf _ | btrim buf | brdb buf _ =>
    exact ⟨_, rfl, by cases buf <;> simp only [resultSetErr_ite] <;> rfl⟩
  | bget buf pos =>
    refine ⟨_, rfl, congrArg (State.conclude _) ?_⟩
    have hbuffer : (withErr s e).blk.buffer buf = s.blk.buffer buf := by cases buf <;> rfl
    rw [hbuffer]
    split <;> rfl
  | rdsym i | rdfreq i =>
    refine ⟨_, rfl, congrArg (State.conclude _) ?_⟩
    rw [show (withErr s e).blk.entry i.toNat = s.blk.entry i.toNat from rfl]
    split <;> rfl
  | cget i pos =>
    refine ⟨_, rfl, congrArg (State.conclude _) ?_⟩
    rw [show (withErr s e).blk.entry i.toNat = s.blk.entry i.toNat from rfl]
    split
    · rfl
    · split <;> rfl
  | canon | parse | deser | decode =>
    refine ⟨_, rfl, congrArg (State.conclude _) ?_⟩
    simp only [resultSetErr_ite, resultSetErr_raise]
    repeat refine if_congr Iff.rfl rfl ?_
    dsimp only [withErr]
    split <;> rfl
  | pack v =>
    refine ⟨_, rfl, congrArg (State.conclude _) ?_⟩
    rw [resultSetErr_ite]
    refine if_congr Iff.rfl rfl ?_
    rw [show (withErr s e).blk.lookup v = s.blk.lookup v from rfl]
    split
    · rfl
    · rename_i i _
      rw [show (withErr s e).blk.entry i = s.blk.entry i from rfl]
      split
      · rfl
      · rw [resultSetErr_ite]
        rfl

/-! ### The obligation -/

theorem answered_inj {s : State} {d d' : BitVec 32} {b b' : Block} (h : answered s d b = answered s d' b') :
    d = d' ∧ b = b' := by
  simpa [answered, and_comm] using h

theorem faulted_inj {s : State} {f f' : Status} (h : faulted s f = faulted s f') : f = f' := by
  have hrsps := congrArg State.rsps h
  simpa [faulted] using hrsps

theorem answered_ne_faulted {s : State} {d : BitVec 32} {b : Block} {f : Status} (hf : f ≠ .ok) :
    answered s d b ≠ faulted s f := by
  intro h
  have hrsps := congrArg State.rsps h
  simp [answered, faulted, hf.symm] at hrsps

/-- A response with status OK and data 0 that changes nothing. -/
theorem faulted_ok (s : State) : faulted s .ok = answered s 0 s.blk := by
  have herr : (if s.blk.err = .ok then .ok else s.blk.err) = s.blk.err := by
    split <;> simp_all
  simp [faulted, answered, herr]

/-- Settles O13: but for INIT, which sets ERR to 0 from every state, a rule's result with another value in ERR is the same
result with that value. -/
theorem noCommandDependsOnErr : Obligations.NoCommandDependsOnErr := by
  intro i s e hrderr
  by_cases hinit : i = .init
  · subst hinit
    refine ⟨fun d b h => ?_, fun f hf h => absurd (Host.Outcome.next.inj h) (answered_ne_faulted hf)⟩
    obtain ⟨rfl, rfl⟩ := answered_inj (Host.Outcome.next.inj h)
    rfl
  · obtain ⟨r, hr, hre⟩ := exec_errBlind hinit hrderr s e
    rw [hr, hre]
    refine ⟨fun d b h => ?_, fun f hf h => ?_⟩
    · rw [if_neg hinit]
      rcases conclude_next h with ⟨d', b', rfl, heq⟩ | ⟨f, rfl, heq⟩
      · obtain ⟨rfl, rfl⟩ := answered_inj heq
        rfl
      · obtain rfl : f = .ok := by
          by_contra hf
          exact answered_ne_faulted hf heq
        obtain ⟨rfl, rfl⟩ := answered_inj (heq.trans (faulted_ok s))
        exact congrArg _ (faulted_ok (withErr s e))
    · rcases conclude_next h with ⟨d', b', rfl, heq⟩ | ⟨f', rfl, heq⟩
      · exact absurd heq.symm (answered_ne_faulted hf)
      · rw [faulted_inj heq]
        rfl

end Sys2Proof.Machine
end

section
/-! SUPPORT. The header of an alphabet in order (b) and what DESER reads from it (43_canonical.md rules R164, R167, R168): its bytes,
the code lengths its count bytes declare, and with them the orders of ALPHA (10_state.md rule R25). -/

namespace Sys2Proof.Machine

open Sys2Proof.Safety

/-! ### The bytes of a header (20_memory.md rule R62) -/

/-- In a list ascending by code length the last code is the longest. -/
theorem length_le_maxBitsOf {es : List Entry} (hsorted : es.Pairwise (fun x y => x.code.length ≤ y.code.length)) :
    ∀ e ∈ es, e.code.length ≤ maxBitsOf es := by
  intro e he
  rcases es.eq_nil_or_concat with rfl | ⟨init, last, rfl⟩
  · cases he
  · rw [List.concat_eq_append] at *
    simp only [maxBitsOf, List.getLast?_concat]
    rcases List.mem_append.1 he with he | he
    · exact (List.pairwise_append.1 hsorted).2.2 e he last (by simp)
    · rw [List.mem_singleton.1 he]

theorem byteView_header_zero (es : List Entry) :
    byteView (bitsOfBytes (headerBytes es)) 0 = BitVec.ofNat 8 (maxBitsOf es) :=
  byteView_bitsOfBytes (by simp [headerBytes])

theorem byteView_header_count {es : List Entry} {k : Nat} (hk : k < maxBitsOf es) :
    byteView (bitsOfBytes (headerBytes es)) (k + 1) = BitVec.ofNat 8 (countLen es (k + 1)) := by
  rw [byteView_bitsOfBytes (by simp; omega)]
  simp [headerBytes, List.getElem_append_left, hk]

theorem byteView_header_sym {es : List Entry} {i : Nat} (hi : i < es.length) :
    byteView (bitsOfBytes (headerBytes es)) (1 + maxBitsOf es + i) = es[i].sym := by
  rw [byteView_bitsOfBytes (by simp; omega), List.getElem_eq_iff, headerBytes,
    show 1 + maxBitsOf es + i = maxBitsOf es + i + 1 by omega, List.getElem?_cons_succ, List.getElem?_append_right (by simp)]
  simp [hi]

/-! ### The lengths it declares -/

/-- A sum over the lengths up to `mb` of which only one counts. -/
theorem sum_range_single (c a mb : Nat) :
    ((List.range mb).map (fun k => if k + 1 = a then c else 0)).sum = if 1 ≤ a ∧ a ≤ mb then c else 0 := by
  induction mb with
  | zero => rw [if_neg (by omega)]; rfl
  | succ mb ih =>
    rw [List.range_succ, List.map_append, List.sum_append, ih]
    simp only [List.map_cons, List.map_nil, List.sum_cons, List.sum_nil]
    split <;> split <;> split <;> omega

/-- The count bytes of a header declare the alphabet's code lengths, in its order (R168). -/
theorem declaredLengths_header {es : List Entry} (hsorted : es.Pairwise (fun x y => x.code.length ≤ y.code.length))
    (hpos : ∀ e ∈ es, 1 ≤ e.code.length)
    (hcounts : ∀ k ∈ List.range (maxBitsOf es), countLen es (k + 1) ≤ 255) :
    declaredLengths (bitsOfBytes (headerBytes es)) (maxBitsOf es) = es.map (fun e => e.code.length) := by
  have hbytes : declaredLengths (bitsOfBytes (headerBytes es)) (maxBitsOf es)
      = (List.range (maxBitsOf es)).flatMap (fun k => List.replicate (countLen es (k + 1)) (k + 1)) := by
    refine List.flatMap_congr fun k hk => ?_
    rw [byteView_header_count (List.mem_range.1 hk), BitVec.toNat_ofNat,
      Nat.mod_eq_of_lt (Nat.lt_succ_of_le (hcounts k hk))]
  have hperm : (declaredLengths (bitsOfBytes (headerBytes es)) (maxBitsOf es)).Perm (es.map (fun e => e.code.length)) := by
    rw [hbytes, List.perm_iff_count]
    intro a
    have hcount : (es.map (fun e => e.code.length)).count a = countLen es a := by
      rw [List.count, List.countP_map]
      rfl
    have hsum : (List.range (maxBitsOf es)).map (List.count a ∘ fun k => List.replicate (countLen es (k + 1)) (k + 1))
        = (List.range (maxBitsOf es)).map (fun k => if k + 1 = a then countLen es a else 0) := by
      refine List.map_congr_left fun k _ => ?_
      simp only [Function.comp, List.count_replicate, beq_iff_eq]
      split
      · rename_i h
        rw [h]
      · rfl
    rw [hcount, List.count_flatMap, hsum, sum_range_single]
    split
    · rfl
    · rename_i hout
      refine (List.countP_eq_zero.2 fun e he => ?_).symm
      have := hpos e he
      have := length_le_maxBitsOf hsorted e he
      simp only [beq_iff_eq]
      omega
  exact hperm.eq_of_pairwise (fun _ _ _ _ => Nat.le_antisymm) (declaredLengths_sorted _ _) (List.pairwise_map.2 hsorted)

/-- DESER gives back the symbols and code lengths of the alphabet whose header it reads (R168). -/
theorem deser_header {es out : List Entry} (hsorted : es.Pairwise (fun x y => x.code.length ≤ y.code.length))
    (hpos : ∀ e ∈ es, 1 ≤ e.code.length)
    (hcounts : ∀ k ∈ List.range (maxBitsOf es), countLen es (k + 1) ≤ 255)
    (h : deserBuckets (bitsOfBytes (headerBytes es)) (maxBitsOf es) 1 0 (1 + maxBitsOf es) = .ok out) :
    out.map (fun e => (e.sym, e.code.length)) = es.map (fun e => (e.sym, e.code.length)) := by
  obtain ⟨hlens, hsyms⟩ := deser_entry h
  rw [declaredLengths_header hsorted hpos hcounts] at hlens
  have hcount : out.length = es.length := by simpa using congrArg List.length hlens
  refine List.ext_getElem (by simpa using hcount) fun i hi hi' => ?_
  simp only [List.length_map] at hi hi'
  have hlen : out[i].code.length = es[i].code.length := by
    have := List.getElem_of_eq hlens (by simpa using hi)
    simpa using this
  simp only [List.getElem_map, Prod.mk.injEq]
  exact ⟨by rw [hsyms i hi, byteView_header_sym hi'], hlen⟩

/-- The first size PARSE takes from a header is its maxBits. -/
theorem parseSizes_header {es : List Entry} {pay : Bits} {mb n : Nat} (hmax : maxBitsOf es ≤ 255)
    (h : parseSizes (bitsOfBytes (headerBytes es)) pay = .ok (mb, n)) : mb = maxBitsOf es := by
  have hne : bitsOfBytes (headerBytes es) ≠ [] := by
    refine List.ne_nil_of_length_pos ?_
    rw [header_length]
    omega
  rcases parseSizes_cases (bitsOfBytes (headerBytes es)) pay with ⟨hnil, -⟩ | ⟨-, -, e⟩ | ⟨e, -⟩
  · exact absurd hnil hne
  · rw [e] at h
    cases h
    rw [byteView_header_zero, BitVec.toNat_ofNat, Nat.mod_eq_of_lt (Nat.lt_succ_of_le hmax)]
  · rw [e] at h
    cases h

/-! ### The orders of ALPHA -/

/-- Strict order (b) is one of symbols and code lengths only. -/
theorem pairwise_ltB_of_map_eq {es out : List Entry}
    (h : out.map (fun e => (e.sym, e.code.length)) = es.map (fun e => (e.sym, e.code.length))) (hes : es.Pairwise ltB) :
    out.Pairwise ltB :=
  (List.pairwise_map (f := fun e : Entry => (e.sym, e.code.length))
    (R := fun x y => x.2 < y.2 ∨ (x.2 = y.2 ∧ x.1.toNat < y.1.toNat))).1 (h ▸ List.pairwise_map.2 hes)

/-- An alphabet in the encode pipeline has distinct symbols. -/
theorem inv_syms_nodup {s : State} (h : Inv s) (hp : encodePhase s.blk.phase = true) : (s.blk.alpha.map Entry.sym).Nodup :=
  counts_syms_nodup (h.counted hp)

/-- What SERHDR's phases are besides. -/
theorem encode_of_serialized {p : Phase} (h : serializedPhase p = true) :
    encodePhase p = true ∧ codedPhase p = true ∧ canonicalPhase p = true := by
  cases p <;> cases h <;> exact ⟨rfl, rfl, rfl⟩

/-- DESER's phases are decode phases. -/
theorem decode_of_rebuilt {p : Phase} (h : rebuiltPhase p = true) : decodePhase p = true := by
  cases p <;> cases h <;> rfl

/-- The alphabet rebuilt from a header that stands after SERHDR has the symbols and code lengths of the one it was written
for. -/
theorem rebuilt_of_serialized {s h : State} (hs : Inv s) (hh : Inv h) (hrebuilt : rebuiltPhase s.blk.phase = true)
    (hserialized : serializedPhase h.blk.phase = true) (hhdr : s.blk.hdr = h.blk.hdr) :
    s.blk.alpha.map (fun e => (e.sym, e.code.length)) = h.blk.alpha.map (fun e => (e.sym, e.code.length)) := by
  obtain ⟨-, hcoded, hcanonical⟩ := encode_of_serialized hserialized
  have hheader := hhdr.trans (hh.header hserialized)
  have hmax : s.blk.hdrMaxbits = maxBitsOf h.blk.alpha :=
    parseSizes_header (maxBitsOf_le hh.codeFits) (hheader ▸ hs.parsed (decode_of_rebuilt hrebuilt))
  have hdeser := hs.rebuilt hrebuilt
  rw [hheader, hmax] at hdeser
  exact deser_header ((hh.sortedB hcanonical).imp fun hxy => by simp only [ltB] at hxy; omega)
    (fun e he => ((hh.huffman hcoded).lengths e he).1) (hh.countsFit hserialized) hdeser

/-- Settles O60: in the encode phases by the invariant, after DESER by the order of the header's symbols. -/
theorem alphabetOrders : Obligations.AlphabetOrders := by
  intro s hs
  refine ⟨fun hp => ?_, fun hp => ?_, fun hp => ?_⟩
  · have hflags : encodePhase s.blk.phase = true ∧ canonicalPhase s.blk.phase = false := by
      rcases hp with hp | hp | hp <;> rw [hp] <;> exact ⟨rfl, rfl⟩
    exact ⟨hs.sortedA hflags.1 hflags.2, inv_syms_nodup hs hflags.1⟩
  · have hflags : encodePhase s.blk.phase = true ∧ canonicalPhase s.blk.phase = true := by
      rcases hp with hp | hp | hp <;> rw [hp] <;> exact ⟨rfl, rfl⟩
    exact ⟨hs.sortedB hflags.2, inv_syms_nodup hs hflags.1⟩
  · have hrebuilt : rebuiltPhase s.blk.phase = true := by rcases hp with hp | hp | hp <;> rw [hp] <;> rfl
    have hdeser := hs.rebuilt hrebuilt
    refine ⟨deser_lengths_ascend hdeser, deser_order_iff (· ≤ ·) hdeser, deser_order_iff (· < ·) hdeser,
      fun h hh hph hhdr => ?_⟩
    have hserialized : serializedPhase h.blk.phase = true := by rcases hph with hp | hp <;> rw [hp] <;> rfl
    obtain ⟨hencode, -, hcanonical⟩ := encode_of_serialized hserialized
    have hmap := rebuilt_of_serialized hs hh hrebuilt hserialized hhdr
    have hsyms : s.blk.alpha.map Entry.sym = h.blk.alpha.map Entry.sym := by
      simpa [Function.comp_def] using congrArg (List.map Prod.fst) hmap
    exact ⟨pairwise_ltB_of_map_eq hmap (hh.sortedB hcanonical), hsyms ▸ inv_syms_nodup hh hencode⟩

end Sys2Proof.Machine
end

section
/-! SUPPORT. The memory of the block (20_memory.md): the order of the bits in a byte of the byte view (rules R60, R61), and that
what a read command answers is decided by the block alone (rule R67). -/

namespace Sys2Proof.Machine

open Sys2Proof.Safety

/-! ### The digits of a numeral -/

/-- One more digit at the end of a numeral is its lowest bit. -/
theorem numeral_concat (m : Bits) (b : Bool) : numeral (m ++ [b]) = Nat.bit b (numeral m) := by
  simp [numeral, Nat.bit_val]

/-- Digit `i` of a numeral, counted from the front, is the bit of its value that has `length - 1 - i` bits below it. -/
theorem numeral_testBit (m : Bits) (i : Nat) (h : i < m.length) : (numeral m).testBit (m.length - 1 - i) = m[i] := by
  induction m using List.reverseRecOn with
  | nil => cases h
  | append_singleton m b ih =>
    rw [List.length_append, List.length_singleton, Nat.add_sub_cancel, numeral_concat]
    by_cases hi : i < m.length
    · rw [show m.length - i = (m.length - 1 - i) + 1 by omega, Nat.testBit_bit_succ, ih hi, List.getElem_append_left hi]
    · obtain rfl : i = m.length := by simp at h; omega
      rw [Nat.sub_self, Nat.testBit_bit_zero, List.getElem_concat_length rfl]

/-! ### The bits of the byte view -/

/-- The eight bits of byte `j` of the byte view, the first one first: 0 at and beyond the bit count. -/
def byteDigits (m : Bits) (j : Nat) : Bits := (List.range 8).map (fun t => m.getD (8 * j + t) false)

@[simp] theorem byteDigits_length (m : Bits) (j : Nat) : (byteDigits m j).length = 8 := by simp [byteDigits]

@[simp] theorem byteDigits_getElem (m : Bits) (j t : Nat) (h : t < (byteDigits m j).length) :
    (byteDigits m j)[t] = m.getD (8 * j + t) false := by simp [byteDigits]

/-- The byte view reads the byte's bits as a numeral, most significant first. -/
theorem byteView_eq_numeral (m : Bits) (j : Nat) : byteView m j = BitVec.ofNat 8 (numeral (byteDigits m j)) := by
  rw [byteView, numeral, byteDigits, List.foldl_map]

/-- Bit `7 - t` of byte `j` is bit `8j + t` of the BitMessage, and 0 at and beyond the bit count. -/
theorem byteView_getLsbD (m : Bits) (j : Nat) {t : Nat} (ht : t < 8) :
    (byteView m j).getLsbD (7 - t) = m.getD (8 * j + t) false := by
  have hdigit := numeral_testBit (byteDigits m j) t (by rwa [byteDigits_length])
  rw [byteDigits_getElem, byteDigits_length] at hdigit
  rw [byteView_eq_numeral, BitVec.getLsbD_ofNat, decide_eq_true (by omega), Bool.true_and, hdigit]

/-- The number of bytes is the bit count divided by 8, rounded up. -/
theorem nBytes_bounds (m : Bits) : 8 * nBytes m < m.length + 8 ∧ m.length ≤ 8 * nBytes m := by
  unfold nBytes
  omega

/-- Settles O18: bit `i` is bit `i % 8` of byte `i / 8`, read by the law of the byte view's bits. -/
theorem byteViewIsMsbFirst : Obligations.ByteViewIsMsbFirst := by
  refine fun m => ⟨fun i h => ?_, fun j t ht hlen => ?_, nBytes_bounds m, fun b j => ?_⟩
  · rw [byteView_getLsbD m _ (Nat.mod_lt i (by decide)), Nat.div_add_mod, List.getD_eq_getElem _ _ h]
  · rw [byteView_getLsbD m j ht, List.getD_eq_default _ _ hlen]
  · rw [List.dropLast_concat]
    exact ⟨rfl, rfl⟩

/-! ### The read commands -/

/-- What a read command's rule computes from the block `b`: some data, with the block as it was, or the fault OutOfRange. -/
def ReadsFrom (b : Block) (r : Result) : Prop := (∃ d, r = finishOk d b) ∨ r = raise .outOfRange

theorem readsFrom_finishOk (d : Nat) (b : Block) : ReadsFrom b (finishOk d b) := .inl ⟨d, rfl⟩

theorem readsFrom_raise (b : Block) : ReadsFrom b (raise .outOfRange) := .inr rfl

/-- A read command's rule computes the same in every state that holds the same block. -/
theorem exec_read {i : Instr} (hi : isRead i = true) (s : State) :
    ∃ r, exec i s = s.conclude r ∧ (∀ t : State, t.blk = s.blk → exec i t = t.conclude r) ∧ ReadsFrom s.blk r := by
  cases i with
  | blen _ | rdft _ | nsym | rdphase | rderr =>
    exact ⟨finishOk _ s.blk, rfl, by rintro ⟨_, _, _, _⟩ rfl; rfl, readsFrom_finishOk _ _⟩
  | brdb _ _ | bget _ _ | rdsym _ | rdfreq _ =>
    refine ⟨_, rfl, by rintro ⟨_, _, _, _⟩ rfl; rfl, ?_⟩
    split
    · exact readsFrom_raise _
    · exact readsFrom_finishOk _ _
  | cget _ _ =>
    refine ⟨_, rfl, by rintro ⟨_, _, _, _⟩ rfl; rfl, ?_⟩
    split
    · exact readsFrom_raise _
    · split
      · exact readsFrom_raise _
      · exact readsFrom_finishOk _ _
  | _ => cases hi

/-- Settles O16: the state after an OK response holds the same block, so the command's rule computes the same from it. -/
theorem readsChangeNothing : Obligations.ReadsChangeNothing := by
  intro i s hi
  obtain ⟨r, hexec, hagain, ⟨d, rfl⟩ | rfl⟩ := exec_read hi s
  · exact .inl ⟨BitVec.ofNat 32 d, hexec, hagain (answered s _ s.blk) rfl⟩
  · exact .inr hexec

end Sys2Proof.Machine
end

section
/-! SUPPORT. The decoder against the opcode table (30_encoding.md section 2): a row accepts a word when it accepts the opcode byte
alone and the bits that must be 0 are 0, so the decoder's checks are the table's match and mask (rules R85, R86), and the words
it refuses are the three classes of rule R87. -/

namespace Sys2Proof

/-! ### No two rows accept one word (R85) -/

/-- Two rows that accept one word agree on the bits that both look at. -/
theorem patterns_agree_of_accepts {r q : Row} {w : Word} (hr : r.accepts w = true) (hq : q.accepts w = true) :
    r.pattern &&& q.mask = q.pattern &&& r.mask := by
  rw [← beq_iff_eq.1 hr, ← beq_iff_eq.1 hq, BitVec.and_assoc, BitVec.and_assoc, BitVec.and_comm r.mask]

/-- Two different rows differ in a bit that both look at. -/
theorem row_eq_of_patterns_agree :
    ∀ r ∈ opcodeTable, ∀ q ∈ opcodeTable, r.pattern &&& q.mask = q.pattern &&& r.mask → r = q := by decide +kernel

theorem opcodeTable_nodup : opcodeTable.Nodup := by decide +kernel

/-- At most one row accepts a word. -/
theorem row_eq_of_accepts {r q : Row} {w : Word} (hrmem : r ∈ opcodeTable) (hqmem : q ∈ opcodeTable)
    (hr : r.accepts w = true) (hq : q.accepts w = true) : r = q :=
  row_eq_of_patterns_agree r hrmem q hqmem (patterns_agree_of_accepts hr hq)

/-- Settles O5: the rows are 31 different ones, and at most one accepts a word. -/
theorem opcodeRowsDisjoint : Obligations.OpcodeRowsDisjoint :=
  ⟨rfl, opcodeTable_nodup.imp_of_mem fun hr hq hne _ h => hne (row_eq_of_accepts hr hq h.1 h.2)⟩

/-! ### The opcode byte and the bits that must be 0 -/

/-- The word with ones in the bits `[lo + n - 1 : lo]`. -/
def onesAt (lo n : Nat) : Word := (BitVec.allOnes n).setWidth 32 <<< lo

theorem onesAt_getLsbD {lo n i : Nat} (h : i < 32) : (onesAt lo n).getLsbD i = decide (lo ≤ i ∧ i < lo + n) := by
  by_cases hlo : i < lo
  · simp [onesAt, hlo]
  · simp [onesAt, h, hlo, show lo ≤ i by omega, show i - lo < n ↔ i < lo + n by omega]

/-- A field is 0 exactly when every bit of the word in its place is. -/
theorem field_eq_zero_iff (w : Word) {lo n : Nat} (h : lo + n ≤ 32) : field w lo n = 0 ↔ w &&& onesAt lo n = 0 := by
  constructor <;> intro hzero <;> refine BitVec.eq_of_getLsbD_eq fun i hi => ?_
  · have hbit : i - lo < n → w.getLsbD (lo + (i - lo)) = false := by
      simpa [field] using congrArg (fun x => x.getLsbD (i - lo)) hzero
    rw [BitVec.getLsbD_and, onesAt_getLsbD hi]
    by_cases hin : lo ≤ i ∧ i < lo + n
    · rw [← Nat.add_sub_cancel' hin.1, hbit (by omega)]
      simp
    · simp [hin]
  · have hbit := congrArg (fun x => x.getLsbD (lo + i)) hzero
    simpa [field, onesAt_getLsbD (show lo + i < 32 by omega), hi] using hbit

/-- The word of an opcode byte alone is the word with its other bits cleared. -/
theorem encodeZ_of_opByte (w : Word) : encodeZ (opByte w) = w &&& onesAt 24 8 := by
  refine BitVec.eq_of_getLsbD_eq fun i hi => ?_
  rw [BitVec.getLsbD_and, onesAt_getLsbD hi]
  refine (BitVec.getLsbD_append (x := opByte w) (y := (0 : BitVec 24)) (i := i)).trans ?_
  by_cases hlow : i < 24
  · simp [hlow]
  · simp [hlow, opByte, field, show i - 24 < 8 by omega, show 24 + (i - 24) = i by omega, hi, show 24 ≤ i by omega]

/-- Patterns have bits in the opcode byte only. -/
theorem pattern_high : ∀ r ∈ opcodeTable, r.pattern &&& onesAt 24 8 = r.pattern := by decide +kernel

/-- To be a word without low bits is to have its opcode byte and no low bits. -/
theorem eq_iff_high_low {x p : Word} (hp : p &&& onesAt 24 8 = p) :
    x = p ↔ x &&& onesAt 24 8 = p ∧ x &&& onesAt 0 24 = 0 := by
  constructor
  · rintro rfl
    refine ⟨hp, ?_⟩
    rw [← hp, BitVec.and_assoc, show onesAt 24 8 &&& onesAt 0 24 = 0 by decide]
    exact BitVec.and_zero
  · rintro ⟨hhigh, hlow⟩
    calc x = x &&& (onesAt 24 8 ||| onesAt 0 24) := BitVec.and_allOnes.symm
      _ = p := by rw [BitVec.and_or_distrib_left, hhigh, hlow]; exact BitVec.or_zero

/-- A row accepts a word exactly when it accepts the opcode byte and the other bits it looks at are 0. -/
theorem accepts_iff_opcode {r : Row} (hr : r ∈ opcodeTable) (w : Word) :
    r.accepts w = true ↔ r.accepts (encodeZ (opByte w)) = true ∧ w &&& (r.mask &&& onesAt 0 24) = 0 := by
  rw [Row.accepts, Row.accepts, beq_iff_eq, beq_iff_eq, eq_iff_high_low (pattern_high r hr), encodeZ_of_opByte,
    BitVec.and_assoc, BitVec.and_assoc, BitVec.and_assoc, BitVec.and_comm r.mask (onesAt 24 8)]

/-! ### What the decoder answers (R86, R87) -/

/-- Some row of rule R85 accepts the word. -/
abbrev Accepted (w : Word) : Prop := ∃ r ∈ opcodeTable, r.accepts w = true

/-- The opcode bytes of rule R85's rows. -/
abbrev KnownOpcode (op : Nat) : Prop :=
  (1 ≤ op ∧ op ≤ 0x06) ∨ (0x10 ≤ op ∧ op ≤ 0x29) ∨ (0x30 ≤ op ∧ op ≤ 0x36) ∨ (0x40 ≤ op ∧ op ≤ 0x41)
    ∨ (0x50 ≤ op ∧ op ≤ 0x53) ∨ (0x60 ≤ op ∧ op ≤ 0x61) ∨ (0x70 ≤ op ∧ op ≤ 0x71)

/-- The opcode bytes that fail the selector check of rule R87 (c). -/
abbrev BadBuffer (op : Nat) : Prop := 0x10 ≤ op ∧ op ≤ 0x27 ∧ (op % 4 = 3 ∨ (op % 4 = 2 ∧ op ≤ 0x1B))

/-- The opcode bytes of the rows, counted out. -/
theorem accepted_opcode_iff : ∀ op : Byte, Accepted (encodeZ op) ↔ KnownOpcode op.toNat := by decide +kernel

theorem row_mem_opcodeTable (i : Instr) : i.row ∈ opcodeTable := by
  cases i <;> simp [opcodeTable, oneOfEachRow, Instr.row]

/-- The opcode byte of a word that a row accepts is in a row. -/
theorem known_of_accepted {w : Word} : Accepted w → KnownOpcode (opByte w).toNat :=
  fun ⟨r, hr, haccepts⟩ => (accepted_opcode_iff _).1 ⟨r, hr, ((accepts_iff_opcode hr w).1 haccepts).1⟩

/-- The answers the table and the selector check leave for a word. -/
inductive Reading (w : Word) : Except IllegalWord Instr → Prop where
  | unknownOpcode : ¬ KnownOpcode (opByte w).toNat → Reading w (.error .unknownOpcode)
  | mustBeZero : KnownOpcode (opByte w).toNat → ¬ Accepted w → Reading w (.error .mustBeZero)
  | selector : Accepted w → BadBuffer (opByte w).toNat → Reading w (.error .selector)
  | command (i : Instr) : i.row.accepts w = true → ¬ BadBuffer (opByte w).toNat → Reading w (.ok i)

/-- A format's check of the bits that must be 0 is the check of the row's mask below the opcode byte. -/
theorem reading_checkZero {w : Word} {i : Instr} {lo n : Nat} {d : Except IllegalWord Instr}
    (hopcode : i.row.accepts (encodeZ (opByte w)) = true) (hmask : i.row.mask &&& onesAt 0 24 = onesAt lo n)
    (hn : lo + n ≤ 32) (hd : i.row.accepts w = true → Reading w d) :
    Reading w (if field w lo n = 0 then d else .error .mustBeZero) := by
  have hmem := row_mem_opcodeTable i
  have hiff : i.row.accepts w = true ↔ field w lo n = 0 := by
    rw [accepts_iff_opcode hmem, hmask, field_eq_zero_iff w hn, and_iff_right hopcode]
  split
  · exact hd (hiff.2 ‹_›)
  · refine .mustBeZero ((accepted_opcode_iff _).1 ⟨_, hmem, hopcode⟩) ?_
    rintro ⟨q, hq, haccepts⟩
    obtain rfl := row_eq_of_accepts hq hmem ((accepts_iff_opcode hq w).1 haccepts).1 hopcode
    exact absurd (hiff.1 haccepts) ‹_›

/-! ### The commands of one opcode byte -/

theorem opByte_eq_ofNat {w : Word} {n : Nat} (h : (opByte w).toNat = n) : opByte w = BitVec.ofNat 8 n := by
  rw [← h, BitVec.ofNat_toNat, BitVec.setWidth_eq]

/-- A command of one opcode byte, with the row of any command `j` of the same mnemonic. -/
theorem reading_byOpcode {w : Word} {i j : Instr} {lo n op : Nat} (h : (opByte w).toNat = op) (hrow : i.row = j.row)
    (hopcode : j.row.accepts (encodeZ (BitVec.ofNat 8 op)) = true) (hmask : j.row.mask &&& onesAt 0 24 = onesAt lo n)
    (hn : lo + n ≤ 32) (hbuf : ¬ BadBuffer op) : Reading w (if field w lo n = 0 then .ok i else .error .mustBeZero) :=
  reading_checkZero (opByte_eq_ofNat h ▸ hopcode) hmask hn fun haccepts => .command i (hrow ▸ haccepts) (h ▸ hbuf)

theorem decodeZ_reading {w : Word} {i : Instr} {op : Nat} (h : (opByte w).toNat = op)
    (hopcode : i.row.accepts (encodeZ (BitVec.ofNat 8 op)) = true) (hmask : i.row.mask &&& onesAt 0 24 = onesAt 0 24)
    (hbuf : ¬ BadBuffer op) : Reading w (decodeZ w i) :=
  reading_byOpcode h rfl hopcode hmask (by decide) hbuf

theorem decodeI8_reading {w : Word} {mk : Byte → Instr} {op : Nat} (h : (opByte w).toNat = op)
    (hrow : ∀ b, (mk b).row = (mk 0).row) (hopcode : (mk 0).row.accepts (encodeZ (BitVec.ofNat 8 op)) = true)
    (hmask : (mk 0).row.mask &&& onesAt 0 24 = onesAt 8 16) (hbuf : ¬ BadBuffer op) : Reading w (decodeI8 w mk) :=
  reading_byOpcode h (hrow _) hopcode hmask (by decide) hbuf

theorem decodeByOpcode_reading {w : Word} (hop : (opByte w).toNat < 0x10 ∨ 0x28 ≤ (opByte w).toNat) :
    Reading w (decodeByOpcode w) := by
  unfold decodeByOpcode
  split
  -- format I8: COUNT, RDFT, RDSYM, RDFREQ and PACK; format IP: CGET; no row; format Z: the other 19
  case h_9 h | h_10 h | h_13 h | h_14 h | h_22 h => exact decodeI8_reading h (fun _ => rfl) rfl rfl (by decide)
  case h_15 h => exact reading_byOpcode (j := .cget 0 0) h rfl rfl rfl (by decide) (by decide)
  case h_26 =>
    simp only [imp_false] at *
    exact .unknownOpcode (by unfold KnownOpcode; omega)
  all_goals exact decodeZ_reading ‹_› rfl rfl (by decide)

/-! ### The buffer commands -/

/-- `op6` is the six high bits of the opcode byte (R83). -/
theorem op6_toNat (w : Word) : (op6 w).toNat = (opByte w).toNat / 4 := by
  rw [op6, opByte, field_toNat, field_toNat]
  omega

/-- The buffer selector is the two low bits of the opcode byte (R83). -/
theorem selector_toNat (w : Word) : (field w 24 2).toNat = (opByte w).toNat % 4 := by
  rw [opByte, field_toNat, field_toNat]
  omega

/-- Selector 3 is the only one that names no buffer. -/
theorem selector_cases (sel : BitVec 2) : sel = 3 ∨ ∃ buf : Buf, sel = buf.selector := by
  have hall : ∀ x : BitVec 2, x = 3 ∨ x = Buf.hdr.selector ∨ x = Buf.pay.selector ∨ x = Buf.out.selector := by decide
  rcases hall sel with h | h | h | h
  exacts [.inl h, .inr ⟨_, h⟩, .inr ⟨_, h⟩, .inr ⟨_, h⟩]

/-- The selector check of a buffer command: selector 3 names no buffer, and selector 2 names OUT, which is refused exactly to
the writing commands, those with `op6` below 7. -/
theorem withBuffer_reading {w : Word} {mk : Buf → Instr} {k : Nat} (h : (op6 w).toNat = k) (hk : 4 ≤ k ∧ k ≤ 9)
    (hwf : ∀ buf, (mk buf).wf = (decide (7 ≤ k) || buf.hostWritable))
    (haccepts : ∀ buf, (mk buf).row.accepts w = true) : Reading w (withBuffer w mk) := by
  rw [op6_toNat] at h
  have hsel := selector_toNat w
  rcases selector_cases (field w 24 2) with hthree | ⟨buf, hbuf⟩
  · rw [hthree] at hsel
    rw [withBuffer, hthree]
    exact .selector ⟨_, row_mem_opcodeTable _, haccepts .hdr⟩ ⟨by omega, by omega, .inl hsel.symm⟩
  · rw [hbuf] at hsel
    have hbad : BadBuffer (opByte w).toNat ↔ ¬ (mk buf).wf = true := by
      rw [hwf]
      cases buf <;> simp [Buf.selector, Buf.hostWritable] at hsel ⊢ <;> omega
    simp only [withBuffer, hbuf, bufOfSelector_selector]
    split
    · exact .command _ (haccepts buf) (mt hbad.1 (not_not.2 ‹_›))
    · exact .selector ⟨_, row_mem_opcodeTable _, haccepts buf⟩ (hbad.2 ‹_›)

/-- A buffer command, with the row of any command `j` of the same mnemonic: the bits that must be 0 are checked first, then the
selector. -/
theorem reading_buffer {w : Word} {mk : Buf → Instr} {j : Instr} {k lo n : Nat} (h : (op6 w).toNat = k)
    (hk : 4 ≤ k ∧ k ≤ 9) (hrow : ∀ buf, (mk buf).row = j.row)
    (hwf : ∀ buf, (mk buf).wf = (decide (7 ≤ k) || buf.hostWritable))
    (hopcode : ∀ sel < 4, j.row.accepts (encodeZ (BitVec.ofNat 8 (4 * k + sel))) = true)
    (hmask : j.row.mask &&& onesAt 0 24 = onesAt lo n) (hn : lo + n ≤ 32) :
    Reading w (if field w lo n = 0 then withBuffer w mk else .error .mustBeZero) := by
  have hop : (opByte w).toNat = 4 * k + (opByte w).toNat % 4 := by
    rw [← h, op6_toNat]
    omega
  refine reading_checkZero ?_ hmask hn fun haccepts => withBuffer_reading h hk hwf fun buf => hrow buf ▸ haccepts
  rw [opByte_eq_ofNat hop]
  exact hopcode _ (Nat.mod_lt _ (by decide))

/-- The buffer commands that read at a position have no bits that must be 0: an empty field stands for them. -/
theorem decodeBP_reading {w : Word} {mk : Buf → BitVec 24 → Instr} {j : Instr} {k : Nat} (h : (op6 w).toNat = k)
    (hk : 7 ≤ k ∧ k ≤ 9) (hrow : ∀ buf pos, (mk buf pos).row = j.row) (hwf : ∀ buf pos, (mk buf pos).wf = true)
    (hopcode : ∀ sel < 4, j.row.accepts (encodeZ (BitVec.ofNat 8 (4 * k + sel))) = true)
    (hmask : j.row.mask &&& onesAt 0 24 = 0) : Reading w (decodeBP w mk) := by
  have hread := reading_buffer (mk := fun buf => mk buf (field w 0 24)) (lo := 24) (n := 0) h (by omega)
    (fun buf => hrow buf _) (fun buf => by simp [hwf, hk.1]) hopcode hmask (by decide)
  rwa [if_pos (Subsingleton.elim _ _)] at hread

/-- The decoder answers every word as the table and the selector check leave it (R86, R87). -/
theorem decode_reading (w : Word) : Reading w (decode w) := by
  unfold decode
  split
  case h_1 h =>
    exact reading_buffer (j := .bapp .hdr false) h (by decide) (fun _ => rfl) (fun _ => rfl) (by decide) rfl (by decide)
  case h_2 h =>
    exact reading_buffer (j := .bappb .hdr 0) h (by decide) (fun _ => rfl) (fun _ => rfl) (by decide) rfl (by decide)
  case h_3 h =>
    exact reading_buffer (j := .btrim .hdr) h (by decide) (fun _ => rfl) (fun _ => rfl) (by decide) rfl (by decide)
  case h_4 h =>
    exact reading_buffer (j := .blen .hdr) h (by decide) (fun _ => rfl) (fun _ => rfl) (by decide) rfl (by decide)
  case h_5 h =>
    exact decodeBP_reading (j := .bget .hdr 0) h (by decide) (fun _ _ => rfl) (fun _ _ => rfl) (by decide) rfl
  case h_6 h =>
    exact decodeBP_reading (j := .brdb .hdr 0) h (by decide) (fun _ _ => rfl) (fun _ _ => rfl) (by decide) rfl
  case h_7 =>
    simp only [op6_toNat, imp_false] at *
    exact decodeByOpcode_reading (by omega)

/-! ### The obligations -/

/-- Settles O4: the row that accepts a word is the row of the command it decodes to, since no other row accepts it. -/
theorem decodeFollowsOpcodeTable : Obligations.DecodeFollowsOpcodeTable := by
  intro w
  have hread := decode_reading w
  generalize decode w = d at hread ⊢
  cases hread with
  | unknownOpcode h =>
    exact ⟨fun r hr ha => absurd (known_of_accepted ⟨r, hr, ha⟩) h, fun _ => ⟨_, rfl, nofun⟩, nofun⟩
  | mustBeZero _ h =>
    exact ⟨fun r hr ha => absurd ⟨r, hr, ha⟩ h, fun _ => ⟨_, rfl, nofun⟩, nofun⟩
  | selector h _ =>
    obtain ⟨r, hr, ha⟩ := h
    exact ⟨fun _ _ _ => .inr rfl, fun hnone => absurd ha (by simp [hnone r hr]), nofun⟩
  | command i ha _ =>
    have hmem := row_mem_opcodeTable i
    refine ⟨fun r hr har => .inl ⟨i, rfl, row_eq_of_accepts hmem hr ha har⟩,
      fun hnone => absurd ha (by simp [hnone _ hmem]), ?_⟩
    rintro _ ⟨⟩
    exact ⟨hmem, ha⟩

/-- Settles O6: each class of answer comes with the conditions that exclude the other three. -/
theorem illegalWordsExactly : Obligations.IllegalWordsExactly := by
  intro w
  show (decode w = .error .unknownOpcode ↔ ¬ KnownOpcode (opByte w).toNat)
    ∧ (decode w = .error .mustBeZero ↔ KnownOpcode (opByte w).toNat ∧ ¬ Accepted w)
    ∧ (decode w = .error .selector ↔ Accepted w ∧ BadBuffer (opByte w).toNat)
    ∧ ((∃ i, decode w = .ok i) ↔ Accepted w ∧ ¬ BadBuffer (opByte w).toNat)
  have hread := decode_reading w
  generalize decode w = d at hread ⊢
  cases hread with
  | unknownOpcode h => simp [h, mt known_of_accepted h]
  | mustBeZero hk h => simp [hk, h]
  | selector h hb => simp [h, eq_true hb, known_of_accepted h]
  | command i ha hb =>
    have h : Accepted w := ⟨_, row_mem_opcodeTable i, ha⟩
    simp [h, hb, known_of_accepted h]

end Sys2Proof
end

section
/-! SUPPORT. How a command and an illegal word end (30_encoding.md rules R86, R89; 60_exceptions.md rules R224, R225). -/

namespace Sys2Proof.Machine

open Sys2Proof.Safety

/-- A command's next state has one more response: OK, or a fault. (A response with status OK is an answer in either form.) -/
theorem exec_next_cases {i : Instr} {s t : State} (h : exec i s = .next t) :
    (∃ d b, t = answered s d b) ∨ ∃ f, f ≠ .ok ∧ t = faulted s f := by
  obtain ⟨r, hr⟩ := exec_conclude i s
  rcases conclude_next (hr ▸ h) with ⟨d, b, -, ht⟩ | ⟨f, -, ht⟩
  · exact .inl ⟨_, b, ht⟩
  · by_cases hf : f = .ok
    · exact .inl ⟨0, s.blk, by rw [ht, hf, faulted_ok]⟩
    · exact .inr ⟨f, hf, ht⟩

theorem exec_ne_refused (i : Instr) (s : State) (x : Refusal) : exec i s ≠ .refused x := by
  obtain ⟨r, hr⟩ := exec_conclude i s
  rw [hr]
  rcases conclude_cases s r with ⟨d, b, -, e⟩ | ⟨f, -, e⟩ | ⟨y, -, e⟩ <;> rw [e] <;> exact nofun

/-- Settles O11: in a state that meets the invariant there is a next state, and a next state is of one of the two kinds. -/
theorem everyCommandAnswersOnce : Obligations.EveryCommandAnswersOnce := by
  refine fun i s => ⟨exec_ne_refused i s, fun t => exec_next_cases, fun hinv => ?_⟩
  obtain ⟨t, ht⟩ := exec_answers hinv i
  rcases exec_next_cases ht with ⟨d, b, rfl⟩ | ⟨f, hf, rfl⟩
  · exact .inl ⟨d, b, ht⟩
  · exact .inr ⟨f, hf, ht⟩

/-- Settles O8, by the law of the step that takes a word that is no command. -/
theorem illegalWordFaults : Obligations.IllegalWordFaults :=
  fun _ _ _ _ hpending hdecode => step_illegal hpending hdecode

end Sys2Proof.Machine
end

section
/-! SUPPORT. The words of the bit buffer commands (30_encoding.md rules R83, R87 (c), R90): the number of each, and that one
which names OUT in a writing command is refused by the selector check. -/

namespace Sys2Proof

/-! ### The number of a word -/

theorem encodeB0_toNat (op : BitVec 6) (buf : Buf) :
    (encodeB op buf 0).toNat = op.toNat * 2 ^ 26 + buf.selector.toNat * 2 ^ 24 := by
  simp [encodeB_toNat]

theorem encodeB1_toNat (op : BitVec 6) (buf : Buf) (bit : Bool) :
    (encodeB op buf ((0 : BitVec 23) ++ BitVec.ofBool bit)).toNat
      = op.toNat * 2 ^ 26 + buf.selector.toNat * 2 ^ 24 + bit.toNat := by
  have hlow : ((0 : BitVec 23) ++ BitVec.ofBool bit).toNat = bit.toNat := (append_toNat _ _).trans (by simp)
  exact (encodeB_toNat _ _ _).trans (by rw [hlow])

theorem encodeB8_toNat (op : BitVec 6) (buf : Buf) (byte : Byte) :
    (encodeB op buf ((0 : BitVec 16) ++ byte)).toNat
      = op.toNat * 2 ^ 26 + buf.selector.toNat * 2 ^ 24 + byte.toNat := by
  have hlow : ((0 : BitVec 16) ++ byte).toNat = byte.toNat := (append_toNat _ _).trans (by simp)
  exact (encodeB_toNat _ _ _).trans (by rw [hlow])

/-! ### The selector check -/

/-- The buffer of an encoded word is the one it was encoded with, and the selector check is `Instr.wf`. -/
theorem withBuffer_encodeB (op : BitVec 6) (buf : Buf) (low : BitVec 24) (mk : Buf → Instr) :
    withBuffer (encodeB op buf low) mk = if (mk buf).wf then .ok (mk buf) else .error .selector := by
  rw [withBuffer, encodeB_selector, bufOfSelector_selector]

theorem decode_bapp_out (bit : Bool) : decode (encode (.bapp .out bit)) = .error .selector := by
  rw [encode, decode, encodeB_op6]
  exact (if_pos (encodeB1_zero _ _ _)).trans (withBuffer_encodeB _ _ _ _)

theorem decode_bappb_out (byte : Byte) : decode (encode (.bappb .out byte)) = .error .selector := by
  rw [encode, decode, encodeB_op6]
  exact (if_pos (encodeB8_zero _ _ _)).trans (withBuffer_encodeB _ _ _ _)

theorem decode_btrim_out : decode (encode (.btrim .out)) = .error .selector := by
  rw [encode, decode, encodeB_op6]
  exact (if_pos (encodeB_low _ _ _)).trans (withBuffer_encodeB _ _ _ _)

end Sys2Proof
end

section
/-! SUPPORT. The bit buffer commands (40_bitbuffer.md): the writing commands share their first two checks, the appending ones the
check for room as well, the reading ones answer in every phase, and the releases share their phase check. -/

namespace Sys2Proof.Machine

open Sys2Proof.Safety

/-! ### The writing commands (section 2) -/

/-- The checks that the writing commands make first, in the order of 60_exceptions.md rule R227, and then `r`. -/
def hostWrite (s : State) (buf : Buf) (r : Result) : Result :=
  if buf.hostWritable = false then raise .illegalCommand
  else if s.blk.phase ≠ .idle then raise .protocolMisuse
  else r

theorem hostWrite_of_ne_idle {s : State} {buf : Buf} (hbuf : buf ≠ .out) (hp : s.blk.phase ≠ .idle) (r : Result) :
    hostWrite s buf r = raise .protocolMisuse := by
  cases buf with
  | out => exact absurd rfl hbuf
  | hdr | pay => exact if_pos hp

theorem hostWrite_of_idle {s : State} {buf : Buf} (hbuf : buf ≠ .out) (hp : s.blk.phase = .idle) (r : Result) :
    hostWrite s buf r = r := by
  cases buf with
  | out => exact absurd rfl hbuf
  | hdr | pay => exact if_neg (not_not.2 hp)

/-- Appending bits at a buffer's end: all of them, or AllocationFailure (rule R110). -/
def appendBits (s : State) (buf : Buf) (bits : Bits) : Result :=
  if (s.blk.buffer buf).length + bits.length > capacity s.cfg buf then raise .allocationFailure
  else finishOk 0 (s.blk.setBuffer buf (s.blk.buffer buf ++ bits))

theorem exec_bapp (buf : Buf) (bit : Bool) (s : State) :
    exec (.bapp buf bit) s = s.conclude (hostWrite s buf (appendBits s buf [bit])) := rfl

theorem exec_bappb (buf : Buf) (v : Byte) (s : State) :
    exec (.bappb buf v) s = s.conclude (hostWrite s buf (appendBits s buf (bitsOf v.toNat 8))) := rfl

theorem exec_btrim (buf : Buf) (s : State) :
    exec (.btrim buf) s = s.conclude (hostWrite s buf
      (if (s.blk.buffer buf).length = 0 then raise .outOfRange
        else finishOk 0 (s.blk.setBuffer buf (s.blk.buffer buf).dropLast))) := rfl

section
variable {s : State} (buf : Buf) (bits : Bits)

/-- A writing command outside Idle faults, whatever it would write. -/
theorem conclude_hostWrite_of_ne_idle (hbuf : buf ≠ .out) (hp : s.blk.phase ≠ .idle) (r : Result) :
    s.conclude (hostWrite s buf r) = .next (faulted s .protocolMisuse) := by
  rw [hostWrite_of_ne_idle hbuf hp, conclude_raise]

theorem conclude_append_full (hbuf : buf ≠ .out) (hp : s.blk.phase = .idle)
    (hfull : capacity s.cfg buf < (s.blk.buffer buf).length + bits.length) :
    s.conclude (hostWrite s buf (appendBits s buf bits)) = .next (faulted s .allocationFailure) := by
  rw [hostWrite_of_idle hbuf hp, appendBits, if_pos hfull, conclude_raise]

theorem conclude_append_room (hbuf : buf ≠ .out) (hp : s.blk.phase = .idle)
    (hroom : (s.blk.buffer buf).length + bits.length ≤ capacity s.cfg buf) :
    s.conclude (hostWrite s buf (appendBits s buf bits))
      = .next (answered s 0 (s.blk.setBuffer buf (s.blk.buffer buf ++ bits))) := by
  rw [hostWrite_of_idle hbuf hp, appendBits, if_neg (not_lt.2 hroom)]
  rfl

theorem exec_btrim_empty (hbuf : buf ≠ .out) (hp : s.blk.phase = .idle) (hempty : s.blk.buffer buf = []) :
    exec (.btrim buf) s = .next (faulted s .outOfRange) := by
  rw [exec_btrim, hostWrite_of_idle hbuf hp, hempty, if_pos List.length_nil, conclude_raise]

theorem exec_btrim_concat (hbuf : buf ≠ .out) (hp : s.blk.phase = .idle) {m : Bits} {b : Bool}
    (hlast : s.blk.buffer buf = m ++ [b]) : exec (.btrim buf) s = .next (answered s 0 (s.blk.setBuffer buf m)) := by
  rw [exec_btrim, hostWrite_of_idle hbuf hp, hlast, if_neg (by simp), List.dropLast_concat]
  rfl

end

/-- Settles O19: one bit appended under the checks of the writing commands. -/
theorem bappAppendsBit : Obligations.BappAppendsBit := by
  refine fun s bit => ⟨fun buf hbuf hp => conclude_hostWrite_of_ne_idle buf hbuf hp _, fun hp => ?_, decode_bapp_out bit,
    fun buf => encodeB1_toNat 0x04 buf bit⟩
  simp only [exec_bapp]
  exact ⟨conclude_append_full .hdr [bit] nofun hp, conclude_append_room .hdr [bit] nofun hp,
    conclude_append_full .pay [bit] nofun hp, conclude_append_room .pay [bit] nofun hp⟩

/-- `BitsOf(v, 8)` lists the byte's eight bits, most significant first (rule R102). -/
theorem bitsOf_byte (v : Byte) :
    bitsOf v.toNat 8 = [v.getLsbD 7, v.getLsbD 6, v.getLsbD 5, v.getLsbD 4, v.getLsbD 3, v.getLsbD 2, v.getLsbD 1,
      v.getLsbD 0] := rfl

/-- Settles O20: the byte's eight bits are appended like a single one, under the same checks. -/
theorem bappbAppendsByte : Obligations.BappbAppendsByte := by
  intro s v bits
  refine ⟨fun buf hbuf hp => conclude_hostWrite_of_ne_idle buf hbuf hp _, fun hp => ?_, decode_bappb_out v,
    fun buf => encodeB8_toNat 0x05 buf v⟩
  simp only [exec_bappb, show bitsOf v.toNat 8 = bits from bitsOf_byte v]
  exact ⟨conclude_append_full .hdr bits nofun hp, conclude_append_room .hdr bits nofun hp,
    conclude_append_full .pay bits nofun hp, conclude_append_room .pay bits nofun hp⟩

/-- Settles O21: an empty buffer has no last bit, and any other is its last bit behind the rest. -/
theorem btrimRemovesLastBit : Obligations.BtrimRemovesLastBit :=
  fun _ => ⟨fun buf hbuf hp => conclude_hostWrite_of_ne_idle buf hbuf hp _,
    fun hp => ⟨exec_btrim_empty .hdr nofun hp, fun _ _ => exec_btrim_concat .hdr nofun hp,
      exec_btrim_empty .pay nofun hp, fun _ _ => exec_btrim_concat .pay nofun hp⟩,
    decode_btrim_out, fun buf => encodeB0_toNat 0x06 buf⟩

/-! ### The reading commands (section 3) -/

theorem exec_blen (buf : Buf) (s : State) :
    exec (.blen buf) s = .next (answered s (BitVec.ofNat 32 (s.blk.buffer buf).length) s.blk) := rfl

/-- Settles O22: BLEN has no check. -/
theorem blenReadsBitCount : Obligations.BlenReadsBitCount :=
  fun s => ⟨exec_blen .hdr s, exec_blen .pay s, exec_blen .out s, fun buf => encodeB0_toNat 0x07 buf⟩

theorem exec_bget_beyond {s : State} {buf : Buf} {pos : BitVec 24} (h : (s.blk.buffer buf).length ≤ pos.toNat) :
    exec (.bget buf pos) s = .next (faulted s .outOfRange) := by
  show execBget buf pos s = _
  rw [execBget, List.getElem?_eq_none h, conclude_raise]

theorem exec_bget_within {s : State} {buf : Buf} {pos : BitVec 24} (h : pos.toNat < (s.blk.buffer buf).length) :
    exec (.bget buf pos) s = .next (answered s (if (s.blk.buffer buf)[pos.toNat] then 1 else 0) s.blk) := by
  show execBget buf pos s = _
  rw [execBget, List.getElem?_eq_getElem h]
  cases (s.blk.buffer buf)[pos.toNat] <;> rfl

/-- Settles O23: the position is below the bit count or not. -/
theorem bgetReadsBit : Obligations.BgetReadsBit :=
  fun _ buf pos => ⟨exec_bget_beyond, exec_bget_within, encodeB_toNat 0x08 buf pos⟩

theorem lt_nBytes_iff {m : Bits} {j : Nat} : j < nBytes m ↔ 8 * j < m.length := by
  obtain ⟨hlt, hle⟩ := nBytes_bounds m
  omega

theorem exec_brdb_beyond {s : State} {buf : Buf} {idx : BitVec 24} (h : (s.blk.buffer buf).length ≤ 8 * idx.toNat) :
    exec (.brdb buf idx) s = .next (faulted s .outOfRange) := by
  show execBrdb buf idx s = _
  rw [execBrdb, if_pos (not_lt.1 (mt lt_nBytes_iff.1 (not_lt.2 h))), conclude_raise]

theorem exec_brdb_within {s : State} {buf : Buf} {idx : BitVec 24} (h : 8 * idx.toNat < (s.blk.buffer buf).length) :
    exec (.brdb buf idx) s = .next (answered s ((byteView (s.blk.buffer buf) idx.toNat).setWidth 32) s.blk) := by
  show execBrdb buf idx s = _
  rw [execBrdb, if_neg (not_le.2 (lt_nBytes_iff.2 h)), conclude_ok, BitVec.ofNat_toNat]

/-- Settles O24: the data is the byte of the byte view, zero extended, and its bits are those of the buffer. -/
theorem brdbReadsByte : Obligations.BrdbReadsByte := by
  refine fun s buf idx => ⟨exec_brdb_beyond, fun h => ⟨_, exec_brdb_within h, ?_, fun t ht => ?_⟩,
    encodeB_toNat 0x09 buf idx⟩
  · rw [BitVec.toNat_setWidth_of_le (by decide)]
    exact BitVec.isLt _
  · rw [BitVec.getLsbD_setWidth, decide_eq_true (by omega), Bool.true_and]
    exact byteView_getLsbD _ _ ht

/-! ### The release commands (section 4) -/

/-- The phase check that RELENC and RELDEC share, and then `r`. -/
def releaseGuard (s : State) (r : Result) : Result :=
  if s.blk.phase ≠ .idle ∧ s.blk.phase ≠ .done then raise .protocolMisuse else r

theorem exec_relenc (s : State) :
    exec .relenc s = s.conclude (releaseGuard s (finishOk 0 { s.blk with hdr := [], pay := [] })) := rfl

theorem exec_reldec (s : State) : exec .reldec s = s.conclude (releaseGuard s (finishOk 0 { s.blk with out := [] })) := rfl

theorem releaseGuard_of_allowed {s : State} (h : s.blk.phase = .idle ∨ s.blk.phase = .done) (r : Result) :
    releaseGuard s r = r :=
  if_neg fun ⟨hidle, hdone⟩ => h.elim hidle hdone

theorem releaseGuard_of_not_allowed {s : State} (hidle : s.blk.phase ≠ .idle) (hdone : s.blk.phase ≠ .done) (r : Result) :
    releaseGuard s r = raise .protocolMisuse :=
  if_pos ⟨hidle, hdone⟩

/-- Settles O25: both releases by the phase check they share. -/
theorem releaseEmptiesBuffers : Obligations.ReleaseEmptiesBuffers := by
  refine ⟨by decide, by decide, fun s => ⟨fun h => ?_, fun hidle hdone => ?_⟩⟩
  · rw [exec_relenc, exec_reldec, releaseGuard_of_allowed h, releaseGuard_of_allowed h]
    exact ⟨rfl, rfl⟩
  · rw [exec_relenc, exec_reldec, releaseGuard_of_not_allowed hidle hdone, releaseGuard_of_not_allowed hidle hdone]
    exact ⟨rfl, rfl⟩

end Sys2Proof.Machine
end

section
/-! SUPPORT. The frequency table and alphabet commands (41_frequency_alphabet.md): COUNT and MKALPHA under their guards, and the
reading commands, of which those that take an index share the check that the alphabet has the entry. -/

namespace Sys2Proof.Machine

open Sys2Proof.Safety

/-! ### MKALPHA (rule R122) -/

/-- The entries MKALPHA makes are those counted, strictly in order (a). -/
theorem sortedEntries_pairwise (ft : Vector Nat 256) : ((countedEntries ft).insertionSort orderA).Pairwise ltA :=
  ltA_of_orderA (insertionSort_orderA_pairwise _) (counts_syms_nodup ((List.perm_insertionSort orderA _).map _))

theorem mem_sortedEntries (b : Block) (e : Entry) :
    e ∈ (countedEntries b.ft).insertionSort orderA
      ↔ e.code = [] ∧ 0 < b.counter e.sym ∧ e.freq = b.counter e.sym :=
  (List.mem_insertionSort orderA).trans (mem_countedEntries b e)

section
variable {s : State}

theorem exec_mkalpha_populated (halpha : s.blk.alpha ≠ []) :
    exec .mkalpha s = .next (faulted s .alphabetAlreadyPopulated) := by
  show execMkalpha s = _
  rw [execMkalpha, if_pos (mt List.length_eq_zero_iff.1 halpha), conclude_raise]

theorem exec_mkalpha_of_ne_idle (halpha : s.blk.alpha = []) (hp : s.blk.phase ≠ .idle) :
    exec .mkalpha s = .next (faulted s .protocolMisuse) := by
  show execMkalpha s = _
  rw [execMkalpha, if_neg (not_not.2 (List.length_eq_zero_iff.2 halpha)), if_pos hp, conclude_raise]

theorem exec_mkalpha_of_idle (halpha : s.blk.alpha = []) (hp : s.blk.phase = .idle) :
    exec .mkalpha s = .next (answered s 0
      { s.blk with alpha := (countedEntries s.blk.ft).insertionSort orderA, phase := .alphabetBuilt }) := by
  show execMkalpha s = _
  rw [execMkalpha, if_neg (not_not.2 (List.length_eq_zero_iff.2 halpha)), if_neg (not_not.2 hp), conclude_ok]
  rfl

end

/-- Settles O28: the sorted counted entries, which have distinct symbols. -/
theorem mkalphaBuildsSortedAlphabet : Obligations.MkalphaBuildsSortedAlphabet :=
  ⟨by decide, fun s => ⟨exec_mkalpha_populated, exec_mkalpha_of_ne_idle, fun halpha hp =>
    ⟨_, exec_mkalpha_of_idle halpha hp, sortedEntries_pairwise s.blk.ft, mem_sortedEntries s.blk⟩⟩⟩

/-! ### The commands that read an entry (rules R124 to R126) -/

/-- The check that the commands with an index make first, OutOfRange at or beyond ALPHA_N, and then what `r` reads. -/
def readEntry (s : State) (i : Byte) (r : Entry → Result) : Result :=
  match s.blk.entry i.toNat with
  | none => raise .outOfRange
  | some e => r e

/-- The bit that CGET reads of an entry's code. -/
def readCodeBit (s : State) (pos : Byte) (e : Entry) : Result :=
  match e.code[pos.toNat]? with
  | none => raise .outOfRange
  | some bit => finishOk bit.toNat s.blk

theorem exec_rdsym (i : Byte) (s : State) :
    exec (.rdsym i) s
      = s.conclude (readEntry s i fun e => finishOk (e.code.length <<< 8 ||| e.sym.toNat) s.blk) := rfl

theorem exec_rdfreq (i : Byte) (s : State) :
    exec (.rdfreq i) s = s.conclude (readEntry s i fun e => finishOk e.freq s.blk) := rfl

theorem exec_cget (i pos : Byte) (s : State) :
    exec (.cget i pos) s = s.conclude (readEntry s i (readCodeBit s pos)) := rfl

section
variable {s : State} {i : Byte}

theorem conclude_readEntry_beyond (r : Entry → Result) (h : s.blk.alpha.length ≤ i.toNat) :
    s.conclude (readEntry s i r) = .next (faulted s .outOfRange) := by
  rw [readEntry, Block.entry, List.getElem?_eq_none h, conclude_raise]

theorem readEntry_within (r : Entry → Result) (h : i.toNat < s.blk.alpha.length) :
    readEntry s i r = r s.blk.alpha[i.toNat] := by
  rw [readEntry, Block.entry, List.getElem?_eq_getElem h]

theorem conclude_readCodeBit_beyond {pos : Byte} {e : Entry} (h : e.code.length ≤ pos.toNat) :
    s.conclude (readCodeBit s pos e) = .next (faulted s .outOfRange) := by
  rw [readCodeBit, List.getElem?_eq_none h, conclude_raise]

theorem conclude_readCodeBit_within {pos : Byte} {e : Entry} (h : pos.toNat < e.code.length) :
    s.conclude (readCodeBit s pos e) = .next (answered s (if e.code[pos.toNat] then 1 else 0) s.blk) := by
  rw [readCodeBit, List.getElem?_eq_getElem h]
  cases e.code[pos.toNat] <;> rfl

end

/-- The symbol fills the low eight bits, so RDSYM's data is the code length times 256, plus the symbol. -/
theorem shiftLeft_or_byte (n : Nat) (v : Byte) : n <<< 8 ||| v.toNat = 256 * n + v.toNat := by
  rw [← Nat.shiftLeft_add_eq_or_of_lt v.isLt, Nat.shiftLeft_eq, Nat.mul_comm]

/-- Settles O29: the index is below ALPHA_N or not. -/
theorem rdsymReadsSymbolAndLength : Obligations.RdsymReadsSymbolAndLength := by
  refine fun s i => ⟨conclude_readEntry_beyond _, fun h => ?_, encodeI8_toNat 0x34 i⟩
  rw [exec_rdsym, readEntry_within _ h, shiftLeft_or_byte, conclude_ok]

/-- Settles O30: the index is below ALPHA_N or not. -/
theorem rdfreqReadsFrequency : Obligations.RdfreqReadsFrequency := by
  refine fun s i => ⟨conclude_readEntry_beyond _, fun h => ?_, encodeI8_toNat 0x35 i⟩
  rw [exec_rdfreq, readEntry_within _ h, conclude_ok]

/-- Settles O31: of an entry that exists the position is below the code length or not. -/
theorem cgetReadsCodeBit : Obligations.CgetReadsCodeBit := by
  refine fun s i pos => ⟨conclude_readEntry_beyond _, fun h => ?_, encodeIP_toNat 0x36 i pos⟩
  rw [exec_cget, readEntry_within _ h]
  exact ⟨conclude_readCodeBit_beyond, conclude_readCodeBit_within⟩

/-! ### The counters (rules R120, R121) and the number of entries (rule R123) -/

section
variable {s : State} {b : Byte}

theorem exec_count_of_ne_idle (hp : s.blk.phase ≠ .idle) : exec (.count b) s = .next (faulted s .protocolMisuse) := by
  show execCount b s = _
  rw [execCount, if_pos hp, conclude_raise]

theorem exec_count_full (hp : s.blk.phase = .idle) (hfull : s.blk.counter b = 2 ^ s.cfg.freqW - 1) :
    exec (.count b) s = .next (faulted s .allocationFailure) := by
  show execCount b s = _
  rw [execCount, if_neg (not_not.2 hp), if_pos hfull, conclude_raise]

theorem exec_count_room (hp : s.blk.phase = .idle) (hroom : s.blk.counter b ≠ 2 ^ s.cfg.freqW - 1) :
    exec (.count b) s = .next (answered s 0 (s.blk.setCounter b (s.blk.counter b + 1))) := by
  show execCount b s = _
  rw [execCount, if_neg (not_not.2 hp), if_neg hroom, conclude_ok]
  rfl

end

/-- Settles O26: a counter reads what was last written to it, and COUNT writes one. -/
theorem countIncrementsOneCounter : Obligations.CountIncrementsOneCounter :=
  fun s b => ⟨exec_count_of_ne_idle, exec_count_full,
    fun hp hroom => ⟨(s.blk.setCounter b (s.blk.counter b + 1)).ft, exec_count_room hp hroom,
      fun v => counter_setCounter s.blk b v _⟩,
    encodeI8_toNat 0x30 b⟩

theorem exec_rdft (b : Byte) (s : State) :
    exec (.rdft b) s = .next (answered s (BitVec.ofNat 32 (s.blk.counter b)) s.blk) := rfl

theorem exec_nsym (s : State) :
    exec .nsym s = .next (answered s (BitVec.ofNat 32 s.blk.alpha.length) s.blk) := rfl

/-- Settles O27: RDFT and NSYM have no check. -/
theorem counterAndSizeReads : Obligations.CounterAndSizeReads :=
  fun s b => ⟨exec_rdft b s, exec_nsym s, encodeI8_toNat 0x31 b, by decide⟩

end Sys2Proof.Machine
end

section
/-! SUPPORT. The priority queue (42_tree_builder.md rules R140 to R142): the comparator by frequency and symbol, and what the two
sifts keep of the heap property while one slot breaks it. -/

namespace Sys2Proof.Machine

open Sys2Proof.Safety

/-! ### The comparator on node numbers (rule R140) -/

/-- The symbol of node `n`: none for an internal node, for a leaf of no entry and beyond the arena. -/
def Block.symbolOf (b : Block) (n : Nat) : Option Byte := (b.nodes[n]?).bind (Node.symbol b.alpha)

theorem symbolOf_of_getElem? {b : Block} {n : Nat} {x : Node} (h : b.nodes[n]? = some x) :
    b.symbolOf n = x.symbol b.alpha := by
  rw [Block.symbolOf, h, Option.bind_some]

theorem lt_length_of_symbolOf {b : Block} {n : Nat} {v : Byte} (h : b.symbolOf n = some v) : n < b.nodes.length := by
  obtain ⟨x, hx, -⟩ := Option.bind_eq_some_iff.1 h
  exact (List.getElem?_eq_some_iff.1 hx).1

/-- Everything that makes a node number less than another (R140). -/
theorem less_iff {b : Block} {p q : Nat} :
    b.less p q = true ↔ p < b.nodes.length ∧ q < b.nodes.length
      ∧ (freqAt b.nodes p < freqAt b.nodes q
        ∨ (freqAt b.nodes p = freqAt b.nodes q
          ∧ ∃ u v, b.symbolOf p = some u ∧ b.symbolOf q = some v ∧ u.toNat < v.toNat)) := by
  by_cases hp : p < b.nodes.length
  · by_cases hq : q < b.nodes.length
    · have hx := List.getElem?_eq_getElem hp
      have hy := List.getElem?_eq_getElem hq
      simp only [less_of_nodes hx hy, nodeLess_iff, freqAt_of_getElem? hx, freqAt_of_getElem? hy, symbolOf_of_getElem? hx,
        symbolOf_of_getElem? hy, hp, hq, true_and]
    · simp [Block.less, hq]
  · simp [Block.less, hp]

theorem less_of_freqAt_lt {b : Block} {p q : Nat} (hp : p < b.nodes.length) (hq : q < b.nodes.length)
    (h : freqAt b.nodes p < freqAt b.nodes q) : b.less p q = true := less_iff.2 ⟨hp, hq, .inl h⟩

theorem freqAt_le_of_not_less {b : Block} {p q : Nat} (hp : p < b.nodes.length) (hq : q < b.nodes.length)
    (h : b.less p q = false) : freqAt b.nodes q ≤ freqAt b.nodes p := by
  by_contra hlt
  rw [less_of_freqAt_lt hp hq (Nat.lt_of_not_le hlt)] at h
  cases h

/-- Being no less passes on across a node that has a symbol; across an internal node of the same frequency it may not. -/
theorem not_less_across_symbol {b : Block} {p q r : Nat} (hq : (b.symbolOf q).isSome) (h1 : b.less p q = false)
    (h2 : b.less q r = false) : b.less p r = false := by
  obtain ⟨v, hv⟩ := Option.isSome_iff_exists.1 hq
  have hqlt := lt_length_of_symbolOf hv
  by_contra hpr
  obtain ⟨hplt, hrlt, hcase⟩ := less_iff.1 (Bool.not_eq_false _ ▸ hpr)
  have hqp := freqAt_le_of_not_less hplt hqlt h1
  have hrq := freqAt_le_of_not_less hqlt hrlt h2
  rcases hcase with hlt | ⟨heq, u, w, hu, hw, huw⟩
  · omega
  · rw [Bool.eq_false_iff, ne_eq, less_iff] at h1 h2
    have huv : ¬ u.toNat < v.toNat := fun h => h1 ⟨hplt, hqlt, .inr ⟨by omega, u, v, hu, hv, h⟩⟩
    have hvw : ¬ v.toNat < w.toNat := fun h => h2 ⟨hqlt, hrlt, .inr ⟨by omega, v, w, hv, hw, h⟩⟩
    omega

/-- Settles O57: the comparator's law, read at two leaves, at a leaf and an internal node, and at two internal nodes; and a leaf
tied with an internal node. -/
theorem lessComparesFrequencyThenLeafSymbol : Obligations.LessComparesFrequencyThenLeafSymbol := by
  refine ⟨fun b p q f g => ⟨?_, ?_, ?_⟩, less_irrefl, fun b p q r => less_trans, ?_⟩
  · intro i j e d hp hq he hd
    rw [less_of_nodes hp hq, nodeLess_iff]
    simp [Node.freq, Node.symbol, he, hd]
  · intro i l r hp hq
    rw [less_of_nodes hp hq, less_of_nodes hq hp, nodeLess_iff, nodeLess_iff]
    simp [Node.freq, Node.symbol]
  · intro l r l' r' hp hq
    rw [less_of_nodes hp hq, nodeLess_iff]
    simp [Node.freq, Node.symbol]
  · exact ⟨{ Block.reset with nodes := [.leaf 1 0, .internal 1 0 0] }, 0, 1, by decide, by decide, by decide, by decide,
      by decide⟩

/-! ### Slots (rules R141, R142) -/

theorem slotLess_iff {b : Block} {h : List Nat} {i j : Nat} :
    slotLess b h i j = true ↔ ∃ p q, h[i]? = some p ∧ h[j]? = some q ∧ b.less p q = true := by
  unfold slotLess
  split
  · rename_i p q hp hq
    simp [hp, hq]
  · rename_i hnone
    simp only [Bool.false_eq_true, false_iff]
    rintro ⟨p, q, hp, hq, -⟩
    exact hnone p q hp hq

theorem slotLess_congr {b : Block} {h h' : List Nat} {i j i' j' : Nat} (hi : h[i]? = h'[i']?) (hj : h[j]? = h'[j']?) :
    slotLess b h i j = slotLess b h' i' j' := by
  simp only [slotLess, hi, hj]

theorem slotLess_of_length_le {b : Block} {h : List Nat} {i : Nat} (hi : h.length ≤ i) (j : Nat) :
    slotLess b h i j = false :=
  Bool.eq_false_iff.2 fun hless => absurd (slotLess_in_range hless).1 (Nat.not_lt.2 hi)

theorem slotLess_trans {b : Block} {h : List Nat} {i j k : Nat} (h1 : slotLess b h i j = true)
    (h2 : slotLess b h j k = true) : slotLess b h i k = true := by
  obtain ⟨p, q, hp, hq, hpq⟩ := slotLess_iff.1 h1
  obtain ⟨q', r, hq', hr, hqr⟩ := slotLess_iff.1 h2
  cases hq.symm.trans hq'
  exact slotLess_iff.2 ⟨p, r, hp, hr, less_trans hpq hqr⟩

theorem slotLess_irrefl (b : Block) (h : List Nat) (i : Nat) : slotLess b h i i = false := by
  rw [Bool.eq_false_iff, ne_eq, slotLess_iff]
  rintro ⟨p, q, hp, hq, hless⟩
  cases hp.symm.trans hq
  rw [less_irrefl] at hless
  cases hless

theorem slotLess_asymm {b : Block} {h : List Nat} {i j : Nat} (hij : slotLess b h i j = true) :
    slotLess b h j i = false :=
  Bool.eq_false_iff.2 fun hji => Bool.eq_false_iff.1 (slotLess_irrefl b h i) (slotLess_trans hij hji)

/-- A slot that is not less than a second one is not less than a third that is less than the second. -/
theorem slotLess_false_of_less {b : Block} {h : List Nat} {i j k : Nat} (hik : slotLess b h i k = false)
    (hjk : slotLess b h j k = true) : slotLess b h i j = false :=
  Bool.eq_false_iff.2 fun hij => Bool.eq_false_iff.1 hik (slotLess_trans hij hjk)

theorem slotLess_swapSlots {b : Block} {h : List Nat} {i j : Nat} (hi : i < h.length) (hj : j < h.length) (x y : Nat) :
    slotLess b (swapSlots h i j) x y = slotLess b h (Equiv.swap i j x) (Equiv.swap i j y) := by
  have hget : ∀ k, (swapSlots h i j)[k]? = h[Equiv.swap i j k]? := fun k => by
    rw [swapSlots_getElem? hi hj, Equiv.swap_apply_def, ← List.getElem?_eq_getElem hi, ← List.getElem?_eq_getElem hj]
    by_cases h1 : k = i <;> by_cases h2 : k = j <;> simp_all
  exact slotLess_congr (hget x) (hget y)

/-- The heap property of a list of slots. -/
def SlotsOrdered (b : Block) (h : List Nat) : Prop := ∀ j, 0 < j → slotLess b h j ((j - 1) / 2) = false

theorem heapOrdered_iff (b : Block) : HeapOrdered b ↔ SlotsOrdered b b.heap := by
  refine ⟨fun ho j hj => ?_, fun ho j _ hj => ho j hj⟩
  rcases Nat.lt_or_ge j b.heap.length with hlt | hge
  · exact ho j hlt hj
  · exact slotLess_of_length_le hge _

/-! ### HeapInsert (rule R141) -/

/-- The heap property but for slot `i`, which may be less than its parent; the slots below it are not less than that parent. -/
structure OrderedAbove (b : Block) (h : List Nat) (i : Nat) : Prop where
  others : ∀ j, 0 < j → j ≠ i → slotLess b h j ((j - 1) / 2) = false
  below : ∀ j, 0 < i → (j - 1) / 2 = i → slotLess b h j ((i - 1) / 2) = false

/-- A round of HeapInsert moves the breach from a slot to its parent, if the parent has a symbol. -/
theorem OrderedAbove.swap {b : Block} {h : List Nat} {i p : Nat} (ho : OrderedAbove b h i) (hp : (i - 1) / 2 = p)
    (hpos : 0 < i) (hless : slotLess b h i p = true) (hsym : ∀ m, h[p]? = some m → (b.symbolOf m).isSome) :
    OrderedAbove b (swapSlots h i p) p := by
  obtain ⟨hilt, hplt⟩ := slotLess_in_range hless
  have hkeep : ∀ k, k ≠ i → k ≠ p → Equiv.swap i p k = k := fun k => Equiv.swap_apply_of_ne_of_ne
  refine ⟨fun j hj hjp => ?_, fun j hppos hjp => ?_⟩ <;> rw [slotLess_swapSlots hilt hplt]
  · by_cases hji : j = i
    · rw [hji, hp, Equiv.swap_apply_left, Equiv.swap_apply_right]
      exact slotLess_asymm hless
    · rw [hkeep j hji hjp]
      by_cases hchild : (j - 1) / 2 = i
      · rw [hchild, Equiv.swap_apply_left, ← hp]
        exact ho.below j hpos hchild
      · by_cases hsibling : (j - 1) / 2 = p
        · rw [hsibling, Equiv.swap_apply_right]
          exact slotLess_false_of_less (hsibling ▸ ho.others j hj hji) hless
        · rw [hkeep _ hchild hsibling]
          exact ho.others j hj hji
  · have hparent := ho.others p hppos (by omega)
    rw [hkeep ((p - 1) / 2) (by omega) (by omega)]
    by_cases hji : j = i
    · rw [hji, Equiv.swap_apply_left]
      exact hparent
    · rw [hkeep j hji (by omega)]
      have hsibling := hjp ▸ ho.others j (by omega) hji
      refine Bool.eq_false_iff.2 fun habove => ?_
      obtain ⟨u, w, hu, hw, huw⟩ := slotLess_iff.1 habove
      have hv := List.getElem?_eq_getElem hplt
      simp only [slotLess, hu, hv, hw] at hsibling hparent
      rw [not_less_across_symbol (hsym _ hv) hsibling hparent] at huw
      cases huw

/-- HeapInsert's loop ends with the heap property, if every queued node that is greater than the one that moves up has a
symbol. -/
theorem siftUp_ordered {b : Block} {k i n : Nat} {h : List Nat} (hk : i ≤ k) (hn : h[i]? = some n)
    (hsym : ∀ m ∈ h, b.less n m = true → (b.symbolOf m).isSome) (ho : OrderedAbove b h i) :
    SlotsOrdered b (siftUp b k i h) := by
  induction k generalizing i h with
  | zero => exact fun j hj => ho.others j hj (by omega)
  | succ k ih =>
    unfold siftUp
    split
    · rename_i hround
      obtain ⟨hpos, hless⟩ := hround
      obtain ⟨hilt, hplt⟩ := slotLess_in_range hless
      have hparent : ∀ m, h[(i - 1) / 2]? = some m → (b.symbolOf m).isSome := fun m hm => by
        obtain ⟨p, q, hp, hq, hpq⟩ := slotLess_iff.1 hless
        cases hp.symm.trans hn
        cases hq.symm.trans hm
        exact hsym m (List.mem_of_getElem? hm) hpq
      refine ih (by omega) ?_ (fun m hm => hsym m ((swapSlots_perm h _ _).subset hm)) (ho.swap rfl hpos hless hparent)
      rw [swapSlots_getElem? hilt hplt, if_pos rfl, ← List.getElem?_eq_getElem hilt, hn]
    · rename_i hstop
      intro j hj
      by_cases hji : j = i
      · exact Bool.eq_false_iff.2 fun hless => hstop ⟨hji ▸ hj, hji ▸ hless⟩
      · exact ho.others j hj hji

/-- HeapInsert keeps the heap property, if no queued node without a symbol is heavier than the one that goes in. -/
theorem heapInsert_ordered {b : Block} {n : Nat}
    (hlight : ∀ m ∈ b.heap, (b.symbolOf m).isNone → freqAt b.nodes m ≤ freqAt b.nodes n) (ho : HeapOrdered b) :
    HeapOrdered (b.heapInsert n) := by
  rw [heapOrdered_iff] at ho ⊢
  refine siftUp_ordered (Nat.le_refl _) List.getElem?_concat_length (fun m hm hless => ?_)
    ⟨fun j hj hne => ?_, fun j hpos hj => ?_⟩
  · obtain ⟨-, -, hcase⟩ := less_iff.1 hless
    by_contra hnone
    rw [Bool.not_eq_true, Option.isSome_eq_false_iff] at hnone
    rcases hcase with hlt | ⟨-, u, v, -, hv, -⟩
    · rcases List.mem_append.1 hm with hm | hm
      · exact absurd (hlight m hm hnone) (by omega)
      · rw [List.mem_singleton.1 hm] at hlt
        omega
    · rw [hv] at hnone
      cases hnone
  · rcases Nat.lt_or_ge j b.heap.length with hlt | hge
    · exact (slotLess_congr (List.getElem?_append_left hlt) (List.getElem?_append_left (by omega))).trans (ho j hj)
    · exact slotLess_of_length_le (by simp; omega) _
  · exact slotLess_of_length_le (by simp; omega) _

/-- Settles O32: the node that goes in moves up past nodes with a symbol only, across which being no less passes on. -/
theorem heapInsertKeepsHeap : Obligations.HeapInsertKeepsHeap :=
  fun b n hlight ho => ⟨heapInsert_ordered hlight ho, heapInsert_perm b n, heapInsert_frame b n⟩

/-! ### HeapExtractMin (rule R142) -/

/-- The smallest of a slot and its children is the slot or a child that is less than it. -/
theorem smallestChild_self_or_less (b : Block) (h : List Nat) (i : Nat) :
    smallestChild b h i = i
      ∨ (0 < smallestChild b h i ∧ (smallestChild b h i - 1) / 2 = i ∧ slotLess b h (smallestChild b h i) i = true) := by
  simp only [smallestChild]
  by_cases hleft : slotLess b h (2 * i + 1) i = true
  · rw [if_pos hleft]
    split
    · exact .inr ⟨by omega, by omega, slotLess_trans ‹_› hleft⟩
    · exact .inr ⟨by omega, by omega, hleft⟩
  · rw [if_neg hleft]
    split
    · exact .inr ⟨by omega, by omega, ‹_›⟩
    · exact .inl rfl

/-- No child is less than the smallest of a slot and its children. -/
theorem slotLess_smallestChild {b : Block} {h : List Nat} {i j : Nat} (hj : 0 < j) (hchild : (j - 1) / 2 = i) :
    slotLess b h j (smallestChild b h i) = false := by
  obtain rfl | rfl : j = 2 * i + 1 ∨ j = 2 * i + 2 := by omega
  · simp only [smallestChild]
    by_cases hleft : slotLess b h (2 * i + 1) i = true
    · rw [if_pos hleft]
      split
      · exact slotLess_asymm ‹_›
      · exact slotLess_irrefl b h _
    · rw [if_neg hleft]
      rw [Bool.not_eq_true] at hleft
      split
      · exact slotLess_false_of_less hleft ‹_›
      · exact hleft
  · simp only [smallestChild]
    generalize (if slotLess b h (2 * i + 1) i = true then 2 * i + 1 else i) = m
    split
    · exact slotLess_irrefl b h _
    · exact Bool.eq_false_iff.2 ‹_›

/-- The heap property but for the children of slot `i`, which may be less than it; they are not less than its parent. -/
structure OrderedBelow (b : Block) (h : List Nat) (i : Nat) : Prop where
  others : ∀ j, 0 < j → (j - 1) / 2 ≠ i → slotLess b h j ((j - 1) / 2) = false
  below : ∀ j, 0 < i → (j - 1) / 2 = i → slotLess b h j ((i - 1) / 2) = false

/-- A round of HeapExtractMin moves the breach from a slot to its smallest child. -/
theorem OrderedBelow.swap {b : Block} {h : List Nat} {i c : Nat} (ho : OrderedBelow b h i) (hc : 0 < c)
    (hparent : (c - 1) / 2 = i) (hless : slotLess b h c i = true)
    (hleast : ∀ j, 0 < j → (j - 1) / 2 = i → slotLess b h j c = false) : OrderedBelow b (swapSlots h i c) c := by
  obtain ⟨hclt, hilt⟩ := slotLess_in_range hless
  have hkeep : ∀ k, k ≠ i → k ≠ c → Equiv.swap i c k = k := fun k => Equiv.swap_apply_of_ne_of_ne
  refine ⟨fun j hj hjc => ?_, fun j _ hjc => ?_⟩ <;> rw [slotLess_swapSlots hilt hclt]
  · by_cases hchild : (j - 1) / 2 = i
    · rw [hchild, Equiv.swap_apply_left]
      by_cases hj' : j = c
      · rw [hj', Equiv.swap_apply_right]
        exact slotLess_asymm hless
      · rw [hkeep j (by omega) hj']
        exact hleast j hj hchild
    · rw [hkeep _ hchild hjc]
      by_cases hji : j = i
      · rw [hji, Equiv.swap_apply_left]
        exact ho.below c (hji ▸ hj) hparent
      · rw [hkeep j hji (by omega)]
        exact ho.others j hj hchild
  · rw [hparent, Equiv.swap_apply_left, hkeep j (by omega) (by omega)]
    exact hjc ▸ ho.others j (by omega) (by omega)

/-- With the children of slot `i` in place too the queue is in order. -/
theorem OrderedBelow.slotsOrdered {b : Block} {h : List Nat} {i : Nat} (ho : OrderedBelow b h i)
    (hchildren : ∀ j, 0 < j → (j - 1) / 2 = i → slotLess b h j i = false) : SlotsOrdered b h := by
  intro j hj
  by_cases hchild : (j - 1) / 2 = i
  · exact hchild ▸ hchildren j hj hchild
  · exact ho.others j hj hchild

/-- HeapExtractMin's loop ends with the heap property. -/
theorem siftDown_ordered {b : Block} {k i : Nat} {h : List Nat} (hk : h.length ≤ k + i) (ho : OrderedBelow b h i) :
    SlotsOrdered b (siftDown b k i h) := by
  induction k generalizing i h with
  | zero => exact ho.slotsOrdered fun j _ _ => slotLess_of_length_le (by omega) _
  | succ k ih =>
    unfold siftDown
    split
    · rename_i hself
      exact ho.slotsOrdered fun j hj hchild => hself ▸ slotLess_smallestChild hj hchild
    · rename_i hmoves
      obtain ⟨hc, hparent, hless⟩ := (smallestChild_self_or_less b h i).resolve_left hmoves
      exact ih (by rw [swapSlots_length]; omega) (ho.swap hc hparent hless fun j => slotLess_smallestChild)

theorem heapExtractMin_singleton {b : Block} {r : Nat} (h : b.heap = [r]) :
    b.heapExtractMin = some (r, { b with heap := [] }) := by
  rw [Block.heapExtractMin, h]
  rfl

/-- HeapExtractMin of two slots or more: the last slot moves to the root and sifts down. -/
theorem heapExtractMin_concat {b : Block} {r l : Nat} {init : List Nat} (h : b.heap = r :: (init ++ [l])) :
    b.heapExtractMin = some (r, { b with heap := siftDown b (init.length + 1) 0 (l :: init) }) := by
  have hmoved : (r :: (init ++ [l])).dropLast.set 0 ((r :: (init ++ [l])).getLastD r) = l :: init := by
    rw [← List.cons_append, List.dropLast_concat, List.getLastD_concat]
    rfl
  rw [Block.heapExtractMin, h]
  simp only [hmoved, List.length_cons]

/-- HeapExtractMin keeps the heap property. -/
theorem heapExtractMin_ordered {b b' : Block} {r : Nat} (ho : HeapOrdered b) (h : b.heapExtractMin = some (r, b')) :
    HeapOrdered b' := by
  rw [heapOrdered_iff] at ho ⊢
  match hq : b.heap with
  | [] =>
    rw [heapExtractMin_nil hq] at h
    cases h
  | x :: rest =>
    rw [hq] at ho
    rcases rest.eq_nil_or_concat with rfl | ⟨init, l, rfl⟩
    · rw [heapExtractMin_singleton hq] at h
      cases h
      exact fun j _ => slotLess_of_length_le (Nat.zero_le _) _
    · rw [List.concat_eq_append] at hq ho
      rw [heapExtractMin_concat hq] at h
      cases h
      refine siftDown_ordered (b := b) (Nat.le_refl _) ⟨fun j hj hne => ?_, fun j hpos => absurd hpos (Nat.lt_irrefl 0)⟩
      rcases Nat.lt_or_ge j (init.length + 1) with hlt | hge
      · have hget : ∀ k, 0 < k → k < init.length + 1 → (l :: init)[k]? = (r :: (init ++ [l]))[k]? := fun k hk hklt => by
          obtain ⟨k, rfl⟩ := Nat.exists_eq_add_one_of_ne_zero hk.ne'
          simp [List.getElem?_append_left (show k < init.length by omega)]
        exact (slotLess_congr (hget j hj hlt) (hget _ (by omega) (by omega))).trans (ho j hj)
      · exact slotLess_of_length_le hge _

/-- No queued node is lighter than the one in slot 0. -/
theorem freqAt_root_le {b : Block} {r : Nat} (hr : b.heap.head? = some r) (hlt : ∀ m ∈ b.heap, m < b.nodes.length)
    (ho : HeapOrdered b) : ∀ m ∈ b.heap, freqAt b.nodes r ≤ freqAt b.nodes m := by
  have hslots : ∀ i (hi : i < b.heap.length), freqAt b.nodes r ≤ freqAt b.nodes b.heap[i] := by
    intro i
    induction i using Nat.strong_induction_on with
    | _ i ih =>
      intro hi
      rcases Nat.eq_zero_or_pos i with rfl | hpos
      · rw [List.head?_eq_getElem?, List.getElem?_eq_getElem hi] at hr
        cases hr
        exact Nat.le_refl _
      · have hp : (i - 1) / 2 < b.heap.length := by omega
        have hs := ho i hi hpos
        simp only [slotLess, List.getElem?_eq_getElem hi, List.getElem?_eq_getElem hp] at hs
        exact (ih _ (by omega) hp).trans
          (freqAt_le_of_not_less (hlt _ (List.getElem_mem hi)) (hlt _ (List.getElem_mem hp)) hs)
  intro m hm
  obtain ⟨i, hi, rfl⟩ := List.getElem_of_mem hm
  exact hslots i hi

/-- Settles O33: the last node sifts down into place; along the slots from the root frequencies do not fall, and among leaves
being no less passes on. -/
theorem heapExtractMinTakesLeast : Obligations.HeapExtractMinTakesLeast := by
  refine fun b => ⟨heapExtractMin_nil, fun hne hlt ho => ?_⟩
  obtain ⟨r, rest, hq⟩ := List.exists_cons_of_ne_nil hne
  obtain ⟨h, hmin, hperm⟩ := heapExtractMin_cons hq
  have hhead : b.heap.head? = some r := by rw [hq]; rfl
  exact ⟨r, h, hmin, hhead, hq ▸ (hperm.cons r).symm, heapExtractMin_ordered ho hmin, freqAt_root_le hhead hlt ho,
    root_least_of_leaves hhead ho⟩

/-! ### Ties and the order of leaves (rules R141 to R143) -/

/-- Settles O58: leaf insertion in order (a), taken over the whole alphabet. -/
theorem leavesInOrderNeverSiftUp : Obligations.LeavesInOrderNeverSiftUp := by
  intro b hs
  have h := insertLeaves_foldl_sorted hs b rfl b.alpha.length (Nat.le_refl _)
  rwa [List.take_of_length_le (by simp)] at h

/-- HeapExtractMin's loop puts the smallest of slot 0 and its children into slot 0, where it stays. -/
theorem siftDown_root (b : Block) (k : Nat) (h : List Nat) :
    (siftDown b (k + 1) 0 h).head? = h[smallestChild b h 0]? := by
  unfold siftDown
  split
  · rename_i hself
    rw [hself, List.head?_eq_getElem?]
  · rename_i hmoves
    obtain ⟨hc, -, hless⟩ := (smallestChild_self_or_less b h 0).resolve_left hmoves
    obtain ⟨hclt, h0⟩ := slotLess_in_range hless
    rw [siftDown_head _ _ _ hc, List.head?_eq_getElem?, swapSlots_getElem? h0 hclt, if_neg hc.ne, if_pos rfl,
      List.getElem?_eq_getElem hclt]

/-- The smallest of slot 0 and its children `x` and `y`, of two tied children the left one. -/
theorem getElem?_smallestChild_root (b : Block) (x y l : Nat) (rest : List Nat) :
    (l :: x :: y :: rest)[smallestChild b (l :: x :: y :: rest) 0]? = some
      (if b.less x l = true then if b.less y x = true then y else x else if b.less y l = true then y else l) := by
  by_cases hx : b.less x l = true
  · by_cases hy : b.less y x = true <;> simp [smallestChild, slotLess, hx, hy]
  · by_cases hy : b.less y l = true <;> simp [smallestChild, slotLess, hx, hy]

/-- Settles O59: both loops move a node only past one that is strictly greater, and after the first round of HeapExtractMin slot 0
stays. -/
theorem tiesStayBelowAndPreferLeft : Obligations.TiesStayBelowAndPreferLeft :=
  ⟨fun _ _ => heapInsert_of_not_less, fun b _ x y l rest hq =>
    ⟨_, heapExtractMin_concat (init := x :: y :: rest) hq,
      (siftDown_root b _ _).trans (getElem?_smallestChild_root b x y l rest)⟩⟩

end Sys2Proof.Machine
end

section
/-! SUPPORT. MKTREE merges the two lightest (42_tree_builder.md rules R143, R144): what leaf insertion and every merge keep of the
queue's order and of the merges made, and from it the whole answer. -/

namespace Sys2Proof.Machine

open Sys2Proof.Safety

/-! ### The queue under one more node -/

theorem less_append {b : Block} {p q : Nat} (more : List Node) (hp : p < b.nodes.length) (hq : q < b.nodes.length) :
    Block.less { b with nodes := b.nodes ++ more } p q = b.less p q := by
  simp only [Block.less, List.getElem?_append_left hp, List.getElem?_append_left hq]

theorem symbolOf_append {b : Block} {m : Nat} (more : List Node) (hm : m < b.nodes.length) :
    Block.symbolOf { b with nodes := b.nodes ++ more } m = b.symbolOf m := by
  simp only [Block.symbolOf, List.getElem?_append_left hm]

theorem addNode_symbolOf_of_lt {b : Block} (x : Node) {m : Nat} (hm : m < b.nodes.length) :
    (b.addNode x).symbolOf m = b.symbolOf m := symbolOf_append [x] hm

theorem addNode_symbolOf_new (b : Block) (x : Node) : (b.addNode x).symbolOf b.nodes.length = x.symbol b.alpha :=
  symbolOf_of_getElem? List.getElem?_concat_length

/-- The queue is ordered over a larger arena too. -/
theorem heapOrdered_append {b : Block} (more : List Node) (hlt : ∀ m ∈ b.heap, m < b.nodes.length) (ho : HeapOrdered b) :
    HeapOrdered { b with nodes := b.nodes ++ more } := by
  intro i hi hpos
  simp only at hi
  have hp : (i - 1) / 2 < b.heap.length := by omega
  have hs := ho i hi hpos
  simp only [slotLess, List.getElem?_eq_getElem hi, List.getElem?_eq_getElem hp] at hs ⊢
  rw [less_append more (hlt _ (List.getElem_mem hi)) (hlt _ (List.getElem_mem hp)), hs]

/-- A new node keeps the heap property, if no queued node without a symbol is heavier. -/
theorem addNode_ordered {b : Block} {x : Node} (hlt : ∀ m ∈ b.heap, m < b.nodes.length)
    (hlight : ∀ m ∈ b.heap, (b.symbolOf m).isNone → freqAt b.nodes m ≤ x.freq) (ho : HeapOrdered b) :
    HeapOrdered (b.addNode x) := by
  refine heapInsert_ordered (fun m hm hnone => ?_) (heapOrdered_append [x] hlt ho)
  rw [symbolOf_append [x] (hlt m hm)] at hnone
  simp only [freqAt_append_of_lt [x] (hlt m hm), freqAt_last]
  exact hlight m hm hnone

/-! ### Leaf insertion -/

/-- The queue is in order and holds leaves of entries only. -/
structure LeafQueue (es : List Entry) (b : Block) : Prop where
  alpha : b.alpha = es
  ordered : HeapOrdered b
  symbols : ∀ m ∈ b.heap, (b.symbolOf m).isSome

theorem LeafQueue.queued_lt {es : List Entry} {b : Block} (h : LeafQueue es b) {m : Nat} (hm : m ∈ b.heap) :
    m < b.nodes.length := by
  obtain ⟨v, hv⟩ := Option.isSome_iff_exists.1 (h.symbols m hm)
  exact lt_length_of_symbolOf hv

theorem LeafQueue.not_isNone {es : List Entry} {b : Block} (h : LeafQueue es b) {m : Nat} (hm : m ∈ b.heap) :
    ¬ (b.symbolOf m).isNone := by
  rw [Option.isNone_iff_eq_none, ← ne_eq, ← Option.isSome_iff_ne_none]
  exact h.symbols m hm

theorem LeafQueue.addLeaf {es : List Entry} {b : Block} (h : LeafQueue es b) (f : Nat) {i : Nat} (hi : i < es.length) :
    LeafQueue es (b.addNode (.leaf f i)) := by
  refine ⟨h.alpha, addNode_ordered (fun m => h.queued_lt) (fun m hm hnone => absurd hnone (h.not_isNone hm)) h.ordered,
    fun m hm => ?_⟩
  rcases List.mem_cons.1 ((addNode_perm b _).subset hm) with rfl | hm
  · rw [addNode_symbolOf_new, h.alpha]
    simp [Node.symbol, hi]
  · rw [addNode_symbolOf_of_lt _ (h.queued_lt hm)]
    exact h.symbols m hm

theorem leafQueue_insertLeaves {b : Block} (hq : b.heap = []) : LeafQueue b.alpha b.insertLeaves := by
  refine List.foldlRecOn _ _ ⟨rfl, ?_, by simp [hq]⟩ fun c hc p hp => hc.addLeaf _ ?_
  · intro i hi
    simp [hq] at hi
  · exact (List.getElem?_eq_some_iff.1 (List.mem_zipIdx_iff_getElem?.1 hp)).1

/-! ### Every merge takes the two lightest -/

theorem queuedAt_append {nodes more : List Node} {k : Nat} (hk : k ≤ nodes.length) (m : Nat) :
    QueuedAt (nodes ++ more) k m ↔ QueuedAt nodes k m := by
  rw [QueuedAt, QueuedAt, List.take_append_of_le_length hk]

/-- In a forest the queued nodes are those that are no node's child. -/
theorem Forest.queuedAt_iff {es : List Entry} {b : Block} (h : Forest es b) {m : Nat} :
    QueuedAt b.nodes b.nodes.length m ↔ m ∈ b.heap := by
  have hdisj := (List.nodup_append.1 (h.onceEach.nodup_iff.2 List.nodup_range)).2.2
  rw [QueuedAt, List.take_length, ← List.mem_range, ← h.onceEach.mem_iff, List.mem_append]
  constructor
  · rintro ⟨hc | hq, hn⟩
    · exact absurd hc hn
    · exact hq
  · exact fun hq => ⟨.inr hq, fun hc => hdisj m hc m hq rfl⟩

/-- A merge of the two lightest is added to greedy merges. -/
theorem greedyMerges_append {nodes : List Node} {f l r : Nat} (h : GreedyMerges nodes) (hne : l ≠ r)
    (hl : QueuedAt nodes nodes.length l) (hr : QueuedAt nodes nodes.length r) (hlr : freqAt nodes l ≤ freqAt nodes r)
    (hleast : ∀ m, QueuedAt nodes nodes.length m → m ≠ l → m ≠ r → freqAt nodes r ≤ freqAt nodes m) :
    GreedyMerges (nodes ++ [.internal f l r]) := by
  have hfreq : ∀ k ≤ nodes.length, ∀ m, QueuedAt nodes k m → freqAt (nodes ++ [.internal f l r]) m = freqAt nodes m :=
    fun k hk m hm => freqAt_append_of_lt _ (Nat.lt_of_lt_of_le hm.1 hk)
  intro k f' l' r' hk
  obtain ⟨hkle, hne', hl', hr', hlr', hleast'⟩ : k ≤ nodes.length ∧ l' ≠ r' ∧ QueuedAt nodes k l' ∧ QueuedAt nodes k r'
      ∧ freqAt nodes l' ≤ freqAt nodes r'
      ∧ ∀ m, QueuedAt nodes k m → m ≠ l' → m ≠ r' → freqAt nodes r' ≤ freqAt nodes m := by
    rcases Nat.lt_or_ge k nodes.length with hlt | hge
    · rw [List.getElem?_append_left hlt] at hk
      exact ⟨hlt.le, h k f' l' r' hk⟩
    · have hlen := (List.getElem?_eq_some_iff.1 hk).1
      obtain rfl : k = nodes.length := by
        simp only [List.length_append, List.length_singleton] at hlen
        omega
      rw [List.getElem?_concat_length] at hk
      cases hk
      exact ⟨Nat.le_refl _, hne, hl, hr, hlr, hleast⟩
  rw [queuedAt_append hkle, queuedAt_append hkle, hfreq k hkle l' hl', hfreq k hkle r' hr']
  refine ⟨hne', hl', hr', hlr', fun m hm hml hmr => ?_⟩
  rw [queuedAt_append hkle] at hm
  rw [hfreq k hkle m hm]
  exact hleast' m hm hml hmr

/-- The forest of merging with its queue in order and its merges greedy. A queued node without a symbol is at most twice as heavy
as any queued node, so that it is no heavier than the next merged one: this is the premise of `heapInsert_ordered`. -/
structure GreedyForest (es : List Entry) (b : Block) : Prop extends Forest es b where
  alpha : b.alpha = es
  ordered : HeapOrdered b
  greedy : GreedyMerges b.nodes
  rising : ∀ m ∈ b.heap, (b.symbolOf m).isNone → ∀ q ∈ b.heap, freqAt b.nodes m ≤ 2 * freqAt b.nodes q

theorem greedyForest_insertLeaves {b : Block} (hn : b.nodes = []) (hq : b.heap = []) :
    GreedyForest b.alpha b.insertLeaves := by
  have hleaves := leafQueue_insertLeaves hq
  refine { forest_insertLeaves hn hq with
    alpha := hleaves.alpha
    ordered := hleaves.ordered
    greedy := fun k f l r hk => ?_
    rising := fun m hm hnone => absurd hnone (hleaves.not_isNone hm) }
  rw [insertLeaves_nodes, hn, List.nil_append] at hk
  obtain ⟨p, -, hp⟩ := List.mem_map.1 (List.mem_of_getElem? hk)
  cases hp

/-- Two extractions in a row: `x` and then `y` leave the queue, the two lightest, and the rest is in order. -/
structure TwoLightest (b : Block) (x y : Nat) (b2 : Block) : Prop where
  nodes : b2.nodes = b.nodes
  alpha : b2.alpha = b.alpha
  ordered : HeapOrdered b2
  perm : b.heap.Perm (x :: y :: b2.heap)
  le : freqAt b.nodes x ≤ freqAt b.nodes y
  least : ∀ m ∈ b2.heap, freqAt b.nodes y ≤ freqAt b.nodes m

theorem twoLightest_of_extract {b b1 b2 : Block} {x y : Nat} (hlt : ∀ m ∈ b.heap, m < b.nodes.length) (ho : HeapOrdered b)
    (h1 : b.heapExtractMin = some (x, b1)) (h2 : b1.heapExtractMin = some (y, b2)) : TwoLightest b x y b2 := by
  obtain ⟨hx, e1, p1⟩ := heapExtractMin_eq_some h1
  obtain ⟨hy, e2, p2⟩ := heapExtractMin_eq_some h2
  have ho1 := heapExtractMin_ordered ho h1
  have hnodes : b1.nodes = b.nodes := by rw [e1]
  have hmem : ∀ m ∈ b1.heap, m ∈ b.heap := fun m hm => p1.symm.subset (List.mem_cons_of_mem x hm)
  have hleast := freqAt_root_le hy (fun m hm => hnodes ▸ hlt m (hmem m hm)) ho1
  rw [hnodes] at hleast
  exact
    { nodes := by rw [e2, hnodes]
      alpha := by rw [e2, e1]
      ordered := heapExtractMin_ordered ho1 h2
      perm := p1.trans (p2.cons x)
      le := freqAt_root_le hx hlt ho y (hmem y (p2.symm.subset List.mem_cons_self))
      least := fun m hm => hleast m (p2.symm.subset (List.mem_cons_of_mem y hm)) }

theorem TwoLightest.mem_iff {b b2 : Block} {x y m : Nat} (t : TwoLightest b x y b2) :
    m ∈ b.heap ↔ m = x ∨ m = y ∨ m ∈ b2.heap := by
  simp [t.perm.mem_iff]

section
variable {es : List Entry} {b b2 : Block} {x y : Nat} (h : GreedyForest es b) (t : TwoLightest b x y b2)
include h t

theorem GreedyForest.rest_lt {m : Nat} (hm : m ∈ b2.heap) : m < b2.nodes.length :=
  t.nodes ▸ h.queued_lt (t.mem_iff.2 (.inr (.inr hm)))

theorem GreedyForest.rest_rising {m q : Nat} (hm : m ∈ b2.heap) (hnone : (b2.symbolOf m).isNone) (hq : q ∈ b.heap) :
    freqAt b.nodes m ≤ 2 * freqAt b.nodes q := by
  rw [Block.symbolOf, t.nodes, t.alpha] at hnone
  exact h.rising m (t.mem_iff.2 (.inr (.inr hm))) hnone q hq

theorem GreedyForest.lightest_ne : x ≠ y := fun e => by
  have hnodup := t.perm.nodup_iff.1 (List.nodup_append.1 (h.onceEach.nodup_iff.2 List.nodup_range)).2.1
  exact (List.nodup_cons.1 hnodup).1 (e ▸ List.mem_cons_self)

/-- A queued node without a symbol is no heavier than the merged one. -/
theorem GreedyForest.rest_le_merged {m : Nat} (hm : m ∈ b2.heap) (hnone : (b2.symbolOf m).isNone) :
    freqAt b.nodes m ≤ freqAt b.nodes x + freqAt b.nodes y := by
  have hx := h.rest_rising t hm hnone (t.mem_iff.2 (.inl rfl))
  have hy := h.rest_rising t hm hnone (t.mem_iff.2 (.inr (.inl rfl)))
  omega

/-- The merged node is queued beside the rest, of which none is lighter than either of its children. -/
theorem GreedyForest.rising_addNode {n : Node} (hn : n.freq = freqAt b.nodes x + freqAt b.nodes y) :
    ∀ m ∈ (b2.addNode n).heap, ((b2.addNode n).symbolOf m).isNone → ∀ q ∈ (b2.addNode n).heap,
      freqAt (b2.addNode n).nodes m ≤ 2 * freqAt (b2.addNode n).nodes q := by
  have hold : ∀ m ∈ b2.heap, freqAt (b2.addNode n).nodes m = freqAt b.nodes m := fun m hm => by
    rw [addNode_nodes, freqAt_append_of_lt _ (h.rest_lt t hm), t.nodes]
  have hnew : freqAt (b2.addNode n).nodes b2.nodes.length = n.freq := by rw [addNode_nodes, freqAt_last]
  have hqueue := (addNode_perm b2 n).subset
  intro m hm hnone q hq
  rcases List.mem_cons.1 (hqueue hm) with rfl | hm
  · rcases List.mem_cons.1 (hqueue hq) with rfl | hq
    · omega
    · have hle := t.le
      have hleast := t.least q hq
      rw [hnew, hold q hq]
      omega
  · rw [addNode_symbolOf_of_lt _ (h.rest_lt t hm)] at hnone
    rcases List.mem_cons.1 (hqueue hq) with rfl | hq
    · have hle := h.rest_le_merged t hm hnone
      rw [hnew, hold m hm]
      omega
    · rw [hold m hm, hold q hq]
      exact h.rest_rising t hm hnone (t.mem_iff.2 (.inr (.inr hq)))

/-- A merge as MKTREE makes it keeps the forest greedy. -/
theorem GreedyForest.merge : GreedyForest es (b2.addNode (.internal (b2.freqOf x + b2.freqOf y) x y)) := by
  have hforest := h.toForest.merge t.nodes t.perm
  rw [freqOf_eq_freqAt, freqOf_eq_freqAt, t.nodes] at hforest ⊢
  refine { hforest with
    alpha := t.alpha.trans h.alpha
    ordered := addNode_ordered (fun m => h.rest_lt t) (fun m hm hnone => ?_) t.ordered
    greedy := ?_
    rising := h.rising_addNode t rfl }
  · rw [t.nodes]
    exact h.rest_le_merged t hm hnone
  · rw [addNode_nodes, t.nodes]
    refine greedyMerges_append h.greedy (h.lightest_ne t) (h.queuedAt_iff.2 (t.mem_iff.2 (.inl rfl)))
      (h.queuedAt_iff.2 (t.mem_iff.2 (.inr (.inl rfl)))) t.le fun m hm hmx hmy => ?_
    exact t.least m (((t.mem_iff.1 (h.queuedAt_iff.1 hm)).resolve_left hmx).resolve_left hmy)

end

/-! ### MKTREE's merges -/

/-- A round of merging. -/
theorem mergeAll_succ {b b1 b2 : Block} {x y : Nat} (k : Nat) (h1 : b.heapExtractMin = some (x, b1))
    (h2 : b1.heapExtractMin = some (y, b2)) :
    Block.mergeAll (k + 1) b = Block.mergeAll k (b2.addNode (.internal (b2.freqOf x + b2.freqOf y) x y)) := by
  simp only [Block.mergeAll, h1, h2]

/-- What every merge keeps, merging keeps. -/
theorem mergeAll_induction {P : Block → Prop}
    (hmerge : ∀ b b1 b2 x y, P b → b.heapExtractMin = some (x, b1) → b1.heapExtractMin = some (y, b2) →
      P (b2.addNode (.internal (b2.freqOf x + b2.freqOf y) x y)))
    (k : Nat) {b : Block} (h : P b) : P (Block.mergeAll k b) := by
  induction k generalizing b with
  | zero => exact h
  | succ k ih =>
    unfold Block.mergeAll
    split
    · exact h
    · rename_i x b1 h1
      split
      · exact h
      · rename_i y b2 h2
        exact ih (hmerge b b1 b2 x y h h1 h2)

/-- Merging adds nodes behind those that are there. -/
theorem mergeAll_nodes_prefix (k : Nat) (b : Block) : b.nodes <+: (Block.mergeAll k b).nodes := by
  refine mergeAll_induction (P := fun c => b.nodes <+: c.nodes) (fun c b1 b2 x y hc h1 h2 => ?_) k (List.prefix_refl _)
  rw [addNode_nodes, (heapExtractMin_eq_some h2).2.1, (heapExtractMin_eq_some h1).2.1]
  exact hc.trans (List.prefix_append _ _)

theorem mergedTree_greedyForest (b : Block) : GreedyForest b.alpha b.mergedTree :=
  mergeAll_induction (fun _ _ _ _ _ h h1 h2 => h.merge (twoLightest_of_extract (fun _ => h.queued_lt) h.ordered h1 h2)) _
    (greedyForest_insertLeaves (b := { b with nodes := [], heap := [] }) rfl rfl)

/-- Of two entries of a list in order (a) the earlier is less, as a leaf, than the later. -/
theorem leaf_less {es : List Entry} (hs : es.Pairwise ltA) {i j : Nat} (hij : i < j) (hj : j < es.length) :
    nodeLess es (.leaf (es[i]'(by omega)).freq i) (.leaf es[j].freq j) = true := by
  have hi : i < es.length := by omega
  rw [nodeLess_iff]
  rcases List.pairwise_iff_getElem.1 hs i j hi hj hij with h | ⟨heq, hsym⟩
  · exact .inl h
  · exact .inr ⟨heq, es[i].sym, es[j].sym, by simp [Node.symbol, hi], by simp [Node.symbol, hj], hsym⟩

/-- Of the leaves of an alphabet in order (a), queued in that order, leaf 0 leaves first and then leaf 1. -/
theorem extract_first_two {es : List Entry} {c : Block} (hc : LeafQueue es c)
    (hnodes : c.nodes = es.zipIdx.map (fun p => .leaf p.1.freq p.2)) (hheap : c.heap = List.range es.length)
    (hs : es.Pairwise ltA) (htwo : 2 ≤ es.length) :
    ∃ b1 b2, c.heapExtractMin = some (0, b1) ∧ b1.heapExtractMin = some (1, b2) := by
  obtain ⟨n, hn⟩ : ∃ n, es.length = n + 2 := ⟨es.length - 2, by omega⟩
  rw [hn, List.range_succ_eq_map] at hheap
  obtain ⟨q, h1, hperm⟩ := heapExtractMin_cons hheap
  have hmem : ∀ m, m ∈ q ↔ 0 < m ∧ m < es.length := fun m => by
    rw [hperm.mem_iff, List.mem_map]
    constructor
    · rintro ⟨k, hk, rfl⟩
      have := List.mem_range.1 hk
      omega
    · exact fun hm => ⟨m - 1, List.mem_range.2 (by omega), by omega⟩
  have hone : 1 ∈ q := (hmem 1).2 (by omega)
  obtain ⟨y, rest, rfl⟩ := List.exists_cons_of_ne_nil (List.ne_nil_of_mem hone)
  obtain ⟨q2, h2, -⟩ := heapExtractMin_cons (b := { c with heap := y :: rest }) rfl
  have hqueued : ∀ m ∈ y :: rest, m ∈ c.heap := fun m hm =>
    hheap ▸ List.mem_cons_of_mem 0 (hperm.subset hm)
  have hnone := root_least_of_leaves (b := { c with heap := y :: rest }) rfl (heapExtractMin_ordered hc.ordered h1)
    (fun m hm => hc.symbols m (hqueued m hm)) 1 hone
  obtain ⟨hypos, hylt⟩ := (hmem y).1 List.mem_cons_self
  obtain rfl : y = 1 := by
    by_contra hne
    have hget : ∀ i (hi : i < es.length), c.nodes[i]? = some (.leaf es[i].freq i) := fun i hi => by simp [hnodes, hi]
    have hless : c.less 1 y = true := by
      rw [less_of_nodes (hget 1 (by omega)) (hget y hylt), hc.alpha]
      exact leaf_less hs (by omega) hylt
    exact Bool.eq_false_iff.1 hnone hless
  exact ⟨_, _, h1, h2⟩

/-- Over two entries or more in order (a) the first merge takes leaf 0 on the left and leaf 1 on the right. -/
theorem mergedTree_first_merge {b : Block} (hs : b.alpha.Pairwise ltA) (htwo : 2 ≤ b.alpha.length) :
    ∃ f, b.mergedTree.nodes[b.alpha.length]? = some (.internal f 0 1) := by
  have hleaves := leafQueue_insertLeaves (b := { b with nodes := [], heap := [] }) rfl
  rw [Block.mergedTree]
  rw [leavesInOrderNeverSiftUp b hs] at hleaves ⊢
  obtain ⟨b1, b2, h1, h2⟩ := extract_first_two hleaves rfl rfl hs htwo
  have hnodes := (twoLightest_of_extract (fun _ => hleaves.queued_lt) hleaves.ordered h1 h2).nodes
  have hlen : b2.nodes.length = b.alpha.length := by simp [hnodes]
  obtain ⟨k, hk⟩ : ∃ k, b.alpha.length = k + 1 := ⟨b.alpha.length - 1, by omega⟩
  obtain ⟨more, hmore⟩ := mergeAll_nodes_prefix k (b2.addNode (.internal (b2.freqOf 0 + b2.freqOf 1) 0 1))
  have hround := mergeAll_succ k h1 h2
  rw [← hk] at hround
  refine ⟨b2.freqOf 0 + b2.freqOf 1, ?_⟩
  simp only [List.length_range]
  rw [hround, ← hmore, addNode_nodes, ← hlen, List.getElem?_append_left (by simp), List.getElem?_concat_length]

/-! ### What MKTREE answers -/

section
variable {s : State}

theorem exec_mktree_of_ne_alphabetBuilt (hp : s.blk.phase ≠ .alphabetBuilt) :
    exec .mktree s = .next (faulted s .protocolMisuse) := by
  show execMktree s = _
  rw [execMktree, if_pos hp, conclude_raise]

theorem exec_mktree_of_empty (hp : s.blk.phase = .alphabetBuilt) (ha : s.blk.alpha = []) :
    exec .mktree s = .next (faulted s .treeConstructionFailed) := by
  show execMktree s = _
  rw [execMktree, if_neg (not_not.2 hp), if_pos (List.length_eq_zero_iff.2 ha), conclude_raise]

/-- MKTREE over a non-empty alphabet: the arena is that of the merges, and the root is the one node left in the queue. -/
theorem exec_mktree_answered (hp : s.blk.phase = .alphabetBuilt) (ha : s.blk.alpha ≠ []) :
    ∃ root, s.blk.mergedTree.heap = [root]
      ∧ exec .mktree s = .next (answered s 0
          { s.blk with nodes := s.blk.mergedTree.nodes, heap := [], root := some root, phase := .treeBuilt }) := by
  obtain ⟨root, hroot⟩ := List.length_eq_one_iff.1 (mergedTree_forest ha).2
  obtain ⟨nodes, heap, hframe⟩ := mergedTree_frame s.blk
  refine ⟨root, hroot, (execMktree_eq hp ha).trans ?_⟩
  rw [heapExtractMin_singleton hroot, hframe]
  rfl

/-- MKTREE over a non-empty alphabet makes a tree over it by greedy merges. -/
theorem exec_mktree_greedy_tree (hp : s.blk.phase = .alphabetBuilt) (ha : s.blk.alpha ≠ []) :
    ∃ root, exec .mktree s = .next (answered s 0
          { s.blk with nodes := s.blk.mergedTree.nodes, heap := [], root := some root, phase := .treeBuilt })
      ∧ TreeOver s.blk.alpha s.blk.mergedTree.nodes root ∧ GreedyMerges s.blk.mergedTree.nodes := by
  obtain ⟨root, hroot, hexec⟩ := exec_mktree_answered hp ha
  have hforest := mergedTree_greedyForest s.blk
  exact ⟨root, hexec, hforest.toForest.treeOver hroot, hforest.greedy⟩

end

/-- Settles O34: the forest that leaf insertion starts and every merge keeps, with the queue in order, is at its end a tree by greedy
merges; its depth and its frequencies are bounded by the alphabet's. -/
theorem mktreeBuildsHuffmanTree : Obligations.MktreeBuildsHuffmanTree := by
  refine ⟨by decide, fun s => ⟨exec_mktree_of_ne_alphabetBuilt, exec_mktree_of_empty, fun hp ha => ?_⟩⟩
  obtain ⟨root, hexec, htree, hgreedy⟩ := exec_mktree_greedy_tree hp ha
  refine ⟨_, root, hexec, htree, hgreedy, fun htwo hs => mergedTree_first_merge hs htwo, fun _ _ => treeOver_depth htree,
    fun hcap hfreq n hn => ?_⟩
  exact Nat.lt_of_le_of_lt ((mergedTree_forest ha).1.bounded n hn) (sum_freq_lt hcap hfreq)

end Sys2Proof.Machine
end

section
/-! SUPPORT. ASSIGN (42_tree_builder.md section 3): over a finished tree its rule has a value, and what it leaves is known whole. -/

namespace Sys2Proof.Machine

open Sys2Proof.Safety

/-! ### ASSIGN raises no fault of the spec past its phase guard (rule R145) -/

theorem setCode_error {b : Block} {ent : Nat} {c : Bits} {e : Stop} (h : b.setCode ent c = .error e) :
    ∃ x, e = .stuck x := by
  unfold Block.setCode at h
  split at h
  · cases h
    exact ⟨_, rfl⟩
  · cases h

theorem walk_error {k n : Nat} {b : Block} {e : Stop} (h : walk k n b = .error e) : ∃ x, e = .stuck x := by
  induction k generalizing n b with
  | zero =>
    cases h
    exact ⟨_, rfl⟩
  | succ k ih =>
    unfold walk at h
    split at h
    · cases h
      exact ⟨_, rfl⟩
    · exact setCode_error h
    · split at h
      · rename_i hl
        exact ih (hl.trans (congrArg _ (Except.error.inj h)))
      · split at h
        · rename_i hr
          exact ih (hr.trans (congrArg _ (Except.error.inj h)))
        · cases h

theorem assignCodes_error {root : Nat} {b : Block} {e : Stop} (h : assignCodes root b = .error e) : ∃ x, e = .stuck x := by
  unfold assignCodes at h
  split at h
  · cases h
    exact ⟨_, rfl⟩
  · exact setCode_error h
  · exact walk_error h

/-- Over a finished tree ASSIGN's codes exist. -/
theorem assignCodes_ok {root : Nat} {b : Block} (ht : TreeOver b.alpha b.nodes root) :
    ∃ es, assignCodes root b = .ok { b with alpha := es } := by
  match h : assignCodes root b with
  | .ok b' => exact ⟨b'.alpha, congrArg _ (assignCodes_frame h).1⟩
  | .error e =>
    obtain ⟨x, rfl⟩ := assignCodes_error h
    exact absurd h (assignCodes_valued ht x)

/-! ### What ASSIGN answers -/

/-- What ASSIGN makes of the alphabet `es` over a tree (R145 to R147): the codes of `out`. -/
structure AssignedCodes (es : List Entry) (nodes : List Node) (root : Nat) (out : List Entry) : Prop where
  same : out.map (fun e => (e.sym, e.freq)) = es.map (fun e => (e.sym, e.freq))
  single : es.length = 1 → ∀ e ∈ out, e.code = [false]
  paths : 2 ≤ es.length → ∀ i (hi : i < out.length), follow nodes root out[i].code = some i
  huffman : es.length ≤ 256 → HuffmanCodes out

theorem AssignedCodes.length_eq {es out : List Entry} {nodes : List Node} {root : Nat} (h : AssignedCodes es nodes root out) :
    out.length = es.length := by
  simpa using congrArg List.length h.same

section
variable {s : State}

theorem exec_assign_of_ne_treeBuilt (hp : s.blk.phase ≠ .treeBuilt) :
    exec .assign s = .next (faulted s .protocolMisuse) := by
  show execAssign s = _
  rw [execAssign, if_pos hp, conclude_raise]

/-- ASSIGN over a finished tree: the entries get their codes, and the tree is discarded. -/
theorem exec_assign_answered {root : Nat} (hp : s.blk.phase = .treeBuilt) (hroot : s.blk.root = some root)
    (ht : TreeOver s.blk.alpha s.blk.nodes root) :
    ∃ out, AssignedCodes s.blk.alpha s.blk.nodes root out
      ∧ exec .assign s = .next (answered s 0
          { s.blk with alpha := out, nodes := [], heap := [], root := none, trav := [], phase := .codesAssigned }) := by
  obtain ⟨out, hout⟩ := assignCodes_ok (b := { s.blk with trav := [] }) ht
  refine ⟨out, ⟨(assignCodes_frame hout).2, assignCodes_single (b := { s.blk with trav := [] }) ht hout,
    fun htwo _ => assignCodes_paths (b := { s.blk with trav := [] }) ht rfl hout htwo,
    fun hcap => assignCodes_huffman (b := { s.blk with trav := [] }) ht rfl hcap hout⟩, ?_⟩
  show execAssign s = _
  rw [execAssign, if_neg (not_not.2 hp), hroot]
  simp only [hout, conclude_ok]
  rfl

end

/-- Settles O35: the walk's codes are the paths to the leaves, of which none begins another and which fill the code space. -/
theorem assignGivesLeafPaths : Obligations.AssignGivesLeafPaths := by
  refine ⟨by decide, fun s => ⟨exec_assign_of_ne_treeBuilt, fun root hp hroot ht hcap => ?_⟩⟩
  obtain ⟨out, hcodes, hexec⟩ := exec_assign_answered hp hroot ht
  refine ⟨out, hexec, hcodes.same, hcodes.huffman hcap, fun htwo p hp => ?_⟩
  obtain ⟨hi, hget⟩ := List.getElem?_eq_some_iff.1 (List.mem_zipIdx_iff_getElem?.1 hp)
  exact hget ▸ hcodes.paths (hcodes.length_eq ▸ htwo) p.2 hi

end Sys2Proof.Machine
end

section
/-! SUPPORT. Trees of greedy merges are optimal (42_tree_builder.md rule R144 (vi)). The nodes queued before a merge are compared with
those queued after it, from the root back to the leaves: lengths for the former become lengths for the latter, because the two
lightest nodes can be given one length, the longest, at no cost. -/

namespace Sys2Proof.Machine

open Sys2Proof.Safety

/-! ### Lengths over a set of nodes -/

/-- Kraft's sum of the lengths of a set of nodes. -/
def kraftSum (S : Finset Nat) (l : Nat → Nat) : ℚ := ∑ m ∈ S, (1 / 2 : ℚ) ^ l m

/-- The weighted sum of the lengths of a set of nodes. -/
def weightedSum (w : Nat → Nat) (S : Finset Nat) (l : Nat → Nat) : Nat := ∑ m ∈ S, w m * l m

theorem kraftSum_insert {S : Finset Nat} {x : Nat} (hx : x ∉ S) (l : Nat → Nat) :
    kraftSum (insert x S) l = (1 / 2) ^ l x + kraftSum S l := Finset.sum_insert hx

theorem weightedSum_insert {S : Finset Nat} {x : Nat} (hx : x ∉ S) (w l : Nat → Nat) :
    weightedSum w (insert x S) l = w x * l x + weightedSum w S l := Finset.sum_insert hx

theorem kraftSum_congr {S : Finset Nat} {l l' : Nat → Nat} (h : ∀ m ∈ S, l m = l' m) : kraftSum S l = kraftSum S l' :=
  Finset.sum_congr rfl fun m hm => by rw [h m hm]

theorem weightedSum_congr {S : Finset Nat} {w l l' : Nat → Nat} (h : ∀ m ∈ S, l m = l' m) :
    weightedSum w S l = weightedSum w S l' :=
  Finset.sum_congr rfl fun m hm => by rw [h m hm]

theorem half_pow_eq (a : Nat) : (1 / 2 : ℚ) ^ a = (1 / 2) ^ (a + 1) + (1 / 2) ^ (a + 1) := by
  rw [pow_succ]
  ring

/-- Kraft's sum is a multiple of the share of the greatest length: if it is below 1, there is room for one more. -/
theorem kraftSum_room {S : Finset Nat} {l : Nat → Nat} {a : Nat} (hmax : ∀ m ∈ S, l m ≤ a) (h : kraftSum S l < 1) :
    kraftSum S l + (1 / 2) ^ a ≤ 1 := by
  have hscaled : kraftSum S l = (∑ m ∈ S, 2 ^ (a - l m) : Nat) / 2 ^ a := by
    rw [kraftSum, Nat.cast_sum, Finset.sum_div]
    refine Finset.sum_congr rfl fun m hm => ?_
    obtain ⟨c, rfl⟩ := Nat.exists_eq_add_of_le (hmax m hm)
    simp [pow_add, div_eq_mul_inv, mul_comm]
  have hpos : (0 : ℚ) < 2 ^ a := by positivity
  rw [hscaled, div_lt_one hpos] at h
  rw [hscaled, one_div_pow, ← add_div, div_le_one hpos]
  exact_mod_cast h

/-! ### The exchange -/

/-- Two nodes exchange their lengths. -/
theorem weightedSum_swap_le {S : Finset Nat} {w l : Nat → Nat} {x z : Nat} (hx : x ∈ S) (hz : z ∈ S) (hw : w x ≤ w z)
    (hl : l x ≤ l z) : weightedSum w S (fun m => l (Equiv.swap x z m)) ≤ weightedSum w S l := by
  rcases eq_or_ne x z with rfl | hne
  · simp
  · obtain ⟨R, hxR, hzR, rfl⟩ : ∃ R, x ∉ insert z R ∧ z ∉ R ∧ S = insert x (insert z R) :=
      ⟨(S.erase x).erase z, by simp [hne], by simp, by
        rw [Finset.insert_erase (Finset.mem_erase.2 ⟨hne.symm, hz⟩), Finset.insert_erase hx]⟩
    have hrest : weightedSum w R (fun m => l (Equiv.swap x z m)) = weightedSum w R l :=
      weightedSum_congr fun m hm => by
        rw [Equiv.swap_apply_of_ne_of_ne (ne_of_mem_of_not_mem (Finset.mem_insert_of_mem hm) hxR)
          (ne_of_mem_of_not_mem hm hzR)]
    simp only [weightedSum_insert hxR, weightedSum_insert hzR, hrest, Equiv.swap_apply_left, Equiv.swap_apply_right]
    have := mul_add_mul_le_mul_add_mul hw hl
    omega

/-- The lightest node can be given the greatest length, at no cost. -/
theorem exists_longest_on_lightest {S : Finset Nat} {w : Nat → Nat} {x : Nat} (hx : x ∈ S) (hlight : ∀ m ∈ S, w x ≤ w m)
    (l : Nat → Nat) :
    ∃ l' : Nat → Nat, (∀ m ∈ S, l' m ≤ l' x) ∧ (∀ m ∈ S, ∃ z ∈ S, l' m = l z) ∧ kraftSum S l' = kraftSum S l
      ∧ weightedSum w S l' ≤ weightedSum w S l := by
  obtain ⟨z, hz, hmax⟩ := S.exists_max_image l ⟨x, hx⟩
  have hmem : ∀ m ∈ S, Equiv.swap x z m ∈ S := fun m hm => by
    rw [Equiv.swap_apply_def]
    split_ifs <;> assumption
  refine ⟨fun m => l (Equiv.swap x z m), fun m hm => ?_, fun m hm => ⟨_, hmem m hm, rfl⟩, ?_,
    weightedSum_swap_le hx hz (hlight z hz) (hmax x hx)⟩
  · simp only [Equiv.swap_apply_left]
    exact hmax _ (hmem m hm)
  · refine Equiv.Perm.sum_comp (Equiv.swap x z) S (fun m => (1 / 2 : ℚ) ^ l m) fun m hm => ?_
    by_contra hn
    exact hm (Equiv.swap_apply_of_ne_of_ne (fun e => hn (e ▸ hx)) (fun e => hn (e ▸ hz)))

/-- The two lightest nodes can be given one length `a + 1`, at no cost: then one node of their weight can stand for both with
length `a`. -/
theorem exists_equal_lengths {R : Finset Nat} {w l : Nat → Nat} {x y : Nat} (hx : x ∉ insert y R) (hy : y ∉ R)
    (hxy : w x ≤ w y) (hlight : ∀ m ∈ R, w y ≤ w m) (hkraft : kraftSum (insert x (insert y R)) l ≤ 1) :
    ∃ (a : Nat) (l' : Nat → Nat), (1 / 2) ^ a + kraftSum R l' ≤ 1
      ∧ (w x + w y) * (a + 1) + weightedSum w R l' ≤ weightedSum w (insert x (insert y R)) l := by
  have hylight : ∀ m ∈ insert y R, w y ≤ w m := by simpa using hlight
  have hxlight : ∀ m ∈ insert x (insert y R), w x ≤ w m := by
    simpa [hxy] using fun m hm => hxy.trans (hlight m hm)
  obtain ⟨l1, hmax1, -, hk1, hw1⟩ := exists_longest_on_lightest (Finset.mem_insert_self x _) hxlight l
  obtain ⟨l2, hmax2, hval2, hk2, hw2⟩ := exists_longest_on_lightest (Finset.mem_insert_self y R) hylight l1
  rw [← hk1, kraftSum_insert hx, ← hk2] at hkraft
  have hlt : kraftSum (insert y R) l2 < 1 := by
    have : (0 : ℚ) < (1 / 2) ^ l1 x := by positivity
    linarith
  have hroom := kraftSum_room hmax2 hlt
  obtain ⟨z, hz, hyz⟩ := hval2 y (Finset.mem_insert_self y R)
  have hle : l2 y ≤ l1 x := hyz ▸ hmax1 z (Finset.mem_insert_of_mem hz)
  have hrest : 0 ≤ kraftSum R l2 := Finset.sum_nonneg fun m _ => by positivity
  rw [kraftSum_insert hy] at hlt hroom
  obtain ⟨a, ha⟩ : ∃ a, l2 y = a + 1 := by
    refine Nat.exists_eq_add_one_of_ne_zero fun h0 => ?_
    rw [h0, pow_zero] at hlt
    linarith
  refine ⟨a, l2, ?_, ?_⟩
  · rw [ha] at hroom
    rw [half_pow_eq]
    linarith
  · have hcost := Nat.mul_le_mul_left (w x) hle
    rw [weightedSum_insert hy] at hw2
    rw [weightedSum_insert hx] at hw1
    rw [ha] at hw2 hcost
    rw [Nat.add_mul]
    omega

/-! ### The queue before and after a merge (rule R143) -/

/-- The nodes queued when node `k` is made. -/
def frontier (nodes : List Node) (k : Nat) : Finset Nat :=
  (Finset.range k).filter (fun m => m ∉ childrenOf (nodes.take k))

theorem mem_frontier {nodes : List Node} {k m : Nat} : m ∈ frontier nodes k ↔ QueuedAt nodes k m := by
  simp [frontier]

/-- Node `k` merges `l` and `r`, the two lightest of a queue whose other nodes are `R`. -/
structure MergeAt (nodes : List Node) (k l r : Nat) (R : Finset Nat) : Prop where
  node : ∃ f, nodes[k]? = some (.internal f l r)
  freq : freqAt nodes k = freqAt nodes l + freqAt nodes r
  left_notMem : l ∉ insert r R
  right_notMem : r ∉ R
  node_notMem : k ∉ R
  le : freqAt nodes l ≤ freqAt nodes r
  least : ∀ m ∈ R, freqAt nodes r ≤ freqAt nodes m

theorem mem_childrenOf_take {nodes : List Node} {k m : Nat} (h : m ∈ childrenOf (nodes.take k)) :
    ∃ (j f l r : Nat) (bit : Bool), j < k ∧ nodes[j]? = some (.internal f l r) ∧ (if bit then r else l) = m := by
  obtain ⟨j, f, l, r, bit, hj, hchild⟩ := mem_childrenOf.1 h
  rw [List.getElem?_take] at hj
  split at hj
  · exact ⟨j, f, l, r, bit, ‹_›, hj, hchild⟩
  · cases hj

section
variable {es : List Entry} {nodes : List Node} {root : Nat}

theorem treeOver_child_lt (ht : TreeOver es nodes root) {k f l r : Nat} (hk : nodes[k]? = some (.internal f l r))
    (bit : Bool) : (if bit then r else l) < k := by
  obtain ⟨hl, hr⟩ := treeOver_children_lt ht hk
  cases bit <;> assumption

/-- Before the first merge exactly the leaves are queued. -/
theorem frontier_leaves (ht : TreeOver es nodes root) : frontier nodes es.length = Finset.range es.length := by
  refine Finset.filter_true_of_mem fun m _ hm => ?_
  obtain ⟨k, f, l, r, bit, hlt, hk, -⟩ := mem_childrenOf_take hm
  rcases treeOver_node_cases ht hk with ⟨-, f', hleaf⟩ | ⟨hge, -⟩
  · cases hleaf
  · omega

/-- After the last merge exactly the root is queued. -/
theorem frontier_root (ht : TreeOver es nodes root) : frontier nodes nodes.length = {root} := by
  ext m
  rw [mem_frontier, QueuedAt, List.take_length, ht.onceEach.mem_iff, List.mem_range, Finset.mem_singleton]
  have := ht.rootLast
  omega

/-- A merge takes its two children from the queue and puts the new node into it. -/
theorem frontier_merge (ht : TreeOver es nodes root) (hg : GreedyMerges nodes) {k : Nat} (hk : es.length ≤ k)
    (hlt : k < nodes.length) :
    ∃ l r R, MergeAt nodes k l r R ∧ frontier nodes k = insert l (insert r R) ∧ frontier nodes (k + 1) = insert k R := by
  obtain ⟨f, l, r, hnode⟩ : ∃ f l r, nodes[k]? = some (.internal f l r) := by
    rcases treeOver_node_cases ht (List.getElem?_eq_getElem hlt) with ⟨hleaf, -⟩ | ⟨-, f, l, r, hx⟩
    · omega
    · exact ⟨f, l, r, hx ▸ List.getElem?_eq_getElem hlt⟩
  obtain ⟨hne, hl, hr, hle, hleast⟩ := hg k f l r hnode
  obtain ⟨-, -, -, hf⟩ := nodeOk_internal.1 (ht.shape _ (List.mem_zipIdx_iff_getElem?.2 hnode))
  have hmem : ∀ m, m ∈ ((frontier nodes k).erase l).erase r ↔ m ≠ r ∧ m ≠ l ∧ QueuedAt nodes k m := fun m => by
    rw [Finset.mem_erase, Finset.mem_erase, mem_frontier]
  refine ⟨l, r, ((frontier nodes k).erase l).erase r, ⟨⟨f, hnode⟩, ?_, ?_, ?_, ?_, hle, fun m hm => ?_⟩, ?_, ?_⟩
  · rw [freqAt_of_getElem? hnode, ← hf, Node.freq]
  · simp [hne]
  · simp
  · exact fun hm => Nat.lt_irrefl k ((hmem k).1 hm).2.2.1
  · obtain ⟨hmr, hml, hq⟩ := (hmem m).1 hm
    exact hleast m hq hml hmr
  · rw [Finset.insert_erase (Finset.mem_erase.2 ⟨hne.symm, mem_frontier.2 hr⟩), Finset.insert_erase (mem_frontier.2 hl)]
  · ext m
    have hkids : k ∉ childrenOf (nodes.take k) := fun hm => by
      obtain ⟨j, f', l', r', bit, hlt, hj, hchild⟩ := mem_childrenOf_take hm
      have := treeOver_child_lt ht hj bit
      omega
    rw [mem_frontier, Finset.mem_insert, hmem, QueuedAt, QueuedAt, List.take_add_one, hnode, Option.toList_some,
      childrenOf_append, childrenOf_internal, List.mem_append, List.mem_pair]
    rcases eq_or_ne m k with rfl | hmk
    · have hml := hl.1
      have hmr := hr.1
      simp only [hkids, false_or, true_or, iff_true]
      omega
    · have : m < k + 1 ↔ m < k := by omega
      simp only [this, hmk, false_or]
      tauto

/-- What holds of the root alone and goes from the queue after each merge to the queue before it holds of the leaves. -/
theorem frontier_induction (ht : TreeOver es nodes root) (hg : GreedyMerges nodes) {P : Finset Nat → Prop} (hroot : P {root})
    (hmerge : ∀ k l r R, MergeAt nodes k l r R → P (insert k R) → P (insert l (insert r R))) :
    P (Finset.range es.length) := by
  have hall : ∀ gap k, es.length ≤ k → k + gap = nodes.length → P (frontier nodes k) := by
    intro gap
    induction gap with
    | zero =>
      intro k _ hk
      rw [show k = nodes.length from hk, frontier_root ht]
      exact hroot
    | succ gap ih =>
      intro k hk hgap
      obtain ⟨l, r, R, hm, hbefore, hafter⟩ := frontier_merge ht hg hk (by omega)
      rw [hbefore]
      exact hmerge k l r R hm (hafter ▸ ih (k + 1) (by omega) (by omega))
  have hsize := ht.size
  have hlast := ht.rootLast
  rw [← frontier_leaves ht]
  exact hall (nodes.length - es.length) es.length (Nat.le_refl _) (by omega)

/-! ### Depths -/

/-- `d` gives each node of a tree its depth below the root. -/
structure Depths (nodes : List Node) (root : Nat) (d : Nat → Nat) : Prop where
  atRoot : d root = 0
  left : ∀ k f l r, nodes[k]? = some (.internal f l r) → d l = d k + 1
  right : ∀ k f l r, nodes[k]? = some (.internal f l r) → d r = d k + 1
  path : ∀ m ≤ root, ∀ p, follow nodes root p = some m → d m = p.length

theorem exists_depths (ht : TreeOver es nodes root) : ∃ d, Depths nodes root d := by
  choose! path hpath using fun m (hm : m ≤ root) => treeOver_reach ht hm
  have hd : ∀ m ≤ root, ∀ p, follow nodes root p = some m → (path m).length = p.length := fun m hm p hp => by
    rw [treeOver_path_unique ht (hpath m hm) hp]
  have hdown : ∀ k f l r, nodes[k]? = some (.internal f l r) → ∀ bit : Bool,
      (path (if bit then r else l)).length = (path k).length + 1 := fun k f l r hk bit => by
    have hklt := (List.getElem?_eq_some_iff.1 hk).1
    have hlast := ht.rootLast
    have hchild := treeOver_child_lt ht hk bit
    rw [hd _ (by omega) (path k ++ [bit]), List.length_append, List.length_singleton]
    rw [follow_append, hpath k (by omega), Option.bind_some, follow_internal hk, follow_nil]
  exact ⟨fun m => (path m).length, hd root (Nat.le_refl _) [] rfl, fun k f l r hk => hdown k f l r hk false,
    fun k f l r hk => hdown k f l r hk true, hd⟩

/-- Kraft's sum of the leaves' depths is 1. -/
theorem kraftSum_depths (ht : TreeOver es nodes root) (hg : GreedyMerges nodes) {d : Nat → Nat} (hd : Depths nodes root d) :
    kraftSum (Finset.range es.length) d = 1 := by
  refine frontier_induction ht hg (P := fun S => kraftSum S d = 1) (by simp [kraftSum, hd.atRoot]) fun k l r R hm h => ?_
  obtain ⟨f, hnode⟩ := hm.node
  rw [kraftSum_insert hm.node_notMem, half_pow_eq] at h
  rw [kraftSum_insert hm.left_notMem, kraftSum_insert hm.right_notMem, hd.left k f l r hnode, hd.right k f l r hnode,
    ← add_assoc, h]

/-- No lengths that meet Kraft's inequality have a smaller weighted sum than the depths of the leaves. -/
theorem weightedSum_depths_le (ht : TreeOver es nodes root) (hg : GreedyMerges nodes) {d : Nat → Nat}
    (hd : Depths nodes root d) {l : Nat → Nat} (hkraft : kraftSum (Finset.range es.length) l ≤ 1) :
    weightedSum (freqAt nodes) (Finset.range es.length) d ≤ weightedSum (freqAt nodes) (Finset.range es.length) l := by
  revert l
  refine frontier_induction ht hg (P := fun S => ∀ {l : Nat → Nat}, kraftSum S l ≤ 1 →
    weightedSum (freqAt nodes) S d ≤ weightedSum (freqAt nodes) S l) (fun _ => by simp [weightedSum, hd.atRoot]) ?_
  intro k x y R hm ih l hkraft
  obtain ⟨f, hnode⟩ := hm.node
  obtain ⟨a, l', hk', hw'⟩ := exists_equal_lengths hm.left_notMem hm.right_notMem hm.le hm.least hkraft
  have hsame : ∀ m ∈ R, Function.update l' k a m = l' m := fun m hm' =>
    Function.update_of_ne (ne_of_mem_of_not_mem hm' hm.node_notMem) _ _
  have hafter := ih (l := Function.update l' k a) (by
    rw [kraftSum_insert hm.node_notMem, Function.update_self, kraftSum_congr hsame]
    exact hk')
  rw [weightedSum_insert hm.node_notMem, weightedSum_insert hm.node_notMem, Function.update_self, weightedSum_congr hsame,
    hm.freq] at hafter
  rw [weightedSum_insert hm.left_notMem, weightedSum_insert hm.right_notMem, hd.left k f x y hnode, hd.right k f x y hnode]
  calc _ = (freqAt nodes x + freqAt nodes y) * d k + weightedSum (freqAt nodes) R d + (freqAt nodes x + freqAt nodes y) := by
        ring
    _ ≤ (freqAt nodes x + freqAt nodes y) * a + weightedSum (freqAt nodes) R l' + (freqAt nodes x + freqAt nodes y) :=
        Nat.add_le_add_right hafter _
    _ = (freqAt nodes x + freqAt nodes y) * (a + 1) + weightedSum (freqAt nodes) R l' := by ring
    _ ≤ _ := hw'

end

/-! ### ASSIGN's codes (rule R147) -/

theorem sum_map_eq_sum_range {α M : Type} [AddCommMonoid M] {xs : List α} {n : Nat} (hn : xs.length = n) {g : α → M}
    {h : Nat → M} (hgh : ∀ i (hi : i < xs.length), g xs[i] = h i) : (xs.map g).sum = ∑ i ∈ Finset.range n, h i := by
  have hmap : xs.map g = (List.range n).map h :=
    List.ext_getElem (by simp [hn]) fun i hi _ => by simpa using hgh i (by simpa using hi)
  rw [hmap]
  rfl

theorem treeOver_leaf_freq {es : List Entry} {nodes : List Node} {root i : Nat} (ht : TreeOver es nodes root)
    (hi : i < es.length) : freqAt nodes i = es[i].freq := by
  have hsize := ht.size
  have hget := List.getElem?_eq_getElem (show i < nodes.length by omega)
  rcases treeOver_node_cases ht hget with ⟨-, f, hx⟩ | ⟨hge, -⟩
  · rw [hx] at hget
    obtain ⟨-, hf⟩ := nodeOk_leaf.1 (ht.shape _ (List.mem_zipIdx_iff_getElem?.2 hget))
    rw [List.getElem?_eq_getElem hi, Option.map_some, Option.some.injEq] at hf
    rw [freqAt_of_getElem? hget, Node.freq, hf]
  · omega

/-- What makes code lengths optimal for frequencies: at least 1, within Kraft's inequality, and of the least weighted sum. -/
structure OptimalLengths (es out : List Entry) : Prop where
  pos : ∀ e ∈ out, 1 ≤ e.code.length
  kraft : (out.map (fun e => (1 / 2 : ℚ) ^ e.code.length)).sum ≤ 1
  least : ∀ ls : List Nat, ls.length = es.length → (∀ l ∈ ls, 1 ≤ l) → (ls.map (fun l => (1 / 2 : ℚ) ^ l)).sum ≤ 1 →
    cost out ≤ (List.zipWith (fun e l => e.freq * l) es ls).sum

/-- The code "0" of a single entry has optimal length. -/
theorem optimalLengths_single {es out : List Entry} {nodes : List Node} {root : Nat} (h : AssignedCodes es nodes root out)
    (hone : es.length = 1) : OptimalLengths es out := by
  have hcode := h.single hone
  have hsame := h.same
  obtain ⟨c, rfl⟩ := List.length_eq_one_iff.1 (h.length_eq.trans hone)
  obtain ⟨a, rfl⟩ := List.length_eq_one_iff.1 hone
  obtain ⟨-, hfreq⟩ : c.sym = a.sym ∧ c.freq = a.freq := by simpa using hsame
  have hc : c.code = [false] := hcode c (by simp)
  refine ⟨by simp [hc], by norm_num [hc], fun ls hlen hpos _ => ?_⟩
  obtain ⟨l, rfl⟩ := List.length_eq_one_iff.1 hlen
  simpa [cost, hc, hfreq] using Nat.mul_le_mul_left a.freq (hpos l (by simp))

/-- Codes that are the paths to the leaves of a tree of greedy merges have optimal lengths: their lengths are the leaves' depths. -/
theorem optimalLengths_of_paths {es out : List Entry} {nodes : List Node} {root : Nat} (ht : TreeOver es nodes root)
    (hg : GreedyMerges nodes) (h : AssignedCodes es nodes root out) (htwo : 2 ≤ es.length) : OptimalLengths es out := by
  have hpaths := h.paths htwo
  have hlen := h.length_eq
  have hlast := ht.rootLast
  have hsize := ht.size
  obtain ⟨d, hd⟩ := exists_depths ht
  have hdepth : ∀ i (hi : i < out.length), out[i].code.length = d i := fun i hi =>
    (hd.path i (by omega) _ (hpaths i hi)).symm
  have hfreqs : out.map Entry.freq = es.map Entry.freq := by
    simpa [Function.comp_def] using congrArg (List.map Prod.snd) h.same
  have hfreq : ∀ i (hi : i < out.length), out[i].freq = freqAt nodes i := fun i hi => by
    rw [treeOver_leaf_freq ht (hlen ▸ hi)]
    simpa using List.getElem_of_eq hfreqs (show i < (out.map Entry.freq).length by simpa using hi)
  refine ⟨fun e he => ?_, le_of_eq ?_, fun ls hls _ hkraft => ?_⟩
  · obtain ⟨i, hi, rfl⟩ := List.getElem_of_mem he
    refine List.length_pos_iff.2 fun hnil => ?_
    have hroot := hpaths i hi
    rw [hnil, follow_nil, Option.some.injEq] at hroot
    omega
  · rw [sum_map_eq_sum_range hlen (h := fun i => (1 / 2 : ℚ) ^ d i) fun i hi => by rw [hdepth i hi]]
    exact kraftSum_depths ht hg hd
  · have hcost : cost out = weightedSum (freqAt nodes) (Finset.range es.length) d :=
      sum_map_eq_sum_range hlen fun i hi => by rw [hdepth i hi, hfreq i hi]
    have hother : (List.zipWith (fun e l => e.freq * l) es ls).sum
        = weightedSum (freqAt nodes) (Finset.range es.length) (fun i => ls.getD i 0) := by
      rw [← List.map_id (List.zipWith _ es ls)]
      refine sum_map_eq_sum_range (by simp [hls]) fun i hi => ?_
      have hies : i < es.length := by simpa [hls] using hi
      simp [treeOver_leaf_freq ht hies, hls, hies]
    rw [sum_map_eq_sum_range hls (h := fun i => (1 / 2 : ℚ) ^ ls.getD i 0) fun i hi => by simp [hi]] at hkraft
    rw [hcost, hother]
    exact weightedSum_depths_le ht hg hd hkraft

/-- Settles O36: the codes are the paths of a tree of greedy merges, and the depths of such a tree are optimal. -/
theorem codeLengthsAreOptimal : Obligations.CodeLengthsAreOptimal := by
  intro s hp ha
  obtain ⟨root, hmktree, htree, hgreedy⟩ := exec_mktree_greedy_tree hp ha
  obtain ⟨out, hcodes, hassign⟩ := exec_assign_answered
    (s := answered s 0 { s.blk with nodes := s.blk.mergedTree.nodes, heap := [], root := some root, phase := .treeBuilt })
    rfl rfl htree
  have hoptimal : OptimalLengths s.blk.alpha out := by
    rcases Nat.lt_or_ge s.blk.alpha.length 2 with hlt | htwo
    · have hpos := List.length_pos_iff.2 ha
      exact optimalLengths_single hcodes (show s.blk.alpha.length = 1 by omega)
    · exact optimalLengths_of_paths htree hgreedy hcodes htwo
  exact ⟨_, _, hmktree, hassign, hcodes.same, hcodes.huffman, hoptimal.pos, hoptimal.kraft, hoptimal.least⟩

end Sys2Proof.Machine
end

section
/-! SUPPORT. CANON (43_canonical.md section 1): the canonical code of an entry, read as a binary fraction, is the share of the code
space that the entries before it take (rule R163); and what CANON answers (rule R162). -/

namespace Sys2Proof.Machine

open Sys2Proof.Safety

/-! ### Numerals and their digits (00_scope.md rule R10) -/

theorem numeral_lt (m : Bits) : numeral m < 2 ^ m.length := by
  induction m using List.reverseRecOn with
  | nil => exact Nat.one_pos
  | append_singleton m b ih =>
    rw [numeral_concat, List.length_append, List.length_singleton, Nat.pow_succ, Nat.bit_val]
    have := Bool.toNat_le b
    omega

theorem bitsOf_numeral (m : Bits) : bitsOf (numeral m) m.length = m :=
  List.ext_getElem (bitsOf_length _ _) fun i _ hi => by rw [bitsOf_getElem, numeral_testBit m i hi]

theorem numeral_bitsOf {v len : Nat} (h : v < 2 ^ len) : numeral (bitsOf v len) = v := by
  have hlt := numeral_lt (bitsOf v len)
  have hbits := bitsOf_numeral (bitsOf v len)
  rw [bitsOf_length] at hlt hbits
  exact bitsOf_inj hlt h hbits

/-- The greatest numeral of its length has ones only. -/
theorem bits_true_of_numeral_succ {m : Bits} (h : numeral m + 1 = 2 ^ m.length) : ∀ b ∈ m, b = true := by
  intro b hb
  obtain ⟨i, hi, rfl⟩ := List.getElem_of_mem hb
  rw [← numeral_testBit m i hi, show numeral m = 2 ^ m.length - 1 by omega, Nat.testBit_two_pow_sub_one]
  exact decide_eq_true (by omega)

/-! ### Canonical codes as fractions of the code space (rule R163) -/

/-- The counter at the length 255 is Kraft's sum of the entries before. -/
theorem canonicalValue_eq_kraft_take (es : List Entry) (i : Nat) : canonicalValue es i 255 = kraft (es.take i) := rfl

theorem canonicalValue_lt_of_lt {es : List Entry} {i j : Nat} (hij : i < j) (hj : j ≤ es.length) (len : Nat) :
    canonicalValue es i len < canonicalValue es j len := by
  have hstep := canonicalValue_succ (show i < es.length by omega) len
  have hmono := canonicalValue_mono (es := es) (show i + 1 ≤ j from hij) len
  have := Nat.two_pow_pos (len - es[i].code.length)
  omega

theorem code_of_numbered {es : List Entry} (h : CanonicallyNumbered es) {i : Nat} (hi : i < es.length) :
    es[i].code = bitsOf (canonicalValue es i es[i].code.length) es[i].code.length :=
  h (es[i], i) (List.mem_zipIdx_iff_getElem?.2 (List.getElem?_eq_getElem hi))

section
variable {es : List Entry} (hsorted : es.Pairwise (fun x y => x.code.length ≤ y.code.length))
  (hmax : ∀ e ∈ es, e.code.length ≤ 255)
include hsorted hmax

/-- The counter at an entry's own length, brought to the length 255. -/
theorem canonicalValue_scale {i : Nat} (hi : i < es.length) :
    canonicalValue es i es[i].code.length * 2 ^ (255 - es[i].code.length) = canonicalValue es i 255 := by
  refine (canonicalValue_shift (fun x hx => ?_) (hmax _ (List.getElem_mem hi))).symm
  obtain ⟨j, hj, rfl⟩ := List.getElem_of_mem hx
  rw [List.length_take] at hj
  rw [List.getElem_take]
  exact List.pairwise_iff_getElem.1 hsorted j i (by omega) hi (by omega)

/-- The counter fits the entry's digits, if the lengths meet Kraft's inequality. -/
theorem canonicalValue_fits (hkraft : kraft es ≤ 2 ^ 255) {i : Nat} (hi : i < es.length) :
    canonicalValue es i es[i].code.length < 2 ^ es[i].code.length := by
  refine Nat.lt_of_mul_lt_mul_right (a := 2 ^ (255 - es[i].code.length)) ?_
  rw [canonicalValue_scale hsorted hmax hi, ← Nat.pow_add, Nat.add_sub_cancel' (hmax _ (List.getElem_mem hi))]
  calc canonicalValue es i 255 < canonicalValue es es.length 255 := canonicalValue_lt_of_lt hi (Nat.le_refl _) _
    _ = kraft es := by rw [canonicalValue_eq_kraft_take, List.take_length]
    _ ≤ 2 ^ 255 := hkraft

variable (hnum : CanonicallyNumbered es) (hkraft : kraft es ≤ 2 ^ 255)
include hnum hkraft

theorem numeral_of_numbered {i : Nat} (hi : i < es.length) :
    numeral es[i].code = canonicalValue es i es[i].code.length := by
  calc numeral es[i].code = numeral (bitsOf (canonicalValue es i es[i].code.length) es[i].code.length) :=
        congrArg numeral (code_of_numbered hnum hi)
    _ = canonicalValue es i es[i].code.length := numeral_bitsOf (canonicalValue_fits hsorted hmax hkraft hi)

/-- A canonical code as a binary fraction, scaled: the code space that the entries before it take. -/
theorem fraction_of_numbered {i : Nat} (hi : i < es.length) :
    numeral es[i].code * 2 ^ (255 - es[i].code.length) = canonicalValue es i 255 := by
  rw [numeral_of_numbered hsorted hmax hnum hkraft hi, canonicalValue_scale hsorted hmax hi]

theorem fractionsRise_of_numbered : FractionsRise es := by
  refine List.pairwise_iff_getElem.2 fun i j hi hj hij => ?_
  rw [fraction_of_numbered hsorted hmax hnum hkraft hi, fraction_of_numbered hsorted hmax hnum hkraft hj]
  exact canonicalValue_lt_of_lt hij (Nat.le_of_lt hj) _

/-- When the lengths fill the code space, the last code is the greatest numeral of its length. -/
theorem last_code_all_ones (hcomplete : kraft es = 2 ^ 255) {e : Entry} (he : es.getLast? = some e) :
    ∀ b ∈ e.code, b = true := by
  obtain ⟨init, rfl⟩ := List.getLast?_eq_some_iff.1 he
  have hfraction := fraction_of_numbered hsorted hmax hnum hkraft (show init.length < (init ++ [e]).length by simp)
  rw [List.getElem_concat_length rfl, canonicalValue_eq_kraft_take, List.take_left] at hfraction
  refine bits_true_of_numeral_succ (Nat.eq_of_mul_eq_mul_right (Nat.two_pow_pos (255 - e.code.length)) ?_)
  calc (numeral e.code + 1) * 2 ^ (255 - e.code.length) = kraft init + 2 ^ (255 - e.code.length) := by
        rw [Nat.succ_mul, hfraction]
    _ = kraft (init ++ [e]) := by simp [kraft]
    _ = 2 ^ e.code.length * 2 ^ (255 - e.code.length) := by
        rw [hcomplete, ← Nat.pow_add, Nat.add_sub_cancel' (hmax e (by simp))]

end

/-! ### What CANON answers (rule R162) -/

section
variable {s : State}

theorem exec_canon_of_ne_codesAssigned (hp : s.blk.phase ≠ .codesAssigned) :
    exec .canon s = .next (faulted s .protocolMisuse) := by
  show execCanon s = _
  rw [execCanon, if_pos hp, conclude_raise]

theorem exec_canon_of_codesAssigned {es : List Entry} (hp : s.blk.phase = .codesAssigned)
    (hes : canonical (s.blk.alpha.insertionSort orderB) = .ok es) :
    exec .canon s = .next (answered s 0 { s.blk with alpha := es, phase := .canonicalized }) := by
  show execCanon s = _
  rw [execCanon, if_neg (not_not.2 hp), hes, conclude_ok]
  rfl

end

/-- In strict order (b) code lengths ascend. -/
theorem lengths_ascend_of_ltB {es : List Entry} (h : es.Pairwise ltB) :
    es.Pairwise (fun x y => x.code.length ≤ y.code.length) :=
  h.imp fun hxy => by simp only [ltB] at hxy; omega

/-- Settles O37: CANON's numbering exists and keeps Huffman codes; read as fractions its codes are what the entries before
take of the code space, so they rise, and the last one leaves no room. -/
theorem canonNumbersCodes : Obligations.CanonNumbersCodes := by
  refine ⟨by decide, fun s => ⟨exec_canon_of_ne_codesAssigned, fun hp _ hnd hh => ?_⟩⟩
  obtain ⟨es, hes⟩ := huffmanCodes_canonical_total hh
  obtain ⟨hperm, hltB, hnum, hhuffman⟩ := canonical_of_huffman hes hnd hh
  have hsorted := lengths_ascend_of_ltB hltB
  have hmax : ∀ e ∈ es, e.code.length ≤ 255 := fun e he => (hhuffman.lengths e he).2
  have hkraft := huffmanCodes_kraft_le hhuffman
  exact ⟨es, exec_canon_of_codesAssigned hp hes, hperm, hltB, hnum, hhuffman.prefixFree,
    fractionsRise_of_numbered hsorted hmax hnum hkraft,
    fun htwo e he => last_code_all_ones hsorted hmax hnum hkraft (hhuffman.complete htwo) he⟩

end Sys2Proof.Machine
end

section
/-! SUPPORT. SERHDR and PARSE (43_canonical.md sections 2 and 3): when a length count does not fit its byte, what the header and LUT
hold (rules R164, R165), and which headers PARSE accepts (rule R166). -/

namespace Sys2Proof.Machine

open Sys2Proof.Safety

/-! ### What SERHDR answers (rule R164) -/

/-- Some code length up to maxBits has more codes than its count byte can say. -/
abbrev CountOverflows (es : List Entry) : Prop := ∃ k ∈ List.range (maxBitsOf es), countLen es (k + 1) > 255

/-- The count bytes are those of the lengths from 1 to maxBits. -/
theorem countOverflows_iff {es : List Entry} :
    CountOverflows es ↔ ∃ k, 1 ≤ k ∧ k ≤ maxBitsOf es ∧ 255 < countLen es k := by
  constructor
  · rintro ⟨k, hk, hgt⟩
    exact ⟨k + 1, by omega, List.mem_range.1 hk, hgt⟩
  · rintro ⟨k, hpos, hk, hgt⟩
    obtain ⟨k, rfl⟩ := Nat.exists_eq_add_of_le' hpos
    exact ⟨k, List.mem_range.2 hk, hgt⟩

theorem countLen_le_of_fits {es : List Entry} (h : ¬ CountOverflows es) :
    ∀ k ∈ List.range (maxBitsOf es), countLen es (k + 1) ≤ 255 :=
  fun k hk => Nat.not_lt.1 fun hgt => h ⟨k, hk, hgt⟩

theorem maxBitsOf_of_getLast? {es : List Entry} {last : Entry} (h : es.getLast? = some last) :
    maxBitsOf es = last.code.length := by
  rw [maxBitsOf, h]

theorem exec_serhdr_populated {s : State} (h : ¬ (s.blk.hdr = [] ∧ s.blk.pay = [])) :
    exec .serhdr s = .next (faulted s .encodedMessageAlreadyPopulated) := by
  show execSerhdr s = _
  rw [execSerhdr, if_pos (by simpa using not_and_or.1 h), conclude_raise]

section
variable {s : State} (hhdr : s.blk.hdr = []) (hpay : s.blk.pay = [])
include hhdr hpay

theorem serhdr_buffers_empty : ¬ (s.blk.hdr.length ≠ 0 ∨ s.blk.pay.length ≠ 0) := by
  simp [hhdr, hpay]

theorem exec_serhdr_of_ne_canonicalized (hp : s.blk.phase ≠ .canonicalized) :
    exec .serhdr s = .next (faulted s .protocolMisuse) := by
  show execSerhdr s = _
  rw [execSerhdr, if_neg (serhdr_buffers_empty hhdr hpay), if_pos hp, conclude_raise]

theorem exec_serhdr_of_empty (hp : s.blk.phase = .canonicalized) (halpha : s.blk.alpha = []) :
    exec .serhdr s = .next (faulted s .protocolMisuse) := by
  show execSerhdr s = _
  rw [execSerhdr, if_neg (serhdr_buffers_empty hhdr hpay), if_neg (not_not.2 hp), if_pos (List.length_eq_zero_iff.2 halpha),
    conclude_raise]

variable (hp : s.blk.phase = .canonicalized) (halpha : s.blk.alpha ≠ [])
include hp halpha

theorem exec_serhdr_of_overflow (hover : CountOverflows s.blk.alpha) :
    exec .serhdr s = .next (faulted s .unrepresentable) := by
  show execSerhdr s = _
  rw [execSerhdr, if_neg (serhdr_buffers_empty hhdr hpay), if_neg (not_not.2 hp), if_neg (mt List.length_eq_zero_iff.1 halpha),
    if_pos hover, conclude_raise]

theorem exec_serhdr_of_fits (hmax : maxBitsOf s.blk.alpha ≤ 255) (hfits : ¬ CountOverflows s.blk.alpha) :
    exec .serhdr s = .next (answered s 0
      { s.blk with hdr := bitsOfBytes (headerBytes s.blk.alpha), lut := lutOf s.blk.alpha, phase := .headerSerialized }) := by
  show execSerhdr s = _
  rw [execSerhdr, if_neg (serhdr_buffers_empty hhdr hpay), if_neg (not_not.2 hp), if_neg (mt List.length_eq_zero_iff.1 halpha),
    if_neg hfits, if_neg (Nat.not_lt.2 hmax), conclude_ok]
  rfl

/-- SERHDR raises Unrepresentable exactly when a count overflows. -/
theorem exec_serhdr_unrepresentable_iff (hmax : maxBitsOf s.blk.alpha ≤ 255) :
    exec .serhdr s = .next (faulted s .unrepresentable) ↔ CountOverflows s.blk.alpha := by
  refine ⟨fun h => by_contra fun hfits => ?_, exec_serhdr_of_overflow hhdr hpay hp halpha⟩
  rw [exec_serhdr_of_fits hhdr hpay hp halpha hmax hfits] at h
  simp [answered, faulted] at h

end

/-- A SERHDR that leads to its phase found room and wrote its header. -/
theorem serialized_of_exec_serhdr {s h : State} (hp : s.blk.phase = .canonicalized) (hexec : exec .serhdr s = .next h)
    (hserialized : h.blk.phase = .headerSerialized) (halpha : s.blk.alpha ≠ []) (hmax : maxBitsOf s.blk.alpha ≤ 255) :
    h.blk.hdr = bitsOfBytes (headerBytes s.blk.alpha) ∧ ¬ CountOverflows s.blk.alpha := by
  have hno : ∀ f, exec .serhdr s ≠ .next (faulted s f) := by
    intro f e
    cases e.symm.trans hexec
    cases hp.symm.trans hserialized
  by_cases hempty : s.blk.hdr = [] ∧ s.blk.pay = []
  · obtain ⟨hhdr, hpay⟩ := hempty
    have hfits : ¬ CountOverflows s.blk.alpha := fun hover => hno _ (exec_serhdr_of_overflow hhdr hpay hp halpha hover)
    cases (exec_serhdr_of_fits hhdr hpay hp halpha hmax hfits).symm.trans hexec
    exact ⟨rfl, hfits⟩
  · exact absurd (exec_serhdr_populated hempty) (hno _)

/-! ### What the header and LUT hold (rules R164, R165; 10_state.md rule R30) -/

/-- The count byte of a length whose count fits. -/
theorem byteView_header_count_toNat {es : List Entry} {k : Nat} (hpos : 1 ≤ k) (hk : k ≤ maxBitsOf es)
    (hcount : countLen es k ≤ 255) : (byteView (bitsOfBytes (headerBytes es)) k).toNat = countLen es k := by
  obtain ⟨k, rfl⟩ := Nat.exists_eq_add_of_le' hpos
  rw [byteView_header_count hk, BitVec.toNat_ofNat, Nat.mod_eq_of_lt (Nat.lt_succ_of_le hcount)]

/-- With distinct symbols LUT names entry `i` at a byte exactly when the byte is the entry's symbol. -/
theorem lutOf_eq_some_iff {es : List Entry} (hnd : (es.map Entry.sym).Nodup) (v : Byte) (i : Nat) :
    (lutOf es)[v.toNat]'v.isLt = some i ↔ (es[i]?).map Entry.sym = some v := by
  have hset : ∀ (j : Nat) (e : Entry), es[j]? = some e → (lutOf es)[e.sym.toNat]'e.sym.isLt = some j :=
    fun j e he => lutOf_some hnd (p := (e, j)) (List.mem_zipIdx_iff_getElem?.2 he)
  constructor
  · intro hi
    by_cases hv : ∃ e ∈ es, e.sym = v
    · obtain ⟨e, he, rfl⟩ := hv
      obtain ⟨j, hj⟩ := List.mem_iff_getElem?.1 he
      obtain rfl : j = i := Option.some.inj ((hset j e hj).symm.trans hi)
      rw [hj, Option.map_some]
    · rw [lutOf_none fun e he heq => hv ⟨e, he, heq⟩] at hi
      cases hi
  · intro hi
    obtain ⟨e, he, rfl⟩ := Option.map_eq_some_iff.1 hi
    exact hset i e he

/-- Settles O38: a count overflows or all fit, and of a header whose counts fit every byte is what it was written from. -/
theorem serhdrWritesHeader : Obligations.SerhdrWritesHeader := by
  refine ⟨by decide, fun s hhdr hpay => ⟨exec_serhdr_of_ne_canonicalized hhdr hpay, exec_serhdr_of_empty hhdr hpay,
    fun last hp hlast hmax => ?_⟩⟩
  have halpha : s.blk.alpha ≠ [] := fun hnil => by rw [hnil] at hlast; cases hlast
  rw [← maxBitsOf_of_getLast? hlast] at hmax ⊢
  simp only [← List.countP_eq_length_filter]
  refine ⟨fun hover => exec_serhdr_of_overflow hhdr hpay hp halpha (countOverflows_iff.2 hover), fun hfits => ?_⟩
  have hnot : ¬ CountOverflows s.blk.alpha := fun hover => by
    obtain ⟨k, hpos, hk, hgt⟩ := countOverflows_iff.1 hover
    exact absurd (hfits k hpos hk) (Nat.not_le.2 hgt)
  refine ⟨_, _, exec_serhdr_of_fits hhdr hpay hp halpha hmax hnot, header_length _, ?_,
    fun k hpos hk => byteView_header_count_toNat hpos hk (hfits k hpos hk), fun j hj => byteView_header_sym hj, lutOf_eq_some_iff⟩
  rw [byteView_header_zero, BitVec.toNat_ofNat, Nat.mod_eq_of_lt (Nat.lt_succ_of_le hmax)]

/-! ### The one alphabet whose header cannot be written (90_conflicts.md C1) -/

theorem kraft_of_equal_lengths {es : List Entry} {k : Nat} (h : ∀ e ∈ es, e.code.length = k) :
    kraft es = es.length * 2 ^ (255 - k) := by
  rw [kraft, List.map_congr_left fun e he => by rw [h e he], List.map_const', List.sum_replicate, smul_eq_mul]

/-- In an alphabet of at most 256 Huffman codes a count overflows only if it counts all of 256 entries; codes of one length fill
the code space only at the length 8. -/
theorem countOverflows_iff_full {es : List Entry} (hcap : es.length ≤ 256) (hh : HuffmanCodes es) :
    CountOverflows es ↔ es.length = 256 ∧ ∀ e ∈ es, e.code.length = 8 := by
  rw [countOverflows_iff]
  constructor
  · rintro ⟨k, -, -, hgt⟩
    have hle : countLen es k ≤ es.length := List.countP_le_length
    have hall : ∀ e ∈ es, e.code.length = k := by
      have := List.countP_eq_length.1 (show countLen es k = es.length by omega)
      simpa using this
    have hlen : es.length = 256 := by omega
    refine ⟨hlen, ?_⟩
    obtain ⟨e, he⟩ := List.exists_mem_of_length_pos (show 0 < es.length by omega)
    have hk : k ≤ 255 := hall e he ▸ (hh.lengths e he).2
    have hfull : 2 ^ (8 + (255 - k)) = 2 ^ 255 := by
      rw [Nat.pow_add, ← hh.complete (by omega), kraft_of_equal_lengths hall, hlen]
    have := Nat.pow_right_injective (Nat.le_refl 2) hfull
    obtain rfl : k = 8 := by omega
    exact hall
  · rintro ⟨hlen, hall⟩
    have hcount : countLen es 8 = 256 := hlen ▸ List.countP_eq_length.2 (by simpa using hall)
    have hne : es ≠ [] := List.ne_nil_of_length_pos (by omega)
    have hmaxBits : maxBitsOf es = 8 :=
      (maxBitsOf_of_getLast? (List.getLast?_eq_some_getLast hne)).trans (hall _ (List.getLast_mem hne))
    exact ⟨8, by omega, hmaxBits.ge, by omega⟩

/-- Settles O39: SERHDR raises Unrepresentable when a count overflows, and that takes 256 codes of 8 bits. -/
theorem unrepresentableOnlyFor256EqualCodes : Obligations.UnrepresentableOnlyFor256EqualCodes := by
  intro s h hp hhdr hpay
  rw [exec_serhdr_unrepresentable_iff hhdr hpay hp (h.someSymbol (by rw [hp]; rfl) (by rw [hp]; nofun))
    (maxBitsOf_le h.codeFits)]
  exact countOverflows_iff_full h.alphaFits (h.huffman (by rw [hp]; rfl))

/-! ### What PARSE answers (rule R166) -/

section
variable {s : State}

theorem exec_parse_of_ne_idle (hp : s.blk.phase ≠ .idle) : exec .parse s = .next (faulted s .protocolMisuse) := by
  show execParse s = _
  rw [execParse, if_pos hp, conclude_raise]

theorem exec_parse_accepted {mb n : Nat} (hp : s.blk.phase = .idle) (hsizes : parseSizes s.blk.hdr s.blk.pay = .ok (mb, n)) :
    exec .parse s = .next (answered s 0 { s.blk with hdrMaxbits := mb, hdrN := n, phase := .headerParsed }) := by
  show execParse s = _
  rw [execParse, if_neg (not_not.2 hp), hsizes, conclude_ok]
  rfl

theorem exec_parse_corrupt (hp : s.blk.phase = .idle) (hsizes : parseSizes s.blk.hdr s.blk.pay = raise .corruptHeader) :
    exec .parse s = .next (faulted s .corruptHeader) := by
  show execParse s = _
  rw [execParse, if_neg (not_not.2 hp), hsizes]
  exact conclude_raise s .corruptHeader

end

theorem parseSizes_empty : parseSizes [] [] = .ok (0, 0) := rfl

theorem parseSizes_empty_with_payload {pay : Bits} (hpay : pay ≠ []) : parseSizes [] pay = raise .corruptHeader := by
  simp [parseSizes, hpay]

/-- A header that is not empty is accepted exactly when it has the size it declares. -/
theorem parseSizes_of_ne_nil {hdr : Bits} (pay : Bits) (hhdr : hdr ≠ []) :
    parseSizes hdr pay
      = if hdr.length = 8 * (1 + (byteView hdr 0).toNat + declaredSymbols hdr (byteView hdr 0).toNat)
        then .ok ((byteView hdr 0).toNat, declaredSymbols hdr (byteView hdr 0).toNat) else raise .corruptHeader := by
  rcases parseSizes_cases hdr pay with ⟨hnil, -⟩ | ⟨-, hlen, e⟩ | ⟨e, ⟨hnil, -⟩ | ⟨-, hlen⟩⟩
  · exact absurd hnil hhdr
  · rw [if_pos hlen, e]
  · exact absurd hnil hhdr
  · rw [if_neg hlen, e]

/-- Settles O40: the header is empty or not, and then has the size it declares or not. -/
theorem parseChecksHeaderSize : Obligations.ParseChecksHeaderSize := by
  refine ⟨by decide, fun s => ⟨exec_parse_of_ne_idle, fun hp hhdr hpay => ?_, fun hp hhdr hpay => ?_, fun hp hhdr hlen => ?_,
    fun hp hhdr hlen => ?_⟩⟩
  · exact exec_parse_accepted hp (by rw [hhdr, hpay, parseSizes_empty])
  · exact exec_parse_corrupt hp (by rw [hhdr, parseSizes_empty_with_payload hpay])
  · exact exec_parse_accepted hp ((parseSizes_of_ne_nil _ hhdr).trans (if_pos hlen))
  · exact exec_parse_corrupt hp ((parseSizes_of_ne_nil _ hhdr).trans (if_neg hlen))

end Sys2Proof.Machine
end

section
/-! SUPPORT. DESER (43_canonical.md section 3): its loops end with codes or with CorruptHeader according to the code space that the
count bytes claim, the codes are the canonical numerals (rule R167), and so those that CANON assigned (rule R168). -/

namespace Sys2Proof.Machine

open Sys2Proof.Safety

/-! ### The claimed code space decides (rule R167) -/

/-- A bucket that starts within the code space: its codes exist if they all fit, and there is one too many if not. -/
theorem deserBucket_cases (hdr : Bits) {k : Nat} (j : Nat) {c : Nat} (p : Nat) (hc : c ≤ 2 ^ k) :
    (∃ es, deserBucket hdr k j c p = .ok es ∧ c + j ≤ 2 ^ k)
      ∨ (deserBucket hdr k j c p = raise .corruptHeader ∧ 2 ^ k < c + j)
      ∨ ∃ x, deserBucket hdr k j c p = stuck x := by
  induction j generalizing c p with
  | zero => exact .inl ⟨[], rfl, hc⟩
  | succ j ih =>
    unfold deserBucket
    by_cases hfull : c ≥ 2 ^ k
    · exact .inr (.inl ⟨if_pos hfull, by omega⟩)
    · rw [if_neg hfull]
      by_cases hbyte : p < nBytes hdr
      · rw [checkedByte_ok hbyte]
        rcases ih (p + 1) (show c + 1 ≤ 2 ^ k by omega) with ⟨es, e, hle⟩ | ⟨e, hlt⟩ | ⟨x, e⟩ <;> rw [e]
        · exact .inl ⟨_, rfl, by omega⟩
        · exact .inr (.inl ⟨rfl, by omega⟩)
        · exact .inr (.inr ⟨x, rfl⟩)
      · exact .inr (.inr ⟨.noSuchByte, by rw [checkedByte, if_neg hbyte]; rfl⟩)

/-- The code space that the count bytes `k` to `k + m - 1` claim, in units of which a code of length `k + m` takes one. -/
def claimedFrom (hdr : Bits) (k m : Nat) : Nat :=
  ((List.range m).map (fun i => (byteView hdr (k + i)).toNat * 2 ^ (m - i))).sum

theorem claimedFrom_succ (hdr : Bits) (k m : Nat) :
    claimedFrom hdr k (m + 1) = (byteView hdr k).toNat * 2 ^ (m + 1) + claimedFrom hdr (k + 1) m := by
  simp [claimedFrom, List.range_succ_eq_map, Function.comp_def, Nat.add_assoc, Nat.add_comm 1]

/-- The space that the whole header claims, in units half as large. -/
theorem claimedFrom_one (hdr : Bits) (mb : Nat) : claimedFrom hdr 1 mb = claimedSpace hdr mb * 2 := by
  rw [claimedFrom, claimedSpace, ← List.sum_map_mul_right]
  refine congrArg List.sum (List.map_congr_left fun k hk => ?_)
  have := List.mem_range.1 hk
  rw [Nat.add_comm 1 k, Nat.mul_assoc, ← Nat.pow_succ, show (mb - (k + 1)).succ = mb - k by omega]

/-- DESER's loops from a counter within the code space: the codes exist if the counter and the buckets to come claim no more than
the whole space, and there is one too many if they claim more. -/
theorem deserBuckets_cases (hdr : Bits) (m : Nat) {k c : Nat} (p : Nat) (hc : c ≤ 2 ^ k) :
    (∃ es, deserBuckets hdr m k c p = .ok es ∧ c * 2 ^ m + claimedFrom hdr k m ≤ 2 ^ (k + m))
      ∨ (deserBuckets hdr m k c p = raise .corruptHeader ∧ 2 ^ (k + m) < c * 2 ^ m + claimedFrom hdr k m)
      ∨ ∃ x, deserBuckets hdr m k c p = stuck x := by
  induction m generalizing k c p with
  | zero => exact .inl ⟨[], rfl, by simpa [claimedFrom] using hc⟩
  | succ m ih =>
    unfold deserBuckets
    by_cases hbyte : k < nBytes hdr
    · simp only [checkedByte_ok hbyte]
      rw [claimedFrom_succ, ← Nat.add_assoc (c * _), ← Nat.add_mul]
      rcases deserBucket_cases hdr (byteView hdr k).toNat p hc with ⟨fst, e, hle⟩ | ⟨e, hlt⟩ | ⟨x, e⟩ <;> rw [e]
      · have hshift : (c + (byteView hdr k).toNat) * 2 ^ (m + 1) = ((c + (byteView hdr k).toNat) <<< 1) * 2 ^ m := by
          rw [Nat.shiftLeft_eq, Nat.mul_assoc, ← Nat.pow_add, Nat.add_comm 1 m]
        have hc' : (c + (byteView hdr k).toNat) <<< 1 ≤ 2 ^ (k + 1) := by
          rw [Nat.shiftLeft_eq, Nat.pow_succ]
          omega
        rw [hshift, show k + (m + 1) = k + 1 + m by omega]
        rcases ih (p + (byteView hdr k).toNat) hc' with ⟨rest, e', hle'⟩ | ⟨e', hlt'⟩ | ⟨x, e'⟩ <;> rw [e']
        · exact .inl ⟨_, rfl, hle'⟩
        · exact .inr (.inl ⟨rfl, hlt'⟩)
        · exact .inr (.inr ⟨x, rfl⟩)
      · refine .inr (.inl ⟨rfl, ?_⟩)
        calc 2 ^ (k + (m + 1)) = 2 ^ k * 2 ^ (m + 1) := Nat.pow_add ..
          _ < (c + (byteView hdr k).toNat) * 2 ^ (m + 1) := Nat.mul_lt_mul_of_pos_right hlt (Nat.two_pow_pos _)
          _ ≤ _ := Nat.le_add_right _ _
      · exact .inr (.inr ⟨x, rfl⟩)
    · exact .inr (.inr ⟨.noSuchByte, by rw [checkedByte, if_neg hbyte]; rfl⟩)

section
variable {hdr pay : Bits} {mb n : Nat} (h : parseSizes hdr pay = .ok (mb, n))
include h

/-- Of a header whose sizes PARSE accepts DESER rebuilds an alphabet if the header claims no more than the code space; otherwise
the header is corrupt. -/
theorem deserBuckets_of_parsed :
    (∃ es, deserBuckets hdr mb 1 0 (1 + mb) = .ok es ∧ claimedSpace hdr mb ≤ 2 ^ mb)
      ∨ (deserBuckets hdr mb 1 0 (1 + mb) = raise .corruptHeader ∧ 2 ^ mb < claimedSpace hdr mb) := by
  have hcases := deserBuckets_cases hdr mb (1 + mb) (Nat.zero_le (2 ^ 1))
  rw [claimedFrom_one, Nat.zero_mul, Nat.zero_add, Nat.pow_add] at hcases
  rcases hcases with ⟨es, e, hle⟩ | ⟨e, hlt⟩ | ⟨x, e⟩
  · exact .inl ⟨es, e, by omega⟩
  · exact .inr ⟨e, by omega⟩
  · exact absurd e (deserBuckets_valued_of_parse h x)

theorem deserBuckets_rebuilt (hspace : claimedSpace hdr mb ≤ 2 ^ mb) :
    ∃ es, deserBuckets hdr mb 1 0 (1 + mb) = .ok es := by
  rcases deserBuckets_of_parsed h with ⟨es, e, -⟩ | ⟨-, hlt⟩
  · exact ⟨es, e⟩
  · omega

theorem deserBuckets_corrupt (hspace : 2 ^ mb < claimedSpace hdr mb) :
    deserBuckets hdr mb 1 0 (1 + mb) = raise .corruptHeader := by
  rcases deserBuckets_of_parsed h with ⟨es, -, hle⟩ | ⟨e, -⟩
  · omega
  · exact e

end

/-! ### The codes are the canonical numerals (rule R167) -/

theorem canonicalValue_append_of_le {es fs : List Entry} {i : Nat} (hi : i ≤ es.length) (len : Nat) :
    canonicalValue (es ++ fs) i len = canonicalValue es i len := by
  rw [canonicalValue, List.take_append_of_le_length hi, canonicalValue]

theorem canonicalValue_append_add (es fs : List Entry) (i len : Nat) :
    canonicalValue (es ++ fs) (es.length + i) len = canonicalValue es es.length len + canonicalValue fs i len := by
  rw [canonicalValue, List.take_length_add_append, List.map_append, List.sum_append, canonicalValue, List.take_length,
    canonicalValue]

/-- Entries of one length take one code each, in units of a code of length `len`. -/
theorem canonicalValue_of_equal_lengths {es : List Entry} {i k : Nat} (hi : i ≤ es.length) (hk : ∀ e ∈ es, e.code.length = k)
    (len : Nat) : canonicalValue es i len = i * 2 ^ (len - k) := by
  rw [canonicalValue, List.map_congr_left fun e he => by rw [hk e (List.mem_of_mem_take he)], List.map_const',
    List.sum_replicate, smul_eq_mul, List.length_take, Nat.min_eq_left hi]

/-- Each rebuilt code is the counter the loops started from, shifted to the code's length, and one for every earlier entry. -/
theorem deserBuckets_numbers {hdr : Bits} {m k c p : Nat} {es : List Entry} (h : deserBuckets hdr m k c p = .ok es) {i : Nat}
    {x : Entry} (hx : es[i]? = some x) :
    k ≤ x.code.length
      ∧ x.code = bitsOf (c * 2 ^ (x.code.length - k) + canonicalValue es i x.code.length) x.code.length := by
  induction m generalizing k c p es i with
  | zero => cases h; cases hx
  | succ m ih =>
    obtain ⟨fst, rest, hf, hr, rfl⟩ := deserBuckets_succ_inv h
    obtain ⟨hfst, -⟩ := deserBucket_ok hf
    have hlen : fst.length = (byteView hdr k).toNat := by simp [hfst]
    have hk : ∀ e ∈ fst, e.code.length = k := by
      simp only [hfst, List.mem_map]
      rintro _ ⟨j, -, rfl⟩
      exact bitsOf_length _ _
    by_cases hi : i < fst.length
    · rw [List.getElem?_append_left hi] at hx
      have hxk := hk x (List.mem_of_getElem? hx)
      rw [hxk, canonicalValue_append_of_le hi.le, canonicalValue_of_equal_lengths hi.le hk, Nat.sub_self, Nat.pow_zero,
        Nat.mul_one, Nat.mul_one]
      simp only [hfst, List.getElem?_map, Option.map_eq_some_iff] at hx
      obtain ⟨j, hj, rfl⟩ := hx
      obtain ⟨-, rfl⟩ := List.getElem?_eq_some_iff.1 hj
      exact ⟨Nat.le_refl k, by simp⟩
    · obtain ⟨i, rfl⟩ := Nat.exists_eq_add_of_le (Nat.le_of_not_lt hi)
      rw [List.getElem?_append_right (Nat.le_add_right _ _), Nat.add_sub_cancel_left] at hx
      obtain ⟨hxk, hcode⟩ := ih hr hx
      have hshift : 2 ^ (x.code.length - k) = 2 ^ 1 * 2 ^ (x.code.length - (k + 1)) := by
        rw [← Nat.pow_add]
        congr 1
        omega
      refine ⟨by omega, hcode.trans (congrArg (bitsOf · _) ?_)⟩
      rw [canonicalValue_append_add, canonicalValue_of_equal_lengths (Nat.le_refl _) hk, hlen, ← Nat.add_assoc, ← Nat.add_mul,
        hshift, ← Nat.mul_assoc, Nat.shiftLeft_eq]

theorem deser_numbered {hdr : Bits} {mb : Nat} {es : List Entry} (h : deserBuckets hdr mb 1 0 (1 + mb) = .ok es) :
    CanonicallyNumbered es := by
  rintro ⟨x, i⟩ hx
  simpa using (deserBuckets_numbers h (List.mem_zipIdx_iff_getElem?.1 hx)).2

/-! ### What DESER answers (rule R167) -/

section
variable {s : State}

theorem exec_deser_populated (halpha : s.blk.alpha ≠ []) :
    exec .deser s = .next (faulted s .alphabetAlreadyPopulated) := by
  show execDeser s = _
  rw [execDeser, if_pos (mt List.length_eq_zero_iff.1 halpha), conclude_raise]

variable (halpha : s.blk.alpha = [])
include halpha

theorem exec_deser_of_ne_headerParsed (hp : s.blk.phase ≠ .headerParsed) :
    exec .deser s = .next (faulted s .protocolMisuse) := by
  show execDeser s = _
  rw [execDeser, if_neg (not_not.2 (List.length_eq_zero_iff.2 halpha)), if_pos hp, conclude_raise]

variable (hp : s.blk.phase = .headerParsed)
include hp

theorem exec_deser_too_many (hn : Config.alphaCap < s.blk.hdrN) :
    exec .deser s = .next (faulted s .allocationFailure) := by
  show execDeser s = _
  rw [execDeser, if_neg (not_not.2 (List.length_eq_zero_iff.2 halpha)), if_neg (not_not.2 hp), if_pos hn, conclude_raise]

variable (hn : s.blk.hdrN ≤ Config.alphaCap)
include hn

theorem exec_deser_rebuilt {es : List Entry}
    (hes : deserBuckets s.blk.hdr s.blk.hdrMaxbits 1 0 (1 + s.blk.hdrMaxbits) = .ok es) :
    exec .deser s = .next (answered s 0 { s.blk with alpha := es, phase := .alphabetReconstructed }) := by
  show execDeser s = _
  rw [execDeser, if_neg (not_not.2 (List.length_eq_zero_iff.2 halpha)), if_neg (not_not.2 hp), if_neg (Nat.not_lt.2 hn), hes]
  exact conclude_ok s 0 _

theorem exec_deser_corrupt
    (hes : deserBuckets s.blk.hdr s.blk.hdrMaxbits 1 0 (1 + s.blk.hdrMaxbits) = raise .corruptHeader) :
    exec .deser s = .next (faulted s .corruptHeader) := by
  show execDeser s = _
  rw [execDeser, if_neg (not_not.2 (List.length_eq_zero_iff.2 halpha)), if_neg (not_not.2 hp), if_neg (Nat.not_lt.2 hn), hes]
  exact conclude_raise s .corruptHeader

end

/-- What the invariant says where DESER starts: no alphabet yet, and the sizes that PARSE took. -/
theorem inv_headerParsed {s : State} (h : Inv s) (hp : s.blk.phase = .headerParsed) :
    s.blk.alpha = [] ∧ parseSizes s.blk.hdr s.blk.pay = .ok (s.blk.hdrMaxbits, s.blk.hdrN) :=
  ⟨h.noAlpha (by rw [hp]; rfl) (by rw [hp]; rfl), h.parsed (by rw [hp]; rfl)⟩

/-- Settles O41: the code space that the header claims decides between codes and CorruptHeader, and the codes are numbered as the
counter goes. -/
theorem deserRebuildsCodes : Obligations.DeserRebuildsCodes := by
  refine ⟨by decide, fun s => ⟨exec_deser_populated, exec_deser_of_ne_headerParsed, fun h hp hn => ?_,
    fun h hp hn hspace => ?_, fun h hp hn hspace => ?_⟩⟩
  · exact exec_deser_too_many (inv_headerParsed h hp).1 hp hn
  · obtain ⟨halpha, hsizes⟩ := inv_headerParsed h hp
    exact exec_deser_corrupt halpha hp hn (deserBuckets_corrupt hsizes hspace)
  · obtain ⟨halpha, hsizes⟩ := inv_headerParsed h hp
    obtain ⟨es, hes⟩ := deserBuckets_rebuilt hsizes hspace
    obtain ⟨hlens, hsyms⟩ := deser_entry hes
    refine ⟨es, exec_deser_rebuilt halpha hp hn hes, (deser_length hes).trans (parseSizes_bounds hsizes h.hdrFits).2.2.symm,
      fun ⟨e, i⟩ hx => ?_, hlens, deser_numbered hes⟩
    obtain ⟨hi, he⟩ := List.getElem?_eq_some_iff.1 (List.mem_zipIdx_iff_getElem?.1 hx)
    exact ⟨deserBuckets_freq hes e (List.fst_mem_of_mem_zipIdx hx), he ▸ hsyms i hi⟩

/-! ### DESER gives back what SERHDR wrote (rule R168) -/

theorem declaredLengths_length (hdr : Bits) (mb : Nat) : (declaredLengths hdr mb).length = declaredSymbols hdr mb := by
  simp [declaredLengths, declaredSymbols, List.length_flatMap]

/-- The space a header claims is that of a code of each length it declares. -/
theorem claimedSpace_eq_sum_declaredLengths (hdr : Bits) (mb : Nat) :
    claimedSpace hdr mb = ((declaredLengths hdr mb).map (fun len => 2 ^ (mb - len))).sum := by
  simp [claimedSpace, declaredLengths, List.flatMap, List.sum_flatten, Function.comp_def]

/-- The counter depends on the code lengths only. -/
theorem canonicalValue_eq_of_lengths_eq {es fs : List Entry}
    (h : es.map (fun e => e.code.length) = fs.map (fun e => e.code.length)) (i len : Nat) :
    canonicalValue es i len = canonicalValue fs i len := by
  have hmap : ∀ xs : List Entry, canonicalValue xs i len
      = (((xs.map (fun e => e.code.length)).take i).map (fun l => 2 ^ (len - l))).sum := fun xs => by
    rw [← List.map_take, List.map_map, canonicalValue]
    rfl
  rw [hmap, hmap, h]

/-- Canonical codes are a function of the code lengths (rule R163 (iv)). -/
theorem codes_eq_of_numbered {es fs : List Entry} (hes : CanonicallyNumbered es) (hfs : CanonicallyNumbered fs)
    (h : es.map (fun e => e.code.length) = fs.map (fun e => e.code.length)) : es.map Entry.code = fs.map Entry.code := by
  refine List.ext_getElem (by simpa using congrArg List.length h) fun i hi hi' => ?_
  simp only [List.length_map] at hi hi'
  have hlen : es[i].code.length = fs[i].code.length := by simpa [hi, hi'] using congrArg (·[i]?) h
  rw [List.getElem_map, List.getElem_map, code_of_numbered hes hi, code_of_numbered hfs hi', hlen,
    canonicalValue_eq_of_lengths_eq h]

section
variable {es : List Entry} (hsorted : es.Pairwise (fun x y => x.code.length ≤ y.code.length))
  (hpos : ∀ e ∈ es, 1 ≤ e.code.length) (hfits : ¬ CountOverflows es)
include hsorted hpos hfits

theorem declaredLengths_header_of_fits :
    declaredLengths (bitsOfBytes (headerBytes es)) (maxBitsOf es) = es.map (fun e => e.code.length) :=
  declaredLengths_header hsorted hpos (countLen_le_of_fits hfits)

/-- What DESER rebuilds from the header of an alphabet with canonical codes is that alphabet, with frequency 0. -/
theorem deser_header_eq {out : List Entry} (hnum : CanonicallyNumbered es)
    (h : deserBuckets (bitsOfBytes (headerBytes es)) (maxBitsOf es) 1 0 (1 + maxBitsOf es) = .ok out) :
    out = es.map (fun e => { e with freq := 0 }) := by
  have hkeep := deser_header hsorted hpos (countLen_le_of_fits hfits) h
  have hsyms : out.map Entry.sym = es.map Entry.sym := by simpa [Function.comp_def] using congrArg (List.map Prod.fst) hkeep
  have hlens : out.map (fun e => e.code.length) = es.map (fun e => e.code.length) := by
    simpa [Function.comp_def] using congrArg (List.map Prod.snd) hkeep
  have hcodes := codes_eq_of_numbered (deser_numbered h) hnum hlens
  refine List.ext_getElem (by simpa using congrArg List.length hkeep) fun i hi hi' => ?_
  rw [List.length_map] at hi'
  have hsym : out[i].sym = es[i].sym := by simpa [hi, hi'] using congrArg (·[i]?) hsyms
  have hcode : out[i].code = es[i].code := by simpa [hi, hi'] using congrArg (·[i]?) hcodes
  have hfreq := deserBuckets_freq h out[i] (List.getElem_mem hi)
  rw [List.getElem_map, ← hsym, ← hcode, ← hfreq]

variable (hmax : ∀ e ∈ es, e.code.length ≤ 255)
include hmax

/-- PARSE accepts a header that SERHDR wrote. -/
theorem parseSizes_header_ok (pay : Bits) :
    parseSizes (bitsOfBytes (headerBytes es)) pay = .ok (maxBitsOf es, es.length) := by
  have hmb : (byteView (bitsOfBytes (headerBytes es)) 0).toNat = maxBitsOf es := by
    rw [byteView_header_zero, BitVec.toNat_ofNat, Nat.mod_eq_of_lt (Nat.lt_succ_of_le (maxBitsOf_le hmax))]
  have hn : declaredSymbols (bitsOfBytes (headerBytes es)) (maxBitsOf es) = es.length := by
    rw [← declaredLengths_length, declaredLengths_header_of_fits hsorted hpos hfits, List.length_map]
  have hne : bitsOfBytes (headerBytes es) ≠ [] := List.ne_nil_of_length_pos (by rw [header_length]; omega)
  rw [parseSizes_of_ne_nil pay hne, hmb, hn, if_pos (header_length es)]

/-- A header that SERHDR wrote claims no more than the code space. -/
theorem claimedSpace_header_le (hkraft : kraft es ≤ 2 ^ 255) :
    claimedSpace (bitsOfBytes (headerBytes es)) (maxBitsOf es) ≤ 2 ^ maxBitsOf es := by
  have hvalue : claimedSpace (bitsOfBytes (headerBytes es)) (maxBitsOf es) = canonicalValue es es.length (maxBitsOf es) := by
    rw [claimedSpace_eq_sum_declaredLengths, declaredLengths_header_of_fits hsorted hpos hfits, List.map_map, canonicalValue,
      List.take_length]
    rfl
  have hmb := maxBitsOf_le hmax
  refine Nat.le_of_mul_le_mul_right (c := 2 ^ (255 - maxBitsOf es)) ?_ (Nat.two_pow_pos _)
  rw [hvalue, ← canonicalValue_shift (fun x hx => length_le_maxBitsOf hsorted x (List.mem_of_mem_take hx)) hmb,
    canonicalValue_eq_kraft_take, List.take_length, ← Nat.pow_add, Nat.add_sub_cancel' hmb]
  exact hkraft

end

/-- Settles O42: PARSE accepts the header, it claims no more than the code space, and canonical codes are a function of the lengths
it declares. -/
theorem deserRestoresCanonicalAlphabet : Obligations.DeserRestoresCanonicalAlphabet := by
  intro s h d hs hp hserhdr hserialized hidle halpha hhdr
  obtain ⟨hheader, hfits⟩ := serialized_of_exec_serhdr hp hserhdr hserialized
    (hs.someSymbol (by rw [hp]; rfl) (by rw [hp]; nofun)) (maxBitsOf_le hs.codeFits)
  have hh := hs.huffman (by rw [hp]; rfl)
  have hsorted := lengths_ascend_of_ltB (hs.sortedB (by rw [hp]; rfl))
  have hpos : ∀ e ∈ s.blk.alpha, 1 ≤ e.code.length := fun e he => (hh.lengths e he).1
  have hsizes := parseSizes_header_ok hsorted hpos hfits hs.codeFits d.blk.pay
  obtain ⟨out, hout⟩ := deserBuckets_rebuilt hsizes
    (claimedSpace_header_le hsorted hpos hfits hs.codeFits (huffmanCodes_kraft_le hh))
  have hback := deser_header_eq hsorted hpos hfits (hs.numbered (by rw [hp]; rfl)) hout
  rw [← hheader, ← hhdr] at hsizes hout
  refine ⟨_, _, exec_parse_accepted hidle hsizes, exec_deser_rebuilt ?_ ?_ ?_ hout, rfl, hback⟩
  · exact halpha
  · rfl
  · exact hs.alphaFits

end Sys2Proof.Machine
end

section
/-! SUPPORT. The packer (44_packer.md): what PACK answers for a byte with and without an entry (rule R181), that LUT finds the entry
whose symbol is the byte (rule R180), and that PACKEND closes the payload (rule R182). -/

namespace Sys2Proof.Machine

open Sys2Proof.Safety

/-! ### PACK (rule R181) -/

section
variable {s : State} {b : Byte}

theorem exec_pack_of_ne_headerSerialized (hp : s.blk.phase ≠ .headerSerialized) :
    exec (.pack b) s = .next (faulted s .protocolMisuse) := by
  show execPack b s = _
  rw [execPack, if_pos hp, conclude_raise]

theorem exec_pack_of_lookup_none (hp : s.blk.phase = .headerSerialized) (hlook : s.blk.lookup b = none) :
    exec (.pack b) s = .next (faulted s .protocolMisuse) := by
  show execPack b s = _
  rw [execPack, if_neg (not_not.2 hp), hlook]
  rfl

variable {i : Nat} {e : Entry} (hp : s.blk.phase = .headerSerialized) (hlook : s.blk.lookup b = some i)
  (he : s.blk.entry i = some e)
include hp hlook he

theorem exec_pack_of_full (hfull : s.cfg.payCapBits < s.blk.pay.length + e.code.length) :
    exec (.pack b) s = .next (faulted s .allocationFailure) := by
  show execPack b s = _
  simp only [execPack, if_neg (not_not.2 hp), hlook, he, if_pos hfull, conclude_raise]

theorem exec_pack_of_fits (hfits : s.blk.pay.length + e.code.length ≤ s.cfg.payCapBits) :
    exec (.pack b) s = .next (answered s 0 { s.blk with pay := s.blk.pay ++ e.code }) := by
  show execPack b s = _
  simp only [execPack, if_neg (not_not.2 hp), hlook, he, if_neg (Nat.not_lt.2 hfits), conclude_ok]
  rfl

end

/-- Settles O43: the phase is right or not, the slot names an entry or none, and its code fits or not. -/
theorem packAppendsCode : Obligations.PackAppendsCode := by
  refine fun s b => ⟨exec_pack_of_ne_headerSerialized, exec_pack_of_lookup_none, fun i hi hp hlook => ?_, encodeI8_toNat 0x60 b⟩
  have he : s.blk.entry i = some s.blk.alpha[i] := List.getElem?_eq_getElem hi
  exact ⟨exec_pack_of_full hp hlook he, exec_pack_of_fits hp hlook he⟩

/-! ### LUT is the linear scan (rule R180) -/

/-- After SERHDR the slot of a byte that no entry has is none. -/
theorem inv_lookup_eq_none {s : State} (h : Inv s) (hp : serializedPhase s.blk.phase = true) {v : Byte}
    (hv : ∀ e ∈ s.blk.alpha, e.sym ≠ v) : s.blk.lookup v = none :=
  (h.lutOnly hp v).resolve_right fun ⟨e, he, hsym⟩ => hv e he hsym

/-- After SERHDR the slot of an entry's symbol names that entry. -/
theorem inv_lookup_sym {s : State} (h : Inv s) (hp : serializedPhase s.blk.phase = true) {e : Entry} (he : e ∈ s.blk.alpha) :
    ∃ i, s.blk.lookup e.sym = some i ∧ s.blk.entry i = some e := by
  obtain ⟨i, hi⟩ := List.mem_iff_getElem?.1 he
  exact ⟨i, h.lutSet hp (e, i) (List.mem_zipIdx_iff_getElem?.2 hi), hi⟩

/-- Settles O44: in HeaderSerialized the invariant ties LUT to the entries, so PACK finds the entry with the byte as its symbol. -/
theorem packFindsEntryBySymbol : Obligations.PackFindsEntryBySymbol := by
  intro s b h hp
  have hserialized : serializedPhase s.blk.phase = true := by rw [hp]; rfl
  refine ⟨fun hb => exec_pack_of_lookup_none hp (inv_lookup_eq_none h hserialized hb), ?_⟩
  rintro e he rfl
  obtain ⟨i, hlook, hentry⟩ := inv_lookup_sym h hserialized he
  split
  case isTrue hfits => exact exec_pack_of_fits hp hlook hentry hfits
  case isFalse hfull => exact exec_pack_of_full hp hlook hentry (Nat.not_le.1 hfull)

/-! ### PACKEND (rule R182) -/

section
variable {s : State}

theorem exec_packend_of_ne_headerSerialized (hp : s.blk.phase ≠ .headerSerialized) :
    exec .packend s = .next (faulted s .protocolMisuse) := by
  show execPackend s = _
  rw [execPackend, if_pos hp, conclude_raise]

theorem exec_packend_of_headerSerialized (hp : s.blk.phase = .headerSerialized) :
    exec .packend s = .next (answered s 0 { s.blk with phase := .payloadSerialized }) := by
  show execPackend s = _
  rw [execPackend, if_neg (not_not.2 hp), conclude_ok]
  rfl

end

/-- Settles O45: the phase is right or not. -/
theorem packendWritesOnlyPhase : Obligations.PackendWritesOnlyPhase :=
  ⟨by decide, fun _ => ⟨exec_packend_of_ne_headerSerialized, exec_packend_of_headerSerialized⟩⟩

end Sys2Proof.Machine
end

section
/-! SUPPORT. The payload decoder (45_decoder.md): the position of a code says its length and its numeral (rule R190), MKLOOK's map
holds the symbol of each code at its position (rule R190), and DECODE walks from code to code (rule R191). -/

namespace Sys2Proof.Machine

open Sys2Proof.Safety

/-! ### Positions of codes (rule R190) -/

/-- Above the position there are the codes that are shorter, and those of its length with a smaller numeral. -/
theorem codePosition_eq (c : Bits) : codePosition c + 1 = 2 ^ c.length + numeral c := by
  induction c using List.reverseRecOn with
  | nil => rfl
  | append_singleton c b ih =>
    rw [codePosition_concat, descend, numeral_concat, List.length_append, List.length_singleton, Nat.pow_succ, Nat.bit_val]
    omega

theorem codePosition_bounds (c : Bits) :
    2 ^ c.length - 1 ≤ codePosition c ∧ codePosition c ≤ 2 ^ (c.length + 1) - 2 := by
  have hpos := codePosition_eq c
  have hlt := numeral_lt c
  rw [Nat.pow_succ]
  omega

/-- The descent from the root is told apart bit by bit, from the last one back. -/
theorem codePosition_inj {c d : Bits} (h : codePosition c = codePosition d) : c = d := by
  induction c using List.reverseRecOn generalizing d with
  | nil =>
    rcases d.eq_nil_or_concat' with rfl | ⟨d, b, rfl⟩
    · rfl
    · rw [codePosition_concat, codePosition_nil] at h
      exact absurd h (Nat.ne_of_lt (Nat.zero_lt_of_lt (lt_descend _ b)))
  | append_singleton c a ih =>
    rcases d.eq_nil_or_concat' with rfl | ⟨d, b, rfl⟩
    · rw [codePosition_concat, codePosition_nil] at h
      exact absurd h.symm (Nat.ne_of_lt (Nat.zero_lt_of_lt (lt_descend _ a)))
    · rw [codePosition_concat, codePosition_concat] at h
      obtain ⟨hpos, rfl⟩ := descend_inj h
      rw [ih hpos]

theorem codePosition_eq_zero_iff {c : Bits} : codePosition c = 0 ↔ c = [] :=
  ⟨fun h => codePosition_inj h, fun h => h ▸ rfl⟩

/-- The position of a code of at most `n` bits is within the array for `n` bits. -/
theorem codePosition_lt {c : Bits} {n : Nat} (h : c.length ≤ n) : codePosition c < 2 ^ (n + 1) - 1 := by
  have hmono : 2 ^ (c.length + 1) ≤ 2 ^ (n + 1) := Nat.pow_le_pow_right (by decide) (Nat.succ_le_succ h)
  have htwo : 2 ≤ 2 ^ (c.length + 1) := Nat.le_self_pow (Nat.succ_ne_zero _) 2
  have := (codePosition_bounds c).2
  omega

/-! ### Rebuilt codes (43_canonical.md rule R167) -/

/-- A header's rebuilt codes are no shorter than one bit. -/
theorem deser_length_pos {hdr : Bits} {mb : Nat} {es : List Entry} (h : deserBuckets hdr mb 1 0 (1 + mb) = .ok es) :
    ∀ e ∈ es, 1 ≤ e.code.length := by
  intro e he
  obtain ⟨i, hi⟩ := List.mem_iff_getElem?.1 he
  exact (deserBuckets_numbers h hi).1

/-- Rebuilt codes meet Kraft's inequality: their lengths are those that the header declares, within the code space. -/
theorem deser_kraft_le {hdr pay : Bits} {mb n : Nat} {es : List Entry} (hsizes : parseSizes hdr pay = .ok (mb, n))
    (hmb : mb ≤ 255) (h : deserBuckets hdr mb 1 0 (1 + mb) = .ok es) : kraft es ≤ 2 ^ 255 := by
  have hspace : claimedSpace hdr mb ≤ 2 ^ mb := by
    rcases deserBuckets_of_parsed hsizes with ⟨-, -, hle⟩ | ⟨e, -⟩
    · exact hle
    · exact nomatch h.symm.trans e
  have hvalue : canonicalValue es es.length mb = claimedSpace hdr mb := by
    rw [claimedSpace_eq_sum_declaredLengths, ← (deser_entry h).1, List.map_map, canonicalValue, List.take_length]
    rfl
  calc kraft es = canonicalValue es es.length 255 := by rw [canonicalValue_eq_kraft_take, List.take_length]
    _ = canonicalValue es es.length mb * 2 ^ (255 - mb) :=
        canonicalValue_shift (fun x hx => deser_length_le h x (List.mem_of_mem_take hx)) hmb
    _ ≤ 2 ^ mb * 2 ^ (255 - mb) := Nat.mul_le_mul_right _ (hvalue ▸ hspace)
    _ = 2 ^ 255 := by rw [← Nat.pow_add, Nat.add_sub_cancel' hmb]

/-- Of the codes that DESER makes none begins another. -/
theorem deser_prefixFree {hdr pay : Bits} {mb n : Nat} {es : List Entry} (hsizes : parseSizes hdr pay = .ok (mb, n))
    (hmb : mb ≤ 255) (h : deserBuckets hdr mb 1 0 (1 + mb) = .ok es) : PrefixFree es := by
  have hsorted := deser_lengths_ascend h
  have hmax : ∀ e ∈ es, e.code.length ≤ 255 := fun e he => (deser_length_le h e he).trans hmb
  exact prefixFree_of_numbered hsorted (deser_numbered h)
    fun i hi => canonicalValue_fits hsorted hmax (deser_kraft_le hsizes hmb h) hi

/-- What the invariant says of a rebuilt alphabet's codes: none begins another, and they have 1 to maxBits bits. -/
theorem inv_rebuilt_codes {s : State} (h : Inv s) (hp : rebuiltPhase s.blk.phase = true) :
    PrefixFree s.blk.alpha ∧ ∀ e ∈ s.blk.alpha, 1 ≤ e.code.length ∧ e.code.length ≤ s.blk.hdrMaxbits :=
  ⟨deser_prefixFree (h.parsed (decode_of_rebuilt hp)) h.maxbitsFits (h.rebuilt hp),
    fun e he => ⟨deser_length_pos (h.rebuilt hp) e he, deser_length_le (h.rebuilt hp) e he⟩⟩

/-- Settles O47: the position counts the shorter codes and the numeral, the descent can be read back, and rebuilt codes are the
canonical numerals of lengths within the code space. -/
theorem codePositionsDistinct : Obligations.CodePositionsDistinct := by
  refine ⟨codePosition_bounds, fun _ _ => codePosition_inj, fun s h hp => ?_⟩
  obtain ⟨hfree, hlengths⟩ := inv_rebuilt_codes h hp
  exact ⟨hfree, fun e he => codePosition_lt (hlengths e he).2⟩

/-! ### MKLOOK's map (rule R190) -/

/-- MKLOOK's map holds at each position the symbol of the last entry whose code leads there. -/
theorem dtOf_get (es : List Entry) (pos : Nat) :
    Dt.get (dtOf es) pos = ((es.filter (fun e => codePosition e.code == pos)).getLast?).map Entry.sym := by
  induction es using List.reverseRecOn with
  | nil => rfl
  | append_singleton es e ih =>
    rw [dtOf_concat, Dt.get_put, List.filter_append, ih]
    by_cases h : codePosition e.code = pos
    · simp [h]
    · rw [if_neg (Ne.symm h), List.filter_singleton, beq_false_of_ne h, cond_false, List.append_nil]

/-- What the map holds at the position of a code is the symbol of an entry that has the code. -/
theorem dtOf_get_some {es : List Entry} {c : Bits} {v : Byte} (h : Dt.get (dtOf es) (codePosition c) = some v) :
    ∃ e ∈ es, e.code = c ∧ e.sym = v := by
  rw [dtOf_get, Option.map_eq_some_iff] at h
  obtain ⟨e, hlast, hsym⟩ := h
  obtain ⟨hmem, hpos⟩ := List.mem_filter.1 (List.mem_of_getLast? hlast)
  exact ⟨e, hmem, codePosition_inj (by simpa using hpos), hsym⟩

/-- At the position of a code that some entry has the map holds something. -/
theorem dtOf_get_isSome {es : List Entry} {e : Entry} (he : e ∈ es) : (Dt.get (dtOf es) (codePosition e.code)).isSome := by
  have hmem : e ∈ es.filter (fun x => codePosition x.code == codePosition e.code) :=
    List.mem_filter.2 ⟨he, beq_self_eq_true _⟩
  rw [dtOf_get, List.getLast?_eq_some_getLast (List.ne_nil_of_mem hmem)]
  rfl

section
variable {s : State}

theorem exec_mklook_of_ne_alphabetReconstructed (hp : s.blk.phase ≠ .alphabetReconstructed) :
    exec .mklook s = .next (faulted s .protocolMisuse) := by
  show execMklook s = _
  rw [execMklook, if_pos hp, conclude_raise]

theorem exec_mklook_too_long (hp : s.blk.phase = .alphabetReconstructed) (hmax : s.cfg.decMaxbits < s.blk.hdrMaxbits) :
    exec .mklook s = .next (faulted s .allocationFailure) := by
  show execMklook s = _
  rw [execMklook, if_neg (not_not.2 hp), if_pos hmax, conclude_raise]

theorem exec_mklook_fits (hp : s.blk.phase = .alphabetReconstructed) (hmax : s.blk.hdrMaxbits ≤ s.cfg.decMaxbits) :
    exec .mklook s = .next (answered s 0 { s.blk with dt := dtOf s.blk.alpha, phase := .lookupBuilt }) := by
  show execMklook s = _
  rw [execMklook, if_neg (not_not.2 hp), if_neg (Nat.not_lt.2 hmax), conclude_ok]
  rfl

end

/-- Settles O46: the phase is right or not, maxBits fits or not, and the map is MKLOOK's writes read back. -/
theorem mklookMapsCodePositions : Obligations.MklookMapsCodePositions :=
  ⟨by decide, fun s => ⟨exec_mklook_of_ne_alphabetReconstructed, exec_mklook_too_long, fun hp hmax =>
    ⟨_, exec_mklook_fits hp hmax, dtOf_wf s.blk.alpha, dtOf_get s.blk.alpha⟩⟩⟩

/-! ### The walk from code to code (rule R191) -/

/-- The array size of a header's maxBits (rule R190). -/
abbrev arraySize (mb : Nat) : Nat := 2 ^ (mb + 1) - 1

/-- Where no code begins another entry's code, an entry whose code does is that entry. -/
theorem eq_of_code_prefix {es : List Entry} (hfree : PrefixFree es) {x y : Entry} (hx : x ∈ es) (hy : y ∈ es)
    (h : x.code <+: y.code) : x = y := by
  have hsymm : Std.Symm (fun x y : Entry => ¬ x.code <+: y.code ∧ ¬ y.code <+: x.code) := ⟨fun _ _ h => h.symm⟩
  by_contra hne
  exact (hfree.forall hx hy hne).1 h

section
variable {alpha : List Entry} (hfree : PrefixFree alpha)
include hfree

/-- At the position of an entry's code the map holds the entry's symbol. -/
theorem dtOf_get_code {e : Entry} (he : e ∈ alpha) : Dt.get (dtOf alpha) (codePosition e.code) = some e.sym := by
  obtain ⟨v, hv⟩ := Option.isSome_iff_exists.1 (dtOf_get_isSome he)
  obtain ⟨x, hx, hcode, rfl⟩ := dtOf_get_some hv
  rw [hv, eq_of_code_prefix hfree hx he (hcode ▸ List.prefix_refl _)]

/-- On the way to a code the map holds nothing. -/
theorem dtOf_get_inside {e : Entry} (he : e ∈ alpha) {c : Bits} (hc : c <+: e.code) (hne : c ≠ e.code) :
    Dt.get (dtOf alpha) (codePosition c) = none := by
  refine Option.eq_none_iff_forall_ne_some.2 fun v hv => ?_
  obtain ⟨x, hx, rfl, -⟩ := dtOf_get_some hv
  exact hne (congrArg Entry.code (eq_of_code_prefix hfree hx he hc))

variable {mb cap : Nat} (hlen : ∀ e ∈ alpha, 1 ≤ e.code.length ∧ e.code.length ≤ mb)
include hlen

/-- From inside a code, `pre` behind and `suf` ahead, the walk goes to the code's end, and there to the root if there is room. -/
theorem decodeWalk_code {e : Entry} (he : e ∈ alpha) (rest : Bits) (out : List Byte) {pre suf : Bits}
    (hcode : pre ++ suf = e.code) (hsuf : suf ≠ []) :
    decodeWalk (dtOf alpha) (arraySize mb) cap (suf ++ rest) (codePosition pre) out
      = if out.length = cap then raise .allocationFailure
        else decodeWalk (dtOf alpha) (arraySize mb) cap rest 0 (out ++ [e.sym]) := by
  induction suf generalizing pre with
  | nil => exact absurd rfl hsuf
  | cons b suf ih =>
    have hcode' : (pre ++ [b]) ++ suf = e.code := by simpa using hcode
    have hprefix : pre ++ [b] <+: e.code := ⟨suf, hcode'⟩
    have hin : descend (codePosition pre) b < arraySize mb :=
      codePosition_concat pre b ▸ codePosition_lt (hprefix.length_le.trans (hlen e he).2)
    rw [List.cons_append]
    by_cases hend : suf = []
    · subst hend
      have hget := dtOf_get_code hfree he
      rw [← hcode', List.append_nil, codePosition_concat] at hget
      split
      case isTrue hfull => exact decodeWalk_full _ _ _ _ _ _ _ _ hin hget hfull
      case isFalse hroom => exact decodeWalk_symbol _ _ _ _ _ _ _ _ hin hget hroom
    · have hget := dtOf_get_inside hfree he hprefix fun heq => hend (by simpa [← hcode'] using heq)
      rw [codePosition_concat] at hget
      rw [decodeWalk_empty _ _ _ _ _ _ _ hin hget, ← codePosition_concat]
      exact ih hcode' hend

/-- Codes one after the other, as many as there is room for, are walked through. -/
theorem decodeWalk_codes {es : List Entry} (hes : ∀ e ∈ es, e ∈ alpha) (rest : Bits) {out : List Byte}
    (hroom : out.length + es.length ≤ cap) :
    decodeWalk (dtOf alpha) (arraySize mb) cap (es.flatMap Entry.code ++ rest) 0 out
      = decodeWalk (dtOf alpha) (arraySize mb) cap rest 0 (out ++ es.map Entry.sym) := by
  induction es generalizing out with
  | nil => simp
  | cons e es ih =>
    obtain ⟨he, hes⟩ := List.forall_mem_cons.1 hes
    rw [List.length_cons] at hroom
    have hsuf : e.code ≠ [] := List.ne_nil_of_length_pos (hlen e he).1
    have hstep := decodeWalk_code (cap := cap) hfree hlen he (es.flatMap Entry.code ++ rest) out (List.nil_append _) hsuf
    rw [codePosition_nil, if_neg (by omega)] at hstep
    rw [List.flatMap_cons, List.append_assoc, hstep,
      ih hes (by simp only [List.length_append, List.length_singleton]; omega)]
    simp

/-- One code more than there is room for ends the walk. -/
theorem decodeWalk_codes_full {es : List Entry} (hes : ∀ e ∈ es, e ∈ alpha) (rest : Bits) (hfull : cap < es.length) :
    decodeWalk (dtOf alpha) (arraySize mb) cap (es.flatMap Entry.code ++ rest) 0 [] = raise .allocationFailure := by
  obtain ⟨e, he⟩ : ∃ e, es = es.take cap ++ e :: es.drop (cap + 1) :=
    ⟨es[cap], by rw [← List.drop_eq_getElem_cons hfull, List.take_append_drop]⟩
  have hmem : e ∈ alpha := hes e (by rw [he]; simp)
  have hstep := decodeWalk_code (cap := cap) hfree hlen hmem ((es.drop (cap + 1)).flatMap Entry.code ++ rest)
    ([] ++ (es.take cap).map Entry.sym) (List.nil_append _) (List.ne_nil_of_length_pos (hlen e hmem).1)
  rw [codePosition_nil, if_pos (by simpa using hfull.le)] at hstep
  rw [he, List.flatMap_append, List.flatMap_cons, List.append_assoc, List.append_assoc,
    decodeWalk_codes hfree hlen (fun x hx => hes x (List.mem_of_mem_take hx)) _ (by simp)]
  exact hstep

end

/-- What a walk has read when it ends, of the bits `m` with `n` bytes decoded before: codes one after the other and
nothing else if it succeeds, and if OUT is full, more codes than there is room for. -/
def ReadCodes (alpha : List Entry) (cap n : Nat) (m : Bits) (r : Except Stop (List Byte)) : Prop :=
  (∀ vs, r = .ok vs → ∃ es : List Entry, (∀ e ∈ es, e ∈ alpha) ∧ m = es.flatMap Entry.code)
    ∧ (r = raise .allocationFailure → ∃ (es : List Entry) (rest : Bits), (∀ e ∈ es, e ∈ alpha)
        ∧ m = es.flatMap Entry.code ++ rest ∧ cap < n + es.length)

theorem readCodes_corrupt (alpha : List Entry) (cap n : Nat) (m : Bits) : ReadCodes alpha cap n m (raise .corruptHeader) :=
  ⟨nofun, nofun⟩

/-- A code read before what the rest of the walk reads. -/
theorem ReadCodes.cons {alpha : List Entry} {cap n : Nat} {m : Bits} {r : Except Stop (List Byte)} {e : Entry} (he : e ∈ alpha)
    (h : ReadCodes alpha cap (n + 1) m r) : ReadCodes alpha cap n (e.code ++ m) r := by
  refine ⟨fun vs hvs => ?_, fun hfull => ?_⟩
  · obtain ⟨es, hes, rfl⟩ := h.1 vs hvs
    exact ⟨e :: es, List.forall_mem_cons.2 ⟨he, hes⟩, rfl⟩
  · obtain ⟨es, rest, hes, rfl, hgt⟩ := h.2 hfull
    exact ⟨e :: es, rest, List.forall_mem_cons.2 ⟨he, hes⟩, by simp, by rw [List.length_cons]; omega⟩

theorem decodeWalk_readCodes (alpha : List Entry) (size cap : Nat) (m pre : Bits) (out : List Byte) :
    ReadCodes alpha cap out.length (pre ++ m) (decodeWalk (dtOf alpha) size cap m (codePosition pre) out) := by
  induction m generalizing pre out with
  | nil =>
    by_cases hpre : pre = []
    · subst hpre
      exact ⟨fun _ _ => ⟨[], nofun, rfl⟩, nofun⟩
    · rw [decodeWalk_nil_inside _ _ _ _ _ (mt codePosition_eq_zero_iff.1 hpre)]
      exact readCodes_corrupt _ _ _ _
  | cons b m ih =>
    by_cases hin : descend (codePosition pre) b < size
    · have hsplit : pre ++ b :: m = (pre ++ [b]) ++ m := by simp
      rw [hsplit]
      match hget : Dt.get (dtOf alpha) (descend (codePosition pre) b) with
      | none =>
        rw [decodeWalk_empty _ _ _ _ _ _ _ hin hget, ← codePosition_concat]
        exact ih _ _
      | some v =>
        obtain ⟨e, he, hcode, -⟩ := dtOf_get_some (codePosition_concat pre b ▸ hget)
        rw [← hcode]
        by_cases hfull : out.length = cap
        · rw [decodeWalk_full _ _ _ _ _ _ _ _ hin hget hfull]
          exact ⟨nofun, fun _ => ⟨[e], m, by simpa using he, by simp, by simp [hfull]⟩⟩
        · rw [decodeWalk_symbol _ _ _ _ _ _ _ _ hin hget hfull]
          exact .cons he (by simpa using ih [] (out ++ [v]))
    · rw [decodeWalk_out _ _ _ _ _ _ _ (Nat.not_lt.1 hin)]
      exact readCodes_corrupt _ _ _ _

/-! ### What DECODE answers (rule R191) -/

section
variable {s : State} (hout : s.blk.out = [])
include hout

theorem exec_decode_of_ne_lookupBuilt (hp : s.blk.phase ≠ .lookupBuilt) :
    exec .decode s = .next (faulted s .protocolMisuse) := by
  show execDecode s = _
  rw [execDecode, if_neg (not_not.2 (List.length_eq_zero_iff.2 hout)), if_pos hp, conclude_raise]

variable (hp : s.blk.phase = .lookupBuilt)
include hp

/-- DECODE past its guards, when its walk succeeds. -/
theorem exec_decode_decoded {vs : List Byte}
    (hwalk : decodeWalk s.blk.dt (arraySize s.blk.hdrMaxbits) s.cfg.outCapBytes s.blk.pay 0 [] = .ok vs) :
    exec .decode s = .next (answered s 0 { s.blk with out := bitsOfBytes vs, phase := .payloadDecoded }) := by
  show execDecode s = _
  rw [execDecode, if_neg (not_not.2 (List.length_eq_zero_iff.2 hout)), if_neg (not_not.2 hp), hwalk]
  exact conclude_ok s 0 _

/-- DECODE past its guards, when its walk raises a fault. -/
theorem exec_decode_fault {f : Status}
    (hwalk : decodeWalk s.blk.dt (arraySize s.blk.hdrMaxbits) s.cfg.outCapBytes s.blk.pay 0 [] = raise f) :
    exec .decode s = .next (faulted s f) := by
  show execDecode s = _
  rw [execDecode, if_neg (not_not.2 (List.length_eq_zero_iff.2 hout)), if_neg (not_not.2 hp), hwalk]
  exact conclude_raise s f

variable (h : Inv s)
include h

/-- DECODE of the codes of `es`, as many as OUT holds. -/
theorem exec_decode_codes {es : List Entry} (hes : ∀ e ∈ es, e ∈ s.blk.alpha) (hpay : s.blk.pay = es.flatMap Entry.code)
    (hroom : es.length ≤ s.cfg.outCapBytes) :
    exec .decode s = .next (answered s 0
      { s.blk with out := bitsOfBytes (es.map Entry.sym), phase := .payloadDecoded }) := by
  obtain ⟨hfree, hlen⟩ := inv_rebuilt_codes h (by rw [hp]; rfl)
  refine exec_decode_decoded hout hp ?_
  rw [(h.dtSet (by rw [hp]; rfl)).1, hpay, ← List.append_nil (es.flatMap Entry.code),
    decodeWalk_codes hfree hlen hes [] (by simpa using hroom)]
  rfl

/-- DECODE of more codes than OUT holds bytes. -/
theorem exec_decode_full {es : List Entry} {rest : Bits} (hes : ∀ e ∈ es, e ∈ s.blk.alpha)
    (hpay : s.blk.pay = es.flatMap Entry.code ++ rest) (hfull : s.cfg.outCapBytes < es.length) :
    exec .decode s = .next (faulted s .allocationFailure) := by
  obtain ⟨hfree, hlen⟩ := inv_rebuilt_codes h (by rw [hp]; rfl)
  refine exec_decode_fault hout hp ?_
  rw [(h.dtSet (by rw [hp]; rfl)).1, hpay, decodeWalk_codes_full hfree hlen hes rest hfull]

/-- DECODE of a payload that is not codes one after the other, nor begins with more of them than OUT holds bytes. -/
theorem exec_decode_corrupt
    (hcodes : ∀ es : List Entry, (∀ e ∈ es, e ∈ s.blk.alpha) → s.blk.pay ≠ es.flatMap Entry.code)
    (hroom : ∀ (es : List Entry) (rest : Bits), (∀ e ∈ es, e ∈ s.blk.alpha) →
      s.blk.pay = es.flatMap Entry.code ++ rest → es.length ≤ s.cfg.outCapBytes) :
    exec .decode s = .next (faulted s .corruptHeader) := by
  have hread := decodeWalk_readCodes s.blk.alpha (arraySize s.blk.hdrMaxbits) s.cfg.outCapBytes s.blk.pay [] []
  rw [← (h.dtSet (by rw [hp]; rfl)).1, List.nil_append, codePosition_nil] at hread
  refine exec_decode_fault hout hp ?_
  rcases decodeWalk_cases s.blk.dt (arraySize s.blk.hdrMaxbits) s.cfg.outCapBytes s.blk.pay 0 [] with ⟨vs, e, -⟩ | e | e
  · obtain ⟨es, hes, hpay⟩ := hread.1 _ e
    exact absurd hpay (hcodes es hes)
  · exact e
  · obtain ⟨es, rest, hes, hpay, hgt⟩ := hread.2 e
    have := hroom es rest hes hpay
    rw [List.length_nil] at hgt
    omega

end

/-- Settles O48: the walk goes from code to code, since of rebuilt codes none begins another and all are in bounds; and a walk that
ends otherwise than in CorruptHeader has read codes only. -/
theorem decodeInvertsPacking : Obligations.DecodeInvertsPacking := by
  refine ⟨by decide, fun s => ⟨exec_decode_of_ne_lookupBuilt, fun h hp hout => ⟨fun es hes hpay hroom => ?_,
    fun es rest => exec_decode_full hout hp h, exec_decode_corrupt hout hp h⟩⟩⟩
  rw [exec_decode_codes hout hp h hes hpay hroom, bitsOfBytes_eq_flatMap]

end Sys2Proof.Machine
end

section
/-! SUPPORT. The round trip (45_decoder.md rule R192, 46_system.md rule R208): what runs of commands at the port keep and lead to,
what each command of the encode and the decode sequence leads to, and the two sequences put together. -/

namespace Sys2Proof.Machine

open Sys2Proof.Safety

/-! ### Commands at the port, one after the other -/

/-- A run goes on where its first part ended. -/
theorem run_add {j k : Nat} {s t : State} (h : Host.Core.run Sys2Proof.core j s = .next t) :
    Host.Core.run Sys2Proof.core (j + k) s = Host.Core.run Sys2Proof.core k t := by
  induction j generalizing s with
  | zero =>
    cases h
    rw [Nat.zero_add]
  | succ j ih =>
    rw [Nat.succ_add]
    simp only [Host.Core.run] at h ⊢
    split at h
    · exact ih h
    · cases h
    · cases h

theorem run_one {s t : State} (h : step s = .next t) : Host.Core.run Sys2Proof.core 1 s = .next t := by
  simp only [Host.Core.run, show Sys2Proof.core.step s = .next t from h]

/-- The faults that the two sequences of a round trip may raise. -/
abbrev MayRaise (f : Status) : Prop := f = .allocationFailure ∨ f = .unrepresentable

theorem MayRaise.ne_ok {f : Status} (h : MayRaise f) : f ≠ .ok := by
  rcases h with rfl | rfl <;> nofun

/-- What a part of a round trip leads to: the invariant, and `P` of the block unless a fault is latched, which is one of the two
that may be raised. -/
structure Reached (P : Block → Prop) (s : State) : Prop where
  inv : Inv s
  holds : s.blk.err = .ok → P s.blk
  fault : s.blk.err = .ok ∨ MayRaise s.blk.err

/-- The command takes a block with `P` to one with `Q`, or raises one of the faults that may be raised. -/
structure Takes (P : Block → Prop) (i : Instr) (Q : Block → Prop) : Prop where
  decodes : decode (encode i) = .ok i := by rfl
  notInit : i ≠ .init := by nofun
  answers : ∀ s : State, Inv s → P s.blk →
    (∃ d b, exec i s = .next (answered s d b) ∧ Q b) ∨ ∃ f, MayRaise f ∧ exec i s = .next (faulted s f)

/-- ERR stays when a command answers OK. -/
theorem exec_answered_err {i : Instr} (hi : i ≠ .init) {s : State} {d : BitVec 32} {b : Block}
    (h : exec i s = .next (answered s d b)) : b.err = s.blk.err := by
  obtain ⟨-, -, -, herr, -⟩ := whoWritesWhat i s _ h
  by_contra hne
  rcases herr hne with hinit | ⟨hok, f, hf⟩
  · exact hi hinit
  · by_cases hfok : f = .ok
    · subst hfok
      exact hne (congrArg Block.err (answered_inj (hf.trans (faulted_ok s))).2)
    · exact answered_ne_faulted hfok hf

/-- A fault once latched stays (60_exceptions.md rule R225). -/
theorem exec_err_of_latched {i : Instr} (hi : i ≠ .init) {s t : State} (hs : s.blk.err ≠ .ok) (h : exec i s = .next t) :
    t.blk.err = s.blk.err := by
  obtain ⟨-, -, -, herr, -⟩ := whoWritesWhat i s t h
  by_contra hne
  rcases herr hne with hinit | ⟨hok, -⟩
  · exact hi hinit
  · exact hs hok

/-- The step that takes the command's word from the port. -/
theorem Takes.step {P Q : Block → Prop} {i : Instr} (hi : Takes P i Q) {s : State} {rest : List HostAct} (hs : Reached P s)
    (hp : s.pending = .command (encode i) :: rest) :
    ∃ t, step s = .next t ∧ Reached Q t ∧ t.pending = rest ∧ t.rsps.length = s.rsps.length + 1 := by
  have hinv : Inv { s with pending := rest } := inv_of_same_block hs.inv rfl rfl
  obtain ⟨t, ht⟩ := exec_answers hinv i
  have hpending : t.pending = rest := (whoWritesWhat i _ t ht).2.1
  have hrsps : t.rsps.length = s.rsps.length + 1 := by
    rcases exec_next_cases ht with ⟨d, b, rfl⟩ | ⟨f, -, rfl⟩ <;> simp [answered, faulted]
  refine ⟨t, (step_command hp hi.decodes).trans ht, ?_, hpending, hrsps⟩
  by_cases hok : s.blk.err = .ok
  · rcases hi.answers _ hinv (hs.holds hok) with ⟨d, b, e, hQ⟩ | ⟨f, hf, e⟩ <;> cases e.symm.trans ht
    · exact ⟨exec_keeps_inv hinv ht, fun _ => hQ, .inl ((exec_answered_err hi.notInit ht).trans hok)⟩
    · have herr : (faulted { s with pending := rest } f).blk.err = f := if_pos hok
      exact ⟨exec_keeps_inv hinv ht, fun h => absurd (herr.symm.trans h) hf.ne_ok, .inr (by rwa [herr])⟩
  · have herr : t.blk.err = s.blk.err := exec_err_of_latched (s := { s with pending := rest }) hi.notInit hok ht
    exact ⟨exec_keeps_inv hinv ht, fun h => absurd (herr.symm.trans h) hok, herr ▸ hs.fault⟩

/-- The commands at the port, one step each, lead from blocks with `P` to blocks with `Q`, with one response each. -/
def Leads (P : Block → Prop) (cmds : List Instr) (Q : Block → Prop) : Prop :=
  ∀ (s : State) (rest : List HostAct), Reached P s → s.pending = cmds.map (fun i => .command (encode i)) ++ rest →
    ∃ t, Host.Core.run Sys2Proof.core cmds.length s = .next t ∧ Reached Q t ∧ t.pending = rest
      ∧ t.rsps.length = s.rsps.length + cmds.length

theorem Leads.nil {P : Block → Prop} : Leads P [] P := fun s _ hs hp => ⟨s, rfl, hs, hp, rfl⟩

theorem Takes.leads {P Q : Block → Prop} {i : Instr} (hi : Takes P i Q) : Leads P [i] Q := fun s rest hs hp => by
  obtain ⟨t, hstep, ht⟩ := hi.step hs hp
  exact ⟨t, run_one hstep, ht⟩

theorem Leads.append {P Q R : Block → Prop} {xs ys : List Instr} (hx : Leads P xs Q) (hy : Leads Q ys R) :
    Leads P (xs ++ ys) R := fun s rest hs hp => by
  obtain ⟨t, hrun, ht, hpending, hrsps⟩ := hx s (ys.map (fun i => .command (encode i)) ++ rest) hs (by simpa using hp)
  obtain ⟨u, hrun', hu, hpending', hrsps'⟩ := hy t rest ht hpending
  refine ⟨u, ?_, hu, hpending', ?_⟩
  · rw [List.length_append, run_add hrun, hrun']
  · rw [List.length_append, hrsps', hrsps, Nat.add_assoc]

theorem Leads.cons {P Q R : Block → Prop} {i : Instr} {cmds : List Instr} (hi : Takes P i Q) (h : Leads Q cmds R) :
    Leads P (i :: cmds) R := hi.leads.append h

/-- A command for each byte of a text, with `P` of the bytes done. -/
theorem leads_map {P : List Byte → Block → Prop} {mk : Byte → Instr} {m : List Byte}
    (h : ∀ pre, ∀ v ∈ m, Takes (P pre) (mk v) (P (pre ++ [v]))) : Leads (P []) (m.map mk) (P m) := by
  induction m using List.reverseRecOn with
  | nil => exact .nil
  | append_singleton m v ih =>
    rw [List.map_append]
    exact (ih fun pre u hu => h pre u (by simp [hu])).append (h m v (by simp)).leads

end Sys2Proof.Machine
end

section
/-! SUPPORT. The commands of a round trip (46_system.md rule R208): what the block holds before and after each, from the counters of
the message to the decoded bytes. -/

namespace Sys2Proof.Machine

open Sys2Proof.Safety

/-! ### The words of the two sequences -/

/-- A word of format I8 past the buffer commands is read by its opcode byte (30_encoding.md rules R82, R86). -/
theorem decode_encodeI8 {op : Byte} (hop : 0x28 ≤ op.toNat) (imm : Byte) :
    decode (encodeI8 op imm) = decodeByOpcode (encodeI8 op imm) := by
  have hop6 := encodeI8_op6 op imm
  unfold decode
  split
  case h_7 => rfl
  all_goals omega

theorem decode_encode_count (v : Byte) : decode (encode (.count v)) = .ok (.count v) :=
  (decode_encodeI8 (by decide) v).trans (by simp [decodeByOpcode, decodeI8])

theorem decode_encode_pack (v : Byte) : decode (encode (.pack v)) = .ok (.pack v) :=
  (decode_encodeI8 (by decide) v).trans (by simp [decodeByOpcode, decodeI8])

/-! ### What the block holds on the way -/

/-- From the first COUNT to CANON: the counters are those of the text, and nothing is in the buffers. -/
structure Counted (p : Phase) (text : List Byte) (b : Block) : Prop where
  phase : b.phase = p
  counters : ∀ v, b.counter v = text.count v
  hdr : b.hdr = []
  pay : b.pay = []
  out : b.out = []

/-- The payload is the codes of entries that have the text's bytes as their symbols. -/
def Spells (alpha : List Entry) (pay : Bits) (text : List Byte) : Prop :=
  ∃ es : List Entry, (∀ e ∈ es, e ∈ alpha) ∧ es.map Entry.sym = text ∧ pay = es.flatMap Entry.code

/-- Where ALPHA has codes and PAY is in them, before and after it is sent. -/
structure Coded (p : Phase) (text : List Byte) (b : Block) : Prop where
  phase : b.phase = p
  out : b.out = []
  spells : Spells b.alpha b.pay text

/-- The header gives an alphabet in which the payload spells the text. -/
def Transmits (hdr pay : Bits) (text : List Byte) : Prop :=
  ∃ mb n alpha, parseSizes hdr pay = .ok (mb, n) ∧ n ≤ Config.alphaCap
    ∧ deserBuckets hdr mb 1 0 (1 + mb) = .ok alpha ∧ Spells alpha pay text

/-- Between FINISH of the encode and DESER: all there is of the text is in HDR and PAY. -/
structure Sent (p : Phase) (text : List Byte) (b : Block) : Prop where
  phase : b.phase = p
  out : b.out = []
  transmits : Transmits b.hdr b.pay text

/-- From DECODE on. -/
structure Decoded (p : Phase) (text : List Byte) (b : Block) : Prop where
  phase : b.phase = p
  out : b.out = bitsOfBytes text

variable {m : List Byte}

/-! ### From COUNT to SERHDR -/

theorem takes_count (pre : List Byte) (v : Byte) :
    Takes (Counted .idle pre) (.count v) (Counted .idle (pre ++ [v])) where
  decodes := decode_encode_count v
  answers s _ hs := by
    by_cases hfull : s.blk.counter v = 2 ^ s.cfg.freqW - 1
    · exact .inr ⟨_, .inl rfl, exec_count_full hs.phase hfull⟩
    · refine .inl ⟨_, _, exec_count_room hs.phase hfull, hs.phase, fun u => ?_, hs.hdr, hs.pay, hs.out⟩
      rw [counter_setCounter, List.count_append, hs.counters, hs.counters, List.count_singleton]
      by_cases huv : u = v
      · simp [huv]
      · simp [huv, Ne.symm huv]

theorem takes_mkalpha : Takes (Counted .idle m) .mkalpha (Counted .alphabetBuilt m) where
  answers s h hs := by
    have halpha : s.blk.alpha = [] := h.noAlpha (by rw [hs.phase]; rfl) (by rw [hs.phase]; rfl)
    exact .inl ⟨_, _, exec_mkalpha_of_idle halpha hs.phase, { hs with phase := rfl }⟩

/-- The alphabet of an encode has an entry for each byte of the text, and no other. -/
theorem Counted.mem_syms_iff {p : Phase} {s : State} (hs : Counted p m s.blk) (h : Inv s) (hp : encodePhase p = true) (v : Byte) :
    v ∈ s.blk.alpha.map Entry.sym ↔ v ∈ m := by
  have hperm : (s.blk.alpha.map Entry.sym).Perm ((countedEntries s.blk.ft).map Entry.sym) := by
    simpa [Function.comp_def] using (h.counted (hs.phase ▸ hp)).map Prod.fst
  rw [hperm.mem_iff, ← List.count_pos_iff (l := m), ← hs.counters, List.mem_map]
  constructor
  · rintro ⟨e, he, rfl⟩
    exact ((mem_countedEntries s.blk e).1 he).2.1
  · exact fun hv => ⟨⟨v, s.blk.counter v, []⟩, (mem_countedEntries s.blk _).2 ⟨rfl, hv, rfl⟩, rfl⟩

theorem Counted.alpha_eq_nil_iff {p : Phase} {s : State} (hs : Counted p m s.blk) (h : Inv s) (hp : encodePhase p = true) :
    s.blk.alpha = [] ↔ m = [] := by
  rw [← List.map_eq_nil_iff (f := Entry.sym), List.eq_nil_iff_forall_not_mem, List.eq_nil_iff_forall_not_mem]
  exact forall_congr' fun v => not_congr (hs.mem_syms_iff h hp v)

theorem takes_mktree (hm : m ≠ []) : Takes (Counted .alphabetBuilt m) .mktree (Counted .treeBuilt m) where
  answers s h hs := by
    obtain ⟨root, -, hexec⟩ := exec_mktree_answered hs.phase (mt (hs.alpha_eq_nil_iff h rfl).1 hm)
    exact .inl ⟨_, _, hexec, { hs with phase := rfl }⟩

theorem takes_assign : Takes (Counted .treeBuilt m) .assign (Counted .codesAssigned m) where
  answers s h hs := by
    obtain ⟨root, hroot, htree⟩ := h.tree hs.phase
    obtain ⟨out, -, hexec⟩ := exec_assign_answered hs.phase hroot htree
    exact .inl ⟨_, _, hexec, { hs with phase := rfl }⟩

theorem takes_canon : Takes (Counted .codesAssigned m) .canon (Counted .canonicalized m) where
  answers s h hs := by
    obtain ⟨es, hes⟩ := huffmanCodes_canonical_total (h.huffman (by rw [hs.phase]; rfl))
    exact .inl ⟨_, _, exec_canon_of_codesAssigned hs.phase hes, { hs with phase := rfl }⟩

/-! ### From SERHDR to FINISH -/

/-- The codes of `pre` are packed; LUT has an entry for each byte of `text`. -/
structure Packing (text pre : List Byte) (b : Block) : Prop extends Coded .headerSerialized pre b where
  syms : ∀ v ∈ text, v ∈ b.alpha.map Entry.sym

theorem takes_serhdr : Takes (Counted .canonicalized m) .serhdr (Packing m []) where
  answers s h hs := by
    have halpha : s.blk.alpha ≠ [] := h.someSymbol (by rw [hs.phase]; rfl) (by rw [hs.phase]; nofun)
    by_cases hover : CountOverflows s.blk.alpha
    · exact .inr ⟨_, .inr rfl, exec_serhdr_of_overflow hs.hdr hs.pay hs.phase halpha hover⟩
    · exact .inl ⟨_, _, exec_serhdr_of_fits hs.hdr hs.pay hs.phase halpha (maxBitsOf_le h.codeFits) hover,
        { phase := rfl, out := hs.out, spells := ⟨[], nofun, rfl, hs.pay⟩, syms := fun v => (hs.mem_syms_iff h rfl v).2 }⟩

theorem takes_pack (pre : List Byte) {v : Byte} (hv : v ∈ m) : Takes (Packing m pre) (.pack v) (Packing m (pre ++ [v])) where
  decodes := decode_encode_pack v
  answers s h hs := by
    obtain ⟨e, he, rfl⟩ := List.mem_map.1 (hs.syms v hv)
    obtain ⟨i, hlook, hentry⟩ := inv_lookup_sym h (by rw [hs.phase]; rfl) he
    by_cases hfits : s.blk.pay.length + e.code.length ≤ s.cfg.payCapBits
    · obtain ⟨es, hes, hsyms, hpay⟩ := hs.spells
      refine .inl ⟨_, _, exec_pack_of_fits hs.phase hlook hentry hfits, { hs with spells := ⟨es ++ [e], ?_, ?_, ?_⟩ }⟩
      · simpa [or_imp, forall_and] using ⟨hes, he⟩
      · simp [hsyms]
      · simp [hpay]
    · exact .inr ⟨_, .inl rfl, exec_pack_of_full hs.phase hlook hentry (Nat.not_le.1 hfits)⟩

theorem takes_packend : Takes (Packing m m) .packend (Coded .payloadSerialized m) where
  answers s _ hs := .inl ⟨_, _, exec_packend_of_headerSerialized hs.phase, { phase := rfl, out := hs.out, spells := hs.spells }⟩

/-- FINISH (46_system.md rule R203) where it is accepted. -/
theorem exec_finish_of_ready {s : State} (h : s.blk.phase = .payloadSerialized ∨ s.blk.phase = .payloadDecoded
    ∨ (s.blk.phase = .alphabetBuilt ∧ s.blk.alpha = [])) :
    exec .finish s = .next (answered s 0 { s.blk.clearTransient with phase := .done }) := by
  show execFinish s = _
  rw [← List.length_eq_zero_iff] at h
  rw [execFinish, if_neg (not_not.2 h), conclude_ok]
  rfl

/-- RETIRE (46_system.md rule R204) in Done. -/
theorem exec_retire_of_done {s : State} (hp : s.blk.phase = .done) :
    exec .retire s = .next (answered s 0 { s.blk with phase := .idle }) := by
  show execRetire s = _
  rw [execRetire, if_neg (not_not.2 hp), conclude_ok]
  rfl

/-- The frequencies, which are not sent, spell nothing. -/
theorem Spells.clearFreq {alpha : List Entry} {pay : Bits} (h : Spells alpha pay m) :
    Spells (alpha.map (fun e => { e with freq := 0 })) pay m := by
  obtain ⟨es, hes, rfl, rfl⟩ := h
  refine ⟨es.map (fun e => { e with freq := 0 }), ?_, ?_, ?_⟩
  · simp only [List.mem_map]
    rintro _ ⟨e, he, rfl⟩
    exact ⟨e, hes e he, rfl⟩
  · simp [Function.comp_def]
  · simp [List.flatMap_map]

/-- The header that stands after SERHDR gives the alphabet back, without its frequencies (43_canonical.md rule R168). -/
theorem inv_header_restores {s : State} (h : Inv s) (hp : serializedPhase s.blk.phase = true) :
    parseSizes s.blk.hdr s.blk.pay = .ok (maxBitsOf s.blk.alpha, s.blk.alpha.length)
      ∧ deserBuckets s.blk.hdr (maxBitsOf s.blk.alpha) 1 0 (1 + maxBitsOf s.blk.alpha)
        = .ok (s.blk.alpha.map (fun e => { e with freq := 0 })) := by
  obtain ⟨-, hcoded, hcanonical⟩ := encode_of_serialized hp
  have hh := h.huffman hcoded
  have hsorted := lengths_ascend_of_ltB (h.sortedB hcanonical)
  have hpos : ∀ e ∈ s.blk.alpha, 1 ≤ e.code.length := fun e he => (hh.lengths e he).1
  have hfits : ¬ CountOverflows s.blk.alpha := fun ⟨k, hk, hgt⟩ => Nat.not_lt.2 (h.countsFit hp k hk) hgt
  have hsizes := parseSizes_header_ok hsorted hpos hfits h.codeFits s.blk.pay
  obtain ⟨out, hout⟩ := deserBuckets_rebuilt hsizes
    (claimedSpace_header_le hsorted hpos hfits h.codeFits (huffmanCodes_kraft_le hh))
  rw [h.header hp]
  exact ⟨hsizes, deser_header_eq hsorted hpos hfits (h.numbered hcanonical) hout ▸ hout⟩

theorem takes_finish_coded : Takes (Coded .payloadSerialized m) .finish (Sent .done m) where
  answers s h hs := by
    obtain ⟨hsizes, hdeser⟩ := inv_header_restores h (by rw [hs.phase]; rfl)
    exact .inl ⟨_, _, exec_finish_of_ready (.inl hs.phase), rfl, hs.out, _, _, _, hsizes, h.alphaFits, hdeser,
      hs.spells.clearFreq⟩

/-- The zero-length message (46_system.md rule R203): nothing is sent. -/
theorem takes_finish_empty : Takes (Counted .alphabetBuilt []) .finish (Sent .done []) where
  answers s h hs := by
    refine .inl ⟨_, _, exec_finish_of_ready (.inr (.inr ⟨hs.phase, (hs.alpha_eq_nil_iff h rfl).2 rfl⟩)), rfl, hs.out, ?_⟩
    show Transmits s.blk.hdr s.blk.pay []
    rw [hs.hdr, hs.pay]
    exact ⟨0, 0, [], parseSizes_empty, Nat.zero_le _, rfl, [], nofun, rfl, rfl⟩

/-! ### From RETIRE to FINISH of the decode -/

theorem takes_retire : Takes (Sent .done m) .retire (Sent .idle m) where
  answers s _ hs := .inl ⟨_, _, exec_retire_of_done hs.phase, { hs with phase := rfl }⟩

theorem takes_parse : Takes (Sent .idle m) .parse (Sent .headerParsed m) where
  answers s _ hs := by
    obtain ⟨mb, n, alpha, hsizes, -⟩ := hs.transmits
    exact .inl ⟨_, _, exec_parse_accepted hs.phase hsizes, { hs with phase := rfl }⟩

theorem takes_deser : Takes (Sent .headerParsed m) .deser (Coded .alphabetReconstructed m) where
  answers s h hs := by
    obtain ⟨halpha, hparsed⟩ := inv_headerParsed h hs.phase
    obtain ⟨mb, n, alpha, hsizes, hcap, hdeser, hspells⟩ := hs.transmits
    cases hparsed.symm.trans hsizes
    exact .inl ⟨_, _, exec_deser_rebuilt halpha hs.phase hcap hdeser, rfl, hs.out, hspells⟩

theorem takes_mklook : Takes (Coded .alphabetReconstructed m) .mklook (Coded .lookupBuilt m) where
  answers s _ hs := by
    by_cases hmax : s.blk.hdrMaxbits ≤ s.cfg.decMaxbits
    · exact .inl ⟨_, _, exec_mklook_fits hs.phase hmax, { hs with phase := rfl }⟩
    · exact .inr ⟨_, .inl rfl, exec_mklook_too_long hs.phase (Nat.not_le.1 hmax)⟩

theorem takes_decode : Takes (Coded .lookupBuilt m) .decode (Decoded .payloadDecoded m) where
  answers s h hs := by
    obtain ⟨es, hes, rfl, hpay⟩ := hs.spells
    by_cases hroom : es.length ≤ s.cfg.outCapBytes
    · exact .inl ⟨_, _, exec_decode_codes hs.out hs.phase h hes hpay hroom, rfl, rfl⟩
    · exact .inr ⟨_, .inl rfl, exec_decode_full (rest := []) hs.out hs.phase h hes (by simpa using hpay) (Nat.not_le.1 hroom)⟩

theorem takes_finish_decoded : Takes (Decoded .payloadDecoded m) .finish (Decoded .done m) where
  answers s _ hs := .inl ⟨_, _, exec_finish_of_ready (.inr (.inl hs.phase)), rfl, hs.out⟩

/-! ### The two sequences (46_system.md rule R208) -/

theorem leads_encode (m : List Byte) : Leads (Counted .idle []) (Pseudo.encode m).expand (Sent .done m) := by
  have hcounts : Leads (Counted .idle []) (m.map .count) (Counted .idle m) := leads_map fun pre v _ => takes_count pre v
  by_cases hm : m = []
  · subst hm
    exact hcounts.append (.cons takes_mkalpha takes_finish_empty.leads)
  · have hpacks : Leads (Packing m []) (m.map .pack) (Packing m m) := leads_map fun pre v hv => takes_pack pre hv
    rw [Pseudo.expand, if_neg hm]
    refine hcounts.append (.cons takes_mkalpha ?_)
    rw [List.append_assoc]
    exact .cons (takes_mktree hm) (.cons takes_assign (.cons takes_canon (.cons takes_serhdr
      (hpacks.append (.cons takes_packend takes_finish_coded.leads)))))

theorem leads_decodeall (m : List Byte) : Leads (Sent .idle m) Pseudo.decodeall.expand (Decoded .done m) :=
  .cons takes_parse (.cons takes_deser (.cons takes_mklook (.cons takes_decode takes_finish_decoded.leads)))

/-- Settles O49: what each command leads to, put together along the two sequences. -/
theorem encodeThenDecodeRoundTrip : Obligations.EncodeThenDecodeRoundTrip := by
  intro s m h hp herr hft hhdr hpay hout cmds
  have hstart : Reached (Counted .idle []) (loaded s cmds) := by
    refine ⟨inv_of_same_block h rfl rfl, fun _ => ⟨hp, fun v => ?_, hhdr, hpay, hout⟩, .inl herr⟩
    show s.blk.counter v = 0
    simp [Block.counter, hft]
  have hleads : Leads (Counted .idle []) cmds (Decoded .done m) :=
    (leads_encode m).append (.cons takes_retire (leads_decodeall m))
  obtain ⟨t, hrun, ht, hpending, hrsps⟩ := hleads _ [] hstart (by simp [loaded])
  refine ⟨t, hrun, hpending, hrsps, fun hok => ?_, ht.fault⟩
  exact ⟨(ht.holds hok).phase, (ht.holds hok).out.trans (bitsOfBytes_eq_flatMap m)⟩

end Sys2Proof.Machine
end

section
/-! SUPPORT. The system commands (46_system.md): ABORT and the two reads have no check, FINISH and RETIRE check the phase. -/

namespace Sys2Proof.Machine

open Sys2Proof.Safety

section
variable {s : State}

/-- FINISH (46_system.md rule R203) where it is not accepted. -/
theorem exec_finish_of_not_ready (h : ¬ (s.blk.phase = .payloadSerialized ∨ s.blk.phase = .payloadDecoded
    ∨ (s.blk.phase = .alphabetBuilt ∧ s.blk.alpha = []))) : exec .finish s = .next (faulted s .protocolMisuse) := by
  show execFinish s = _
  rw [← List.length_eq_zero_iff] at h
  rw [execFinish, if_pos h, conclude_raise]

/-- RETIRE (46_system.md rule R204) outside Done. -/
theorem exec_retire_of_ne_done (hp : s.blk.phase ≠ .done) : exec .retire s = .next (faulted s .protocolMisuse) := by
  show execRetire s = _
  rw [execRetire, if_pos hp, conclude_raise]

end

theorem exec_abort (s : State) : exec .abort s = .next (answered s 0 { s.blk.clearTransient with phase := .idle }) := rfl

theorem exec_rdphase (s : State) :
    exec .rdphase s = .next (answered s (BitVec.ofNat 32 s.blk.phase.code.toNat) s.blk) := rfl

theorem exec_rderr (s : State) : exec .rderr s = .next (answered s (BitVec.ofNat 32 s.blk.err.code.toNat) s.blk) := rfl

/-- Settles O50: ClearTransient, and then Idle. -/
theorem abortClearsTransientState : Obligations.AbortClearsTransientState := ⟨by decide, exec_abort⟩

/-- Settles O51: ClearTransient and then Done, or the fault. -/
theorem finishReleasesTransientState : Obligations.FinishReleasesTransientState :=
  ⟨by decide, fun _ => ⟨exec_finish_of_not_ready, exec_finish_of_ready⟩⟩

/-- Settles O52: the phase is Done or not. -/
theorem retireLeavesDone : Obligations.RetireLeavesDone :=
  ⟨by decide, fun _ => ⟨exec_retire_of_ne_done, exec_retire_of_done⟩⟩

/-- Settles O53: each code is the place of what it stands for in the table. -/
theorem statusReadsGiveCodes : Obligations.StatusReadsGiveCodes := by
  refine ⟨by decide, by decide, fun s => ⟨⟨_, ?_, exec_rdphase s⟩, ⟨_, ?_, exec_rderr s⟩⟩⟩
  · cases s.blk.phase <;> rfl
  · cases s.blk.err <;> rfl

end Sys2Proof.Machine
end

section
/-! SUPPORT. The phase table (46_system.md rule R200): the guards come first, each with its fault (60_exceptions.md rule R227),
and the block a command answers with is in the phase of the table. -/

namespace Sys2Proof.Machine

open Sys2Proof.Safety

/-! ### The guards -/

theorem exec_decode_populated {s : State} (hout : s.blk.out ≠ []) :
    exec .decode s = .next (faulted s .decodedMessageAlreadyPopulated) := by
  show execDecode s = _
  rw [execDecode, if_pos (mt List.length_eq_zero_iff.1 hout), conclude_raise]

/-- A container guard that applies ends the command with its fault, in every phase. -/
theorem exec_of_containerGuard {i : Instr} {s : State} {f : Status} (h : containerGuard s.blk i = some f) :
    f ≠ .ok ∧ exec i s = .next (faulted s f) := by
  cases i with
  | mkalpha =>
    obtain ⟨halpha, ⟨⟩⟩ := Option.ite_none_left_eq_some.1 h
    exact ⟨nofun, exec_mkalpha_populated halpha⟩
  | deser =>
    obtain ⟨halpha, ⟨⟩⟩ := Option.ite_none_left_eq_some.1 h
    exact ⟨nofun, exec_deser_populated halpha⟩
  | serhdr =>
    obtain ⟨hbuffers, ⟨⟩⟩ := Option.ite_none_left_eq_some.1 h
    exact ⟨nofun, exec_serhdr_populated hbuffers⟩
  | decode =>
    obtain ⟨hout, ⟨⟩⟩ := Option.ite_none_left_eq_some.1 h
    exact ⟨nofun, exec_decode_populated hout⟩
  | _ => cases h

/-- Where no container guard applies, a command faults with ProtocolMisuse in every phase in which it is not accepted. -/
theorem exec_of_not_accepted {i : Instr} {s : State} (hwf : i.wf = true) (hguard : containerGuard s.blk i = none)
    (h : accepts s.blk i = false) : exec i s = .next (faulted s .protocolMisuse) := by
  cases i with
  | init | abort | rdphase | rderr | blen _ | bget _ _ | brdb _ _ | rdft _ | nsym | rdsym _ | rdfreq _ | cget _ _ => cases h
  | finish => exact exec_finish_of_not_ready (by simpa [accepts, and_assoc] using h)
  | retire => exact exec_retire_of_ne_done (beq_eq_false_iff_ne.1 h)
  | bapp buf _ | bappb buf _ | btrim buf =>
    exact conclude_hostWrite_of_ne_idle buf (by rintro rfl; cases hwf) (beq_eq_false_iff_ne.1 h) _
  | relenc | reldec =>
    obtain ⟨hidle, hdone⟩ : s.blk.phase ≠ .idle ∧ s.blk.phase ≠ .done := by simpa [accepts] using h
    exact congrArg s.conclude (releaseGuard_of_not_allowed hidle hdone _)
  | count _ => exact exec_count_of_ne_idle (beq_eq_false_iff_ne.1 h)
  | mkalpha => exact exec_mkalpha_of_ne_idle (by simpa [containerGuard] using hguard) (beq_eq_false_iff_ne.1 h)
  | mktree => exact exec_mktree_of_ne_alphabetBuilt (beq_eq_false_iff_ne.1 h)
  | assign => exact exec_assign_of_ne_treeBuilt (beq_eq_false_iff_ne.1 h)
  | canon => exact exec_canon_of_ne_codesAssigned (beq_eq_false_iff_ne.1 h)
  | serhdr =>
    obtain ⟨hhdr, hpay⟩ : s.blk.hdr = [] ∧ s.blk.pay = [] := by simpa [containerGuard] using hguard
    exact exec_serhdr_of_ne_canonicalized hhdr hpay (beq_eq_false_iff_ne.1 h)
  | parse => exact exec_parse_of_ne_idle (beq_eq_false_iff_ne.1 h)
  | deser => exact exec_deser_of_ne_headerParsed (by simpa [containerGuard] using hguard) (beq_eq_false_iff_ne.1 h)
  | pack _ => exact exec_pack_of_ne_headerSerialized (beq_eq_false_iff_ne.1 h)
  | packend => exact exec_packend_of_ne_headerSerialized (beq_eq_false_iff_ne.1 h)
  | mklook => exact exec_mklook_of_ne_alphabetReconstructed (beq_eq_false_iff_ne.1 h)
  | decode => exact exec_decode_of_ne_lookupBuilt (by simpa [containerGuard] using hguard) (beq_eq_false_iff_ne.1 h)

/-! ### The phase after -/

/-- What a command's rule ends with when it leaves the phase `p`: a block in `p`, or a stop that is no OK. (A raise of OK would be
a response with status OK from the phase before, see `faulted_ok`.) -/
def EndsIn (p : Phase) (r : Result) : Prop := r ≠ raise .ok ∧ Answers (fun b => b.phase = p) r

@[simp] theorem endsIn_finishOk (p : Phase) (d : Nat) (b : Block) : EndsIn p (finishOk d b) ↔ b.phase = p := by
  simp [EndsIn]

@[simp] theorem endsIn_raise (p : Phase) (f : Status) : EndsIn p (raise f) ↔ f ≠ .ok := by simp [EndsIn]

@[simp] theorem endsIn_stuck (p : Phase) (x : Fault) : EndsIn p (stuck x) := by simp [EndsIn, raise, stuck]

@[simp] theorem endsIn_ite (p : Phase) (c : Prop) [Decidable c] (r q : Result) :
    EndsIn p (if c then r else q) ↔ (c → EndsIn p r) ∧ (¬ c → EndsIn p q) := by
  by_cases h : c <;> simp [h]

/-- A guard with a fault of its own, before a rule that goes on to end in `p`. -/
theorem endsIn_guard {p : Phase} {c : Prop} [Decidable c] {f : Status} {r : Result} (hf : f ≠ .ok) (hr : EndsIn p r) :
    EndsIn p (if c then raise f else r) :=
  (endsIn_ite _ _ _ _).2 ⟨fun _ => (endsIn_raise _ _).2 hf, fun _ => hr⟩

/-- A rule that ends where a computation within it stops. -/
theorem endsIn_error {α : Type} {a : Except Stop α} {e : Stop} (p : Phase) (ha : a ≠ raise .ok) (he : a = .error e) :
    EndsIn p (.error e) :=
  ⟨fun h => ha (he.trans (congrArg _ (Except.error.inj h))), answers_error _ e⟩

theorem checkedBitsOf_ne_raise (v len : Nat) (f : Status) : checkedBitsOf v len ≠ raise f := by
  unfold checkedBitsOf
  split <;> nofun

/-- Numbering codes raises no fault: it only stops where a number does not fit its length (43_canonical.md rule R161). -/
theorem canonAssign_ne_raise (c len : Nat) (es : List Entry) (f : Status) : canonAssign c len es ≠ raise f := by
  induction es generalizing c len with
  | nil => nofun
  | cons e es ih =>
    unfold canonAssign
    dsimp only
    split
    · rename_i hcode
      exact fun h => checkedBitsOf_ne_raise _ _ f (hcode.trans (congrArg _ (Except.error.inj h)))
    · split
      · rename_i hrest
        exact fun h => ih _ _ (hrest.trans (congrArg _ (Except.error.inj h)))
      · nofun

theorem assignCodes_ne_raise (root : Nat) (b : Block) (f : Status) : assignCodes root b ≠ raise f :=
  fun h => nomatch (assignCodes_error h)

theorem parseSizes_ne_raise_ok (hdr pay : Bits) : parseSizes hdr pay ≠ raise .ok := by
  rcases parseSizes_cases hdr pay with ⟨-, -, e⟩ | ⟨-, -, e⟩ | ⟨e, -⟩ <;> rw [e] <;> nofun

theorem deserBuckets_ne_raise_ok (hdr : Bits) (mb : Nat) : deserBuckets hdr mb 1 0 (1 + mb) ≠ raise .ok := by
  rcases deserBuckets_cases hdr mb (1 + mb) (Nat.zero_le _) with ⟨es, e, -⟩ | ⟨e, -⟩ | ⟨x, e⟩ <;> rw [e] <;> nofun

theorem decodeWalk_ne_raise_ok (dt : List (Nat × Byte)) (size cap : Nat) (m : Bits) :
    decodeWalk dt size cap m 0 [] ≠ raise .ok := by
  rcases decodeWalk_cases dt size cap m 0 [] with ⟨vs, e, -⟩ | e | e <;> rw [e] <;> nofun

/-- Every command's rule leaves the phase of the table. -/
theorem exec_endsIn (i : Instr) (s : State) :
    ∃ r, exec i s = s.conclude r ∧ EndsIn (phaseAfter s.blk.phase i) r := by
  cases i with
  | init | abort | rdphase | rderr | blen _ | rdft _ | nsym => exact ⟨finishOk _ _, rfl, (endsIn_finishOk _ _ _).2 rfl⟩
  | finish | retire | bapp _ _ | bappb _ _ | btrim _ | brdb _ _ | relenc | reldec | count _ | mkalpha | serhdr | packend
  | mklook => exact ⟨_, rfl, by simp [phaseAfter]⟩
  | bget _ _ | rdsym _ | rdfreq _ => exact ⟨_, rfl, by split <;> simp [phaseAfter]⟩
  | cget _ _ => exact ⟨_, rfl, by split <;> [simp; (split <;> simp [phaseAfter])]⟩
  | mktree =>
    refine ⟨_, rfl, endsIn_guard nofun <| endsIn_guard nofun ?_⟩
    dsimp only
    split <;> simp [phaseAfter]
  | assign =>
    refine ⟨_, rfl, endsIn_guard nofun ?_⟩
    split
    · exact endsIn_stuck _ _
    · split
      · exact endsIn_error _ (assignCodes_ne_raise _ _ _) ‹_›
      · simp [phaseAfter]
  | canon =>
    refine ⟨_, rfl, endsIn_guard nofun ?_⟩
    split
    · exact endsIn_error _ (canonAssign_ne_raise _ _ _ _) ‹_›
    · simp [phaseAfter]
  | parse =>
    refine ⟨_, rfl, endsIn_guard nofun ?_⟩
    split
    · exact endsIn_error _ (parseSizes_ne_raise_ok _ _) ‹_›
    · simp [phaseAfter]
  | deser =>
    refine ⟨_, rfl, endsIn_guard nofun <| endsIn_guard nofun <| endsIn_guard nofun ?_⟩
    split
    · exact endsIn_error _ (deserBuckets_ne_raise_ok _ _) ‹_›
    · simp [phaseAfter]
  | decode =>
    refine ⟨_, rfl, endsIn_guard nofun <| endsIn_guard nofun ?_⟩
    split
    · exact endsIn_error _ (decodeWalk_ne_raise_ok _ _ _ _) ‹_›
    · simp [phaseAfter]
  | pack _ =>
    refine ⟨_, rfl, endsIn_guard nofun ?_⟩
    split
    · simp
    · split <;> simp [phaseAfter]

theorem exec_answered_phase {i : Instr} {s : State} {d : BitVec 32} {b : Block} (h : exec i s = .next (answered s d b)) :
    b.phase = phaseAfter s.blk.phase i := by
  obtain ⟨r, hr, hok, hphase⟩ := exec_endsIn i s
  rcases conclude_next (hr ▸ h) with ⟨d', b', hres, heq⟩ | ⟨f, hres, heq⟩
  · obtain ⟨-, rfl⟩ := answered_inj heq
    exact hphase _ _ hres
  · exact absurd heq (answered_ne_faulted fun hf => hok (hf ▸ hres))

/-- Settles O14: a command that answers OK has met neither a container guard's fault nor ProtocolMisuse. -/
theorem phaseTable : Obligations.PhaseTable := by
  refine fun i s hwf => ⟨exec_of_not_accepted hwf, fun d b h => ⟨?_, exec_answered_phase h⟩⟩
  have hne (f : Status) (hf : f ≠ .ok) : exec i s ≠ .next (faulted s f) :=
    fun hfault => answered_ne_faulted hf (Host.Outcome.next.inj (h.symm.trans hfault))
  match hguard : containerGuard s.blk i with
  | some f =>
    obtain ⟨hf, hfault⟩ := exec_of_containerGuard hguard
    exact absurd hfault (hne f hf)
  | none => exact Bool.of_not_eq_false fun hno => hne .protocolMisuse nofun (exec_of_not_accepted hwf hguard hno)

end Sys2Proof.Machine
end

section
/-! SUPPORT. Decoding the word of a command gives the command back (30_encoding.md rules R80 to R87): the opcode selects the
command's own row, and each format's decoder takes back the fields its encoder put. -/

namespace Sys2Proof

/-- Outside 0x10 to 0x27, the opcode bytes of the buffer commands, the whole opcode byte selects the row (R83, R86). -/
theorem decode_eq_decodeByOpcode {w : Word} (hop : (opByte w).toNat < 0x10 ∨ 0x28 ≤ (opByte w).toNat) :
    decode w = decodeByOpcode w := by
  unfold decode
  split
  case h_7 => rfl
  all_goals
    rename_i hop6
    rw [op6_toNat] at hop6
    omega

@[simp] theorem decodeZ_encodeZ (op : Byte) (i : Instr) : decodeZ (encodeZ op) i = .ok i := if_pos (encodeZ_low _)

@[simp] theorem decodeI8_encodeI8 (op imm : Byte) (mk : Byte → Instr) : decodeI8 (encodeI8 op imm) mk = .ok (mk imm) := by
  rw [decodeI8, if_pos (encodeI8_zero _ _), encodeI8_imm]

@[simp] theorem decodeIP_encodeIP (op idx pos : Byte) (mk : Byte → Byte → Instr) :
    decodeIP (encodeIP op idx pos) mk = .ok (mk idx pos) := by
  rw [decodeIP, if_pos (encodeIP_zero _ _ _), encodeIP_idx, encodeIP_pos]

@[simp] theorem decodeB0_encodeB (op : BitVec 6) (buf : Buf) (mk : Buf → Instr) :
    decodeB0 (encodeB op buf 0) mk = if (mk buf).wf then .ok (mk buf) else .error .selector := by
  rw [decodeB0, if_pos (encodeB_low _ _ _), withBuffer_encodeB]

@[simp] theorem decodeB1_encodeB (op : BitVec 6) (buf : Buf) (bit : Bool) (mk : Buf → Bool → Instr) :
    decodeB1 (encodeB op buf ((0 : BitVec 23) ++ BitVec.ofBool bit)) mk
      = if (mk buf bit).wf then .ok (mk buf bit) else .error .selector := by
  rw [decodeB1, if_pos (encodeB1_zero _ _ _), encodeB1_bit, withBuffer_encodeB]

@[simp] theorem decodeB8_encodeB (op : BitVec 6) (buf : Buf) (byte : Byte) (mk : Buf → Byte → Instr) :
    decodeB8 (encodeB op buf ((0 : BitVec 16) ++ byte)) mk
      = if (mk buf byte).wf then .ok (mk buf byte) else .error .selector := by
  rw [decodeB8, if_pos (encodeB8_zero _ _ _), encodeB8_byte, withBuffer_encodeB]

@[simp] theorem decodeBP_encodeB (op : BitVec 6) (buf : Buf) (pos : BitVec 24) (mk : Buf → BitVec 24 → Instr) :
    decodeBP (encodeB op buf pos) mk = if (mk buf pos).wf then .ok (mk buf pos) else .error .selector := by
  rw [decodeBP, encodeB_low, withBuffer_encodeB]

/-- Settles O2: the opcode selects the command's own row, and the decoder of the row's format takes back the operands. -/
theorem decodeInvertsEncode : Obligations.DecodeInvertsEncode := by
  intro i hwf
  cases i with
  | bapp buf bit =>
    rw [encode, decode, encodeB_op6]
    exact (decodeB1_encodeB _ _ _ _).trans (if_pos hwf)
  | bappb buf byte =>
    rw [encode, decode, encodeB_op6]
    exact (decodeB8_encodeB _ _ _ _).trans (if_pos hwf)
  | btrim buf | blen buf =>
    rw [encode, decode, encodeB_op6]
    exact (decodeB0_encodeB _ _ _).trans (if_pos hwf)
  | bget buf pos | brdb buf pos =>
    rw [encode, decode, encodeB_op6]
    exact (decodeBP_encodeB _ _ _ _).trans (if_pos hwf)
  | count b | rdft b | rdsym b | rdfreq b | pack b =>
    rw [encode, decode_eq_decodeByOpcode (by simp), decodeByOpcode, encodeI8_opByte]
    exact decodeI8_encodeI8 _ _ _
  | cget i pos =>
    rw [encode, decode_eq_decodeByOpcode (by simp), decodeByOpcode, encodeIP_opByte]
    exact decodeIP_encodeIP _ _ _ _
  | _ =>
    rw [encode, decode_eq_decodeByOpcode (by simp), decodeByOpcode, encodeZ_opByte]
    exact decodeZ_encodeZ _ _

end Sys2Proof
end

section
/-! SUPPORT. Every word that decodes is the word of its command (30_encoding.md rules R80 to R87): where the bits that must be 0
are 0, the encoder of the format makes the word again from the fields taken from it. -/

namespace Sys2Proof

/-! ### A word from its fields, format by format -/

theorem field_toNat_eq_zero {w : Word} {lo n : Nat} (h : field w lo n = 0) : w.toNat / 2 ^ lo % 2 ^ n = 0 := by
  rw [← field_toNat, h]
  exact BitVec.toNat_zero

theorem encodeZ_of_fields {w : Word} (h : field w 0 24 = 0) : encodeZ (opByte w) = w := by
  have hzero := field_toNat_eq_zero h
  refine BitVec.eq_of_toNat_eq ?_
  rw [encodeZ_toNat, opByte, field_toNat]
  omega

theorem encodeI8_of_fields {w : Word} (h : field w 8 16 = 0) : encodeI8 (opByte w) (field w 0 8) = w := by
  have hzero := field_toNat_eq_zero h
  refine BitVec.eq_of_toNat_eq ?_
  rw [encodeI8_toNat, opByte, field_toNat, field_toNat]
  omega

theorem encodeIP_of_fields {w : Word} (h : field w 16 8 = 0) : encodeIP (opByte w) (field w 8 8) (field w 0 8) = w := by
  have hzero := field_toNat_eq_zero h
  refine BitVec.eq_of_toNat_eq ?_
  rw [encodeIP_toNat, opByte, field_toNat, field_toNat, field_toNat]
  omega

theorem encodeB_of_fields {w : Word} {buf : Buf} (h : field w 24 2 = buf.selector) :
    encodeB (op6 w) buf (field w 0 24) = w := by
  refine BitVec.eq_of_toNat_eq ?_
  rw [encodeB_toNat, ← h, op6, field_toNat, field_toNat, field_toNat]
  omega

theorem bit_append_of_field {w : Word} (h : field w 1 23 = 0) :
    (0 : BitVec 23) ++ BitVec.ofBool (w.getLsbD 0) = field w 0 24 := by
  have hzero := field_toNat_eq_zero h
  refine BitVec.eq_of_toNat_eq ((append_toNat _ _).trans ?_)
  rw [field_toNat, BitVec.getLsbD, Nat.testBit_zero]
  by_cases hbit : w.toNat % 2 = 1 <;> simp [hbit] <;> omega

theorem byte_append_of_field {w : Word} (h : field w 8 16 = 0) : (0 : BitVec 16) ++ field w 0 8 = field w 0 24 := by
  have hzero := field_toNat_eq_zero h
  refine BitVec.eq_of_toNat_eq ((append_toNat _ _).trans ?_)
  rw [field_toNat, field_toNat, show (0 : BitVec 16).toNat = 0 from rfl]
  omega

/-! ### What the decoder answers -/

/-- If the answer is a command, it is well formed and the word is its word. -/
def EncodesTo (w : Word) (d : Except IllegalWord Instr) : Prop := ∀ i, d = .ok i → i.wf = true ∧ encode i = w

theorem encodesTo_ok {w : Word} {i : Instr} (hwf : i.wf = true) (h : encode i = w) : EncodesTo w (.ok i) := by
  rintro _ ⟨⟩
  exact ⟨hwf, h⟩

theorem encodesTo_error (w : Word) (e : IllegalWord) : EncodesTo w (.error e) := nofun

theorem encodesTo_ite {w : Word} {c : Prop} [Decidable c] {d : Except IllegalWord Instr} {e : IllegalWord}
    (h : c → EncodesTo w d) : EncodesTo w (if c then d else .error e) := by
  split
  · exact h ‹_›
  · exact encodesTo_error w e

theorem decodeZ_encodesTo {w : Word} {i : Instr} {op : Nat} (hop : (opByte w).toNat = op) (hwf : i.wf = true)
    (hencode : encode i = encodeZ (BitVec.ofNat 8 op)) : EncodesTo w (decodeZ w i) :=
  encodesTo_ite fun hzero => encodesTo_ok hwf (by rw [hencode, ← opByte_eq_ofNat hop, encodeZ_of_fields hzero])

theorem decodeI8_encodesTo {w : Word} {mk : Byte → Instr} {op : Nat} (hop : (opByte w).toNat = op)
    (hwf : ∀ b, (mk b).wf = true) (hencode : ∀ b, encode (mk b) = encodeI8 (BitVec.ofNat 8 op) b) :
    EncodesTo w (decodeI8 w mk) :=
  encodesTo_ite fun hzero => encodesTo_ok (hwf _) (by rw [hencode, ← opByte_eq_ofNat hop, encodeI8_of_fields hzero])

theorem decodeIP_encodesTo {w : Word} {mk : Byte → Byte → Instr} {op : Nat} (hop : (opByte w).toNat = op)
    (hwf : ∀ i b, (mk i b).wf = true) (hencode : ∀ i b, encode (mk i b) = encodeIP (BitVec.ofNat 8 op) i b) :
    EncodesTo w (decodeIP w mk) :=
  encodesTo_ite fun hzero => encodesTo_ok (hwf _ _) (by rw [hencode, ← opByte_eq_ofNat hop, encodeIP_of_fields hzero])

theorem decodeByOpcode_encodesTo (w : Word) : EncodesTo w (decodeByOpcode w) := by
  unfold decodeByOpcode
  split
  -- format I8: COUNT, RDFT, RDSYM, RDFREQ and PACK; format IP: CGET; no row; format Z: the other 19
  case h_9 h | h_10 h | h_13 h | h_14 h | h_22 h => exact decodeI8_encodesTo h (fun _ => rfl) fun _ => rfl
  case h_15 h => exact decodeIP_encodesTo h (fun _ _ => rfl) fun _ _ => rfl
  case h_26 => exact encodesTo_error w _
  all_goals exact decodeZ_encodesTo ‹_› rfl rfl

theorem op6_eq_ofNat {w : Word} {n : Nat} (h : (op6 w).toNat = n) : op6 w = BitVec.ofNat 6 n := by
  rw [← h, BitVec.ofNat_toNat, BitVec.setWidth_eq]

/-- A buffer command that passes the selector check is well formed, since that check is `Instr.wf`. -/
theorem withBuffer_encodesTo {w : Word} {mk : Buf → Instr} {low : BitVec 24} {k : Nat} (hop : (op6 w).toNat = k)
    (hlow : low = field w 0 24) (hencode : ∀ buf, encode (mk buf) = encodeB (BitVec.ofNat 6 k) buf low) :
    EncodesTo w (withBuffer w mk) := by
  rcases selector_cases (field w 24 2) with hthree | ⟨buf, hbuf⟩
  · rw [withBuffer, hthree]
    exact encodesTo_error w _
  · rw [withBuffer, hbuf, bufOfSelector_selector]
    refine encodesTo_ite fun hwf => encodesTo_ok hwf ?_
    rw [hencode, ← op6_eq_ofNat hop, hlow, encodeB_of_fields hbuf]

theorem decode_encodesTo (w : Word) : EncodesTo w (decode w) := by
  unfold decode
  split
  case h_1 h => exact encodesTo_ite fun hzero => withBuffer_encodesTo h (bit_append_of_field hzero) fun _ => rfl
  case h_2 h => exact encodesTo_ite fun hzero => withBuffer_encodesTo h (byte_append_of_field hzero) fun _ => rfl
  case h_3 h | h_4 h => exact encodesTo_ite fun hzero => withBuffer_encodesTo h hzero.symm fun _ => rfl
  case h_5 h | h_6 h => exact withBuffer_encodesTo h rfl fun _ => rfl
  case h_7 => exact decodeByOpcode_encodesTo w

/-! ### The obligations -/

/-- Settles O3: the decoder's checks leave only words that the encoder makes. -/
theorem encodeInvertsDecode : Obligations.EncodeInvertsDecode := decode_encodesTo

/-- Settles O1: the decoder evaluated on the fourteen words. -/
theorem specWordsDecode : Obligations.SpecWordsDecode := by
  unfold Obligations.SpecWordsDecode
  decide

end Sys2Proof
end

section
/-! SUPPORT. Reset, the container guards and the ERR latch (70_reset_and_hazards.md rules R250, R251; 60_exceptions.md rules R225,
R227). -/

namespace Sys2Proof.Machine

open Sys2Proof.Safety

/-! ### Reset -/

/-- INIT gives the reset state from every state (46_system.md rule R201). -/
theorem exec_init (s : State) : exec .init s = .next (answered s 0 Block.reset) := rfl

@[simp] theorem reset_counter (v : Byte) : Block.reset.counter v = 0 := Vector.getElem_replicate _

@[simp] theorem reset_lookup (v : Byte) : Block.reset.lookup v = none := Vector.getElem_replicate _

/-- Settles O9, by the laws of the step that takes the reset input and of the step with nothing at the port. -/
theorem resetInputAndIdleStep : Obligations.ResetInputAndIdleStep :=
  ⟨fun _ _ _ hpending => step_reset hpending, fun _ hpending => step_idle hpending⟩

/-- Settles O10: every row is the reset state's own, and INIT writes every row. -/
theorem resetState : Obligations.ResetState :=
  ⟨rfl, rfl, reset_counter, rfl, rfl, rfl, rfl, rfl, reset_lookup, rfl, rfl, rfl, rfl, rfl, rfl, step_idle rfl, rfl, exec_init⟩

/-! ### The container guards -/

/-- Settles O15: each guard is the rule's first check. -/
theorem containerGuardFirst : Obligations.ContainerGuardFirst :=
  fun _ => ⟨fun halpha => ⟨exec_mkalpha_populated halpha, exec_deser_populated halpha⟩,
    fun hbuffers => exec_serhdr_populated (not_and_or.2 hbuffers), exec_decode_populated⟩

/-! ### The ERR latch -/

/-- The status of a command's response latches in ERR; an answer, whose status is OK, leaves ERR to the commands that write it,
and INIT alone does. -/
theorem exec_latches {i : Instr} {s t : State} (hinit : i ≠ .init) (h : exec i s = .next t) :
    ∃ r : Response, t.rsps = s.rsps ++ [r] ∧ t.blk.err = (s.blk.latch r.status).err := by
  obtain ⟨r, hr, hwrites⟩ := exec_writesOnly i s
  rcases conclude_answered_or_faulted hwrites (hr ▸ h) with ⟨d, b, rfl, hb⟩ | ⟨f, rfl⟩
  · refine ⟨⟨.ok, d⟩, rfl, ?_⟩
    have herr : b.err = s.blk.err := not_imp_comm.1 hb.err hinit
    rw [latch_err]
    split
    · exact herr.trans ‹_›
    · exact herr
  · exact ⟨⟨f, 0⟩, rfl, rfl⟩

/-- Settles O12: the latch of every command but INIT, and the other three things a step can find at the port. -/
theorem errHoldsFirstFault : Obligations.ErrHoldsFirstFault := by
  refine ⟨fun i s t h => ?_, fun s t h =>
    ⟨fun w rest e hpending hdecode => ?_, fun flight rest hpending => ?_, fun hpending => ?_⟩⟩
  · by_cases hinit : i = .init
    · subst hinit
      obtain rfl := Host.Outcome.next.inj h
      exact ⟨⟨.ok, 0⟩, rfl, fun _ => rfl, fun hne => absurd rfl hne⟩
    · obtain ⟨r, hrsps, herr⟩ := exec_latches hinit h
      exact ⟨r, hrsps, fun heq => absurd heq hinit, fun _ => herr⟩
  · obtain rfl := Host.Outcome.next.inj ((step_illegal hpending hdecode).symm.trans h)
    rfl
  · obtain rfl := Host.Outcome.next.inj ((step_reset hpending).symm.trans h)
    rfl
  · obtain rfl := Host.Outcome.next.inj ((step_idle hpending).symm.trans h)
    rfl

end Sys2Proof.Machine
end
